-- ==== Sys2Proof/Word.lean ====
section
/-! DEFINITION. The two word types of PBFC: a byte (00_scope.md R7) and a bus word (00_scope.md R6). -/

namespace Sys2Proof

/-- A byte, the `u8` of R7. -/
abbrev Byte := BitVec 8

/-- A 32-bit register or bus word (R6, R12). -/
abbrev Word := BitVec 32

end Sys2Proof
end

