-- ==== Sys2Proof/Syntax.lean ====
section
/-! DEFINITION. The ten commands of 30_encoding.md R56, one constructor per row of the opcode table. -/

namespace Sys2Proof

/-- A PBFC command. `FCS.GEN` and `FCS.CHK` carry their operands A (start index) and B (byte count) as the numbers an
assembler is given (R59); that they lie in 0 to 255 is `Instr.wellFormed` (log 15). -/
inductive Instr where
  | classify
  | measure
  | decode
  | encToken
  | encSc
  | encFix0
  | encFix8
  | encVar
  | fcsGen (a b : Nat)
  | fcsChk (a b : Nat)
deriving DecidableEq, Repr

end Sys2Proof
end

