-- ==== Sys2Proof/WellFormed.lean ====
section
/-! DEFINITION. Which terms of `Instr` are commands of PBFC: the operand range of 30_encoding.md R55 and R59. -/

namespace Sys2Proof

/-- An operand of format R is a number in 0 to 255 (R55, R59). -/
def operandOk (x : Nat) : Bool := decide (x < 256)

/-- A command whose operands fit their fields. -/
def Instr.wellFormed : Instr → Bool
  | .classify | .measure | .decode => true
  | .encToken | .encSc | .encFix0 | .encFix8 | .encVar => true
  | .fcsGen a b => operandOk a && operandOk b
  | .fcsChk a b => operandOk a && operandOk b

end Sys2Proof
end

