-- ==== Sys2Proof/Decode.lean ====
section
/-! DEFINITION. The command word (30_encoding.md R55 to R57): fields, decoder, encoder, opcode map and assembler. -/

namespace Sys2Proof

/-- Byte `k` of a word, byte 0 in bits 7:0 (R7, R34). -/
def byteAt (w : Word) (k : Nat) : Byte := w.extractLsb' (8 * k) 8

/-- The word `{b3, b2, b1, b0}` of R7: `b0` in bits 7:0. -/
def packWord (b3 b2 b1 b0 : Byte) : Word := b3 ++ b2 ++ b1 ++ b0

/-- Why a command word is illegal: the three bullets of R57. -/
inductive IllegalWord where
  /-- `OPC` is none of the ten listed values. -/
  | unassignedOpc
  /-- A format-N word with a non-zero bit in 31:8. -/
  | formatNBits
  /-- A format-R word with a non-zero bit in 31:24. -/
  | formatRBits
deriving DecidableEq, Repr

/-- What a command word says. -/
inductive Decoded where
  | instr (i : Instr)
  | illegal (why : IllegalWord)
deriving DecidableEq, Repr

/-- A word of format N (R55): bits 31:8 must be 0. -/
def formatN (w : Word) (i : Instr) : Decoded :=
  if w.extractLsb' 8 24 = 0#24 then .instr i else .illegal .formatNBits

/-- A word of format R (R55): bits 31:24 must be 0, A is bits 15:8 and B bits 23:16. -/
def formatR (w : Word) (f : Nat → Nat → Instr) : Decoded :=
  if byteAt w 3 = 0#8 then .instr (f (byteAt w 1).toNat (byteAt w 2).toNat) else .illegal .formatRBits

/-- The decoder: the opcode map of R56, and R57 for every other word. -/
def decodeWord (w : Word) : Decoded :=
  let opc := byteAt w 0
  if opc = 0x01#8 then formatN w .classify
  else if opc = 0x02#8 then formatN w .measure
  else if opc = 0x03#8 then formatN w .decode
  else if opc = 0x10#8 then formatN w .encToken
  else if opc = 0x11#8 then formatN w .encSc
  else if opc = 0x12#8 then formatN w .encFix0
  else if opc = 0x13#8 then formatN w .encFix8
  else if opc = 0x14#8 then formatN w .encVar
  else if opc = 0x20#8 then formatR w .fcsGen
  else if opc = 0x21#8 then formatR w .fcsChk
  else .illegal .unassignedOpc

/-- The command word of a command (R55, R56). -/
def encode : Instr → Word
  | .classify => packWord 0 0 0 0x01
  | .measure => packWord 0 0 0 0x02
  | .decode => packWord 0 0 0 0x03
  | .encToken => packWord 0 0 0 0x10
  | .encSc => packWord 0 0 0 0x11
  | .encFix0 => packWord 0 0 0 0x12
  | .encFix8 => packWord 0 0 0 0x13
  | .encVar => packWord 0 0 0 0x14
  | .fcsGen a b => packWord 0 (BitVec.ofNat 8 b) (BitVec.ofNat 8 a) 0x20
  | .fcsChk a b => packWord 0 (BitVec.ofNat 8 b) (BitVec.ofNat 8 a) 0x21

/-- The instruction the decoder reads from a command word given as a number: PBFC's command is one 32-bit word, written
to `CMD` with one 32-bit access (R14, R30), so bits above the given ones are 0. -/
def decodeTableWord (nbits w : Nat) : Option Instr :=
  match decodeWord (BitVec.ofNat 32 (w % 2 ^ nbits)) with
  | .instr i => some i
  | .illegal _ => none

/-- The mnemonics of R56. -/
inductive Mnemonic where
  | CLASSIFY | MEASURE | DECODE | ENC_TOKEN | ENC_SC | ENC_FIX0 | ENC_FIX8 | ENC_VAR | FCS_GEN | FCS_CHK
deriving DecidableEq, Repr

/-- A row of the opcode map of R56. -/
structure OpcodeRow where
  mnemonic : Mnemonic
  matchVal : Word
  mask : Word
deriving DecidableEq, Repr

/-- The opcode map of R56, row by row. -/
def opcodeMap : List OpcodeRow :=
  [⟨.CLASSIFY, 0x00000001, 0xFFFFFFFF⟩, ⟨.MEASURE, 0x00000002, 0xFFFFFFFF⟩, ⟨.DECODE, 0x00000003, 0xFFFFFFFF⟩,
   ⟨.ENC_TOKEN, 0x00000010, 0xFFFFFFFF⟩, ⟨.ENC_SC, 0x00000011, 0xFFFFFFFF⟩, ⟨.ENC_FIX0, 0x00000012, 0xFFFFFFFF⟩,
   ⟨.ENC_FIX8, 0x00000013, 0xFFFFFFFF⟩, ⟨.ENC_VAR, 0x00000014, 0xFFFFFFFF⟩,
   ⟨.FCS_GEN, 0x00000020, 0xFF0000FF⟩, ⟨.FCS_CHK, 0x00000021, 0xFF0000FF⟩]

/-- A word selects a row when `(w AND mask) = match` (R56). -/
def OpcodeRow.selects (r : OpcodeRow) (w : Word) : Bool := decide (w &&& r.mask = r.matchVal)

/-- The mnemonic of a command (R56). -/
def mnemonicOf : Instr → Mnemonic
  | .classify => .CLASSIFY
  | .measure => .MEASURE
  | .decode => .DECODE
  | .encToken => .ENC_TOKEN
  | .encSc => .ENC_SC
  | .encFix0 => .ENC_FIX0
  | .encFix8 => .ENC_FIX8
  | .encVar => .ENC_VAR
  | .fcsGen _ _ => .FCS_GEN
  | .fcsChk _ _ => .FCS_CHK

/-- The assembler of R59: a mnemonic and its operands, `A` then `B`, each in 0 to 255; none where the operands are too
many, too few or out of range. -/
def assemble : Mnemonic → List Nat → Option Word
  | .CLASSIFY, [] => some (encode .classify)
  | .MEASURE, [] => some (encode .measure)
  | .DECODE, [] => some (encode .decode)
  | .ENC_TOKEN, [] => some (encode .encToken)
  | .ENC_SC, [] => some (encode .encSc)
  | .ENC_FIX0, [] => some (encode .encFix0)
  | .ENC_FIX8, [] => some (encode .encFix8)
  | .ENC_VAR, [] => some (encode .encVar)
  | .FCS_GEN, [a, b] => if (Instr.fcsGen a b).wellFormed then some (encode (.fcsGen a b)) else none
  | .FCS_CHK, [a, b] => if (Instr.fcsChk a b).wellFormed then some (encode (.fcsChk a b)) else none
  | _, _ => none

end Sys2Proof
end

