-- ==== Sys2Proof/Config.lean ====
section
/-! DEFINITION. What is fixed for one PBFC (00_scope.md R6) and the free values (70_reset_and_hazards.md R102). -/

namespace Sys2Proof

/-- The two readings of `LE_OFFSET` that R6 and R51 allow: 0 (LE counts the payload only) and 3 (LE counts DA, SA, FC
and the payload, the bytes the FCS covers). -/
inductive LeOffset where
  | payloadOnly
  | fcsCovered
deriving DecidableEq, Repr

/-- The parameters of R6 a rule depends on. `State` carries them (log 5: `exec`'s form has no other place for an
argument), and no step changes them. -/
structure Params where
  leOffset : LeOffset
deriving DecidableEq, Repr

/-- The value of the k-th word the model draws freely (R102, 93 U5). No body: nothing constrains it (log 4). -/
opaque Config.freeWord : Nat → BitVec 32

/-- The value of the k-th byte the model draws freely (R102, 93 U5). No body: nothing constrains it (log 4). -/
opaque Config.freeByte : Nat → BitVec 8

/-- `CMD_LATENCY` less one. OPEN (R6, 93 U16); no rule depends on it (log 6). -/
opaque Config.latencyBeyondOne : Nat

/-- `CMD_LATENCY`, any integer at least 1 (R6). -/
def Config.cmdLatency : Nat := Config.latencyBeyondOne + 1

/-- Which 512-byte block of the platform's bus map holds the window. OPEN (R6, 93 U18; log 6). -/
opaque Config.windowBlock : Nat

/-- `PBFC_BASE`, any multiple of 512 (R6). -/
def Config.pbfcBase : Nat := 512 * Config.windowBlock

end Sys2Proof
end

