-- ==== Sys2Proof/Machine/State.lean ====
section
/-! DEFINITION. The state of PBFC and of its host's remaining inputs, the reasons a step stops, and the state right after
a hard reset (10_state.md, 70_reset_and_hazards.md R97). -/

namespace Sys2Proof.Machine

/-- The result codes of 30_encoding.md R58. `eBusy`, `eTimeout` and `eHwInit` are named by R58 and never produced
(60_exceptions.md R92). -/
inductive Code where
  | ok
  | eBusy
  | eMalformed
  | eChecksum
  | eFraming
  | eTimeout
  | eHwInit
  | eIllegal
deriving DecidableEq, Repr

/-- The variant codes of 30_encoding.md R44; the reserved values 6 and 7 are never written. -/
inductive Variant where
  | none
  | token
  | sc
  | fix0
  | fix8
  | var
deriving DecidableEq, Repr

/-- The frame buffer `BUF` as its defined bytes, (index, byte), in strictly rising order of index; a byte not listed is
undefined (10_state.md R21, R22; log 7). -/
abbrev Memory := List Host.Cell

/-- An offset of the 512-byte window (20_memory.md R29; log 16). -/
abbrev Offset := BitVec 9

/-- One host bus access, by width (30_encoding.md R59; the 16-bit ones are those of 20_memory.md R31). -/
inductive Access where
  | r8 (off : Offset)
  | r16 (off : Offset)
  | r32 (off : Offset)
  | w8 (off : Offset) (v : BitVec 8)
  | w16 (off : Offset) (v : BitVec 16)
  | w32 (off : Offset) (v : BitVec 32)
deriving DecidableEq, Repr

/-- A host statement: one access, or the polling loop `WAIT` of 30_encoding.md R60. -/
inductive HostOp where
  | access (a : Access)
  | wait
deriving DecidableEq, Repr

/-- Whose step comes next: the host's next statement, the codec agent, or the reset pin driven to a level
(93 U8, 70_reset_and_hazards.md R97; log 1, log 12). -/
inductive Move where
  | host
  | codec
  | rst (level : Bool)
deriving DecidableEq, Repr

/-- The value a host read returned, by its width. -/
inductive ReadData where
  | byte (b : BitVec 8)
  | half (h : BitVec 16)
  | word (w : BitVec 32)
deriving DecidableEq, Repr

/-- The state: the registers of 10_state.md R13 to R20, `PEND` (R23), `BUF` (R21), the level of `RST_N` (R97), and,
from `cfg` on, the model's own fields (the parameter of R6 and the host's side). -/
structure State where
  /-- `CTRL.IE` (R13). -/
  ie : Bool
  /-- `STATUS.CODE` (R15). -/
  code : Code
  /-- `STATUS.VARIANT` (R15). -/
  variant : Variant
  /-- `STATUS.CPL` (R15). -/
  cpl : Bool
  /-- `STATUS.BUSY` (R15). -/
  busy : Bool
  /-- `STATUS.DONE` (R15). -/
  done : Bool
  /-- `STATUS.OVR` (R15). -/
  ovr : Bool
  /-- `FIELDS` (R16). -/
  fields : BitVec 32
  /-- `LEN.L` (R17). -/
  len : BitVec 9
  /-- `RES` (R18). -/
  res : BitVec 32
  /-- `FCSR.CALC` (R19). -/
  fcsCalc : BitVec 8
  /-- `FCSR.RECV` (R19). -/
  fcsRecv : BitVec 8
  /-- `FLEN.FL` (R20). -/
  flen : BitVec 9
  /-- `PEND` (R23). -/
  pend : Option (BitVec 32)
  /-- `BUF` (R21, R22). -/
  buf : Memory
  /-- The level of the input `RST_N` (R97). -/
  rstN : Bool
  /-- The parameter `LE_OFFSET` (R6, R51; log 5). -/
  cfg : Params
  /-- The host statements still to come, in program order (R37; log 2). -/
  host : List HostOp
  /-- Who moves next; when empty, the codec agent if a command is pending, else the host (log 1). -/
  sched : List Move
  /-- What the last host read returned (R8 `MemRead`; log 3). -/
  rdata : Option ReadData
  /-- How many free values have been drawn (R102; log 4). -/
  draws : Nat
deriving DecidableEq, Repr

/-- The model faults of 60_exceptions.md R96. Each is safe: the machine stops where the spec leaves the hardware's
behaviour undefined. -/
inductive Fault where
  /-- A command's `BufRead` or a host read reaches an undefined byte of `BUF`. Safe. -/
  | undefinedBufRead (i : Nat)
  /-- A host access of a width or alignment outside 20_memory.md R30. Safe. -/
  | illegalAccess (off : Nat)
  /-- A host write to `FIELDS`, `LEN` or `BUF` while `STATUS.BUSY = 1` (70_reset_and_hazards.md R101). Safe. -/
  | hazardWrite (off : Nat)
deriving DecidableEq, Repr

/-- The refusals. -/
inductive Refusal where
  /-- An arm of `exec` whose command has no meaning yet; no arm answers with it. Safe. -/
  | notModelled (mnemonic : String)
deriving DecidableEq, Repr

/-- The outcome of one step. -/
abbrev Result := Host.Outcome State Fault Refusal

/-- The machine right after a hard reset (10_state.md R26, 70_reset_and_hazards.md R97), with `RST_N` back at 1. The
fields from `cfg` on are the model's: `LE_OFFSET` = 3 (R6), and no host statement, move, read value or draw (log 1 to 5). -/
def State.reset : State where
  ie := false
  code := .ok
  variant := .none
  cpl := false
  busy := false
  done := false
  ovr := false
  fields := 0
  len := 0
  res := 0
  fcsCalc := 0
  fcsRecv := 0
  flen := 0
  pend := none
  buf := []
  rstN := true
  cfg := { leOffset := .fcsCovered }
  host := []
  sched := []
  rdata := none
  draws := 0

end Sys2Proof.Machine
end

