-- ==== Sys2Proof/Machine/Flags.lean ====
section
/-! DEFINITION. The status register and the other register words as the host reads them (10_state.md R13 to R20), its
write-1-to-clear bits, and the interrupt output (R24). -/

namespace Sys2Proof.Machine

/-- The byte of a result code, 8-bit two's complement (30_encoding.md R58). -/
def codeByte : Code → Byte
  | .ok => 0x00
  | .eBusy => 0xFF
  | .eMalformed => 0xFE
  | .eChecksum => 0xFD
  | .eFraming => 0xFC
  | .eTimeout => 0xFB
  | .eHwInit => 0xFA
  | .eIllegal => 0xF9

/-- The three bits of a variant (30_encoding.md R44). -/
def variantBits : Variant → BitVec 3
  | .none => 0
  | .token => 1
  | .sc => 2
  | .fix0 => 3
  | .fix8 => 4
  | .var => 5

/-- One bit of a register. -/
def bit (b : Bool) : BitVec 1 := BitVec.ofBool b

/-- `CTRL` as read: `IE` in bit 0, every other bit 0 (R13). -/
def ctrlWord (s : State) : Word := 0#31 ++ bit s.ie

/-- `STATUS` as read (R15). -/
def statusWord (s : State) : Word :=
  0#13 ++ bit s.ovr ++ bit s.done ++ bit s.busy ++ 0#4 ++ bit s.cpl ++ variantBits s.variant ++ codeByte s.code

/-- `LEN` as read (R17). -/
def lenWord (s : State) : Word := 0#23 ++ s.len

/-- `FCSR` as read (R19). -/
def fcsrWord (s : State) : Word := 0#16 ++ s.fcsRecv ++ s.fcsCalc

/-- `FLEN` as read (R20). -/
def flenWord (s : State) : Word := 0#23 ++ s.flen

/-- The interrupt output: `STATUS.DONE AND CTRL.IE`, at every cycle (R24). -/
def State.irq (s : State) : Bool := s.done && s.ie

/-- A write of `STATUS`: `DONE` and `OVR` are cleared where the word has a 1, nothing else changes (R15, R88). -/
def clearW1C (v : Word) (s : State) : State :=
  { s with done := s.done && !v.getLsbD 17, ovr := s.ovr && !v.getLsbD 18 }

end Sys2Proof.Machine
end

