-- ==== Sys2Proof/Machine/Operands.lean ====
section
/-! DEFINITION. The operands of the commands: named constants (00_scope.md R9), the fields of `FIELDS` (10_state.md R16),
variant geometry (30_encoding.md R52 to R54), legal payload lengths (43_encode.md R69). -/

namespace Sys2Proof.Machine

/-- `SD_TOKEN` (R9). -/
abbrev sdToken : Byte := 0x10#8
/-- `SC` (R9). -/
abbrev scByte : Byte := 0xE5#8
/-- `SD_FIX0` (R9). -/
abbrev sdFix0 : Byte := 0xDC#8
/-- `SD_FIX8` (R9). -/
abbrev sdFix8 : Byte := 0xA2#8
/-- `SD_VAR` (R9). -/
abbrev sdVar : Byte := 0x68#8
/-- `ED` (R9). -/
abbrev edByte : Byte := 0x16#8
/-- `PAYLOAD_MIN` (R9). -/
abbrev payloadMin : Nat := 1
/-- `PAYLOAD_MAX` (R9). -/
abbrev payloadMax : Nat := 246

/-- `LE_OFFSET` as a number (R6). -/
def leOffsetOf (p : Params) : Nat :=
  match p.leOffset with
  | .payloadOnly => 0
  | .fcsCovered => 3

/-- `FIELDS.DA` (R16). -/
def fieldsDa (s : State) : Byte := byteAt s.fields 0
/-- `FIELDS.SA` (R16). -/
def fieldsSa (s : State) : Byte := byteAt s.fields 1
/-- `FIELDS.FC` (R16). -/
def fieldsFc (s : State) : Byte := byteAt s.fields 2
/-- `FIELDS.N` as a number (R16). -/
def fieldsN (s : State) : Nat := (byteAt s.fields 3).toNat

/-- The discriminator map of R53: the variant byte 0 selects, `NONE` for the 251 other values. -/
def sdVariant (b : Byte) : Variant :=
  if b = sdToken then .token
  else if b = scByte then .sc
  else if b = sdFix0 then .fix0
  else if b = sdFix8 then .fix8
  else if b = sdVar then .var
  else .none

/-- `explen(variant, n)` of R52; 0 for `NONE`, which has no frame. -/
def explen : Variant → Nat → Nat
  | .none, _ => 0
  | .token, _ => 3
  | .sc, _ => 1
  | .fix0, _ => 6
  | .fix8, _ => 14
  | .var, n => n + 8

/-- FS of R54, for the three variants with an FCS (0 for the others, which have none). -/
def fcsStart : Variant → Nat
  | .fix0 => 1
  | .fix8 => 1
  | .var => 3
  | _ => 0

/-- PO of R54: where the payload stands, after DA, SA and FC (0 for the variants without a payload field). -/
def payloadOffset : Variant → Nat
  | .fix0 => 4
  | .fix8 => 4
  | .var => 6
  | _ => 0

/-- FN of R54: DA, SA, FC and the payload. -/
def fcsCount (n : Nat) : Nat := n + 3

/-- FI of R54: the FCS byte follows the covered range. -/
def fcsIndex (v : Variant) (n : Nat) : Nat := fcsStart v + fcsCount n

/-- EI of R54: the end delimiter follows the FCS byte. -/
def edIndex (v : Variant) (n : Nat) : Nat := fcsIndex v n + 1

/-- The payload lengths an encoder accepts (R69 item 2). -/
def legalN : Variant → Nat → Bool
  | .none, _ => false
  | .token, n => n == 0
  | .sc, n => n == 0
  | .fix0, n => n == 0
  | .fix8, n => n == 8
  | .var, n => decide (payloadMin ≤ n ∧ n ≤ payloadMax)

/-- The payload length LE and LEr give (R51, R67, R76): none when they differ or when LE - `LE_OFFSET`, an integer that
may be negative, lies outside 1 to 246. -/
def varPayload (off : Nat) (le ler : Byte) : Option Nat :=
  if le ≠ ler then none
  else
    let n : Int := (le.toNat : Int) - (off : Int)
    if n < (payloadMin : Int) ∨ n > (payloadMax : Int) then none else some n.toNat

/-- The length byte of a payload of n bytes (R51, R74). -/
def leByte (off n : Nat) : Byte := BitVec.ofNat 8 (n + off)

/-- The bytes a pending command's rule could write, as (first index, count) (70_reset_and_hazards.md R99). -/
def couldWrite (n : Nat) : Instr → Nat × Nat
  | .fcsGen a b => if a + b ≤ 255 then (a + b, 1) else (0, 0)
  | .encToken => if legalN .token n then (0, explen .token n) else (0, 0)
  | .encSc => if legalN .sc n then (0, explen .sc n) else (0, 0)
  | .encFix0 => if legalN .fix0 n then (0, explen .fix0 n) else (0, 0)
  | .encFix8 => if legalN .fix8 n then (0, explen .fix8 n) else (0, 0)
  | .encVar => if legalN .var n then (0, explen .var n) else (0, 0)
  | .classify | .measure | .decode => (0, 0)
  | .fcsChk _ _ => (0, 0)

end Sys2Proof.Machine
end

