-- ==== Sys2Proof/Machine/Ops.lean ====
section
/-! DEFINITION. The named operations: reading and writing `BUF` (00_scope.md R8), the FCS function (41_fcs.md R61),
acceptance, dropping and completion of a command (60_exceptions.md R80 to R82), and the two resets
(70_reset_and_hazards.md R97 to R99). -/

namespace Sys2Proof.Machine

/-- Byte `i` of `BUF`, none when it is undefined (R22). -/
def Memory.byte? : Memory → Nat → Option Byte
  | [], _ => none
  | (a, b) :: m, i => if a = i then some b else Memory.byte? m i

/-- `BUF[i] <- v` on the canonical list: the byte becomes defined (R8, R22). -/
def Memory.write : Memory → Nat → Byte → Memory
  | [], i, v => [(i, v)]
  | (a, b) :: m, i, v =>
    if i < a then (i, v) :: (a, b) :: m
    else if i = a then (i, v) :: m
    else (a, b) :: Memory.write m i v

/-- The `count` bytes from index `lo` on become undefined (R99). -/
def Memory.undefine (m : Memory) (lo count : Nat) : Memory :=
  m.filter fun c => decide (c.1 < lo ∨ lo + count ≤ c.1)

/-- Indices strictly rising, each above `lo` or equal to it. -/
def Memory.risingFrom : Nat → Memory → Bool
  | _, [] => true
  | lo, (a, _) :: m => decide (lo ≤ a) && Memory.risingFrom (a + 1) m

/-- The canonical form: indices strictly rising, each an index of `BUF` (R21). -/
def Memory.wf (m : Memory) : Bool := Memory.risingFrom 0 m && m.all fun c => decide (c.1 < 256)

/-- `BufRead(i)` (R8): the byte, or the model fault of R96. -/
def bufRead (m : Memory) (i : Nat) : Except Fault Byte :=
  match m.byte? i with
  | some b => .ok b
  | none => .error (.undefinedBufRead i)

/-- `BufWrite(i, v)` (R8). -/
def bufWrite (i : Nat) (v : Byte) (s : State) : State := { s with buf := s.buf.write i v }

/-- `BufWrite` of successive bytes from index `i` on. -/
def bufWrites : Nat → List Byte → State → State
  | _, [], s => s
  | i, v :: vs, s => bufWrites (i + 1) vs (bufWrite i v s)

/-- The loop of R61: ascending reads, the sum kept in 8 bits. -/
def fcsFrom (m : Memory) : Nat → Nat → Byte → Except Fault Byte
  | _, 0, acc => .ok acc
  | k, n + 1, acc =>
    match bufRead m k with
    | .ok b => fcsFrom m (k + 1) n (acc + b)
    | .error f => .error f

/-- `fcs(s, n)` of R61. -/
def fcs (m : Memory) (start n : Nat) : Except Fault Byte := fcsFrom m start n 0#8

/-- Go on with what a read gave, or stop at its fault, which pre-empts every code (R85). -/
def reading {α : Type} (r : Except Fault α) (k : α → Result) : Result :=
  match r with
  | .ok a => k a
  | .error f => .fault f

/-- `finish(code, variant, cpl)`, the completion of the current command (R82). -/
def finish (c : Code) (v : Variant) (cpl : Bool) (s : State) : State :=
  { s with
    code := c
    variant := if c = .ok then v else .none
    cpl := cpl
    busy := false
    done := true
    pend := none }

/-- Acceptance of the command word `w` (R80). -/
def accept (w : Word) (s : State) : State := { s with pend := some w, busy := true, done := false }

/-- A `CMD` write while busy is dropped (R81). -/
def dropCommand (s : State) : State := { s with ovr := true }

/-- A host write of `w` to `CMD` (R80, R81). -/
def writeCmd (w : Word) (s : State) : State := if s.busy then dropCommand s else accept w s

/-- Both bytes of `FCSR` (R19). -/
def setFcsr (cv rv : Byte) (s : State) : State := { s with fcsCalc := cv, fcsRecv := rv }

/-- What an encoder writes on success after its frame stands in `BUF`, with its completion (R69 item 4). -/
def finishEncoder (v : Variant) (frameLen : Nat) (x : Byte) (s : State) : State :=
  finish .ok v false
    (setFcsr x x { s with len := BitVec.ofNat 9 frameLen, flen := BitVec.ofNat 9 frameLen })

/-- Every register at its value of R26, `PEND` empty; `BUF`, the pin, the parameter and the host's side are kept. -/
def resetRegisters (s : State) : State :=
  { s with
    ie := false
    code := .ok
    variant := .none
    cpl := false
    busy := false
    done := false
    ovr := false
    fields := 0
    len := 0
    res := 0
    fcsCalc := 0
    fcsRecv := 0
    flen := 0
    pend := none }

/-- Hard reset: the registers, and every byte of `BUF` undefined (R97). -/
def hardReset (s : State) : State := { resetRegisters s with buf := [] }

/-- The bytes a soft reset makes undefined: those the pending command could write, judged from `PEND` and `FIELDS` (R99). -/
def abandoned (s : State) : Nat × Nat :=
  match s.busy, s.pend with
  | true, some w =>
    match decodeWord w with
    | .instr i => couldWrite (fieldsN s) i
    | .illegal _ => (0, 0)
  | _, _ => (0, 0)

/-- Soft reset (R98), with the undefined bytes of R99. -/
def softReset (s : State) : State :=
  { resetRegisters s with buf := s.buf.undefine (abandoned s).1 (abandoned s).2 }

/-- The pin `RST_N` driven to a level (R97): whenever it is or was low the machine is in the reset state. -/
def driveRst (level : Bool) (s : State) : State :=
  if level && s.rstN then s else { hardReset s with rstN := level }

end Sys2Proof.Machine
end

