-- ==== Sys2Proof/Machine/Bus.lean ====
section
/-! DEFINITION. The host's side of the window: legal accesses, register and `BUF` reads and writes, hazards, accesses
while `RST_N` is low (20_memory.md, 70_reset_and_hazards.md R97, R101, R102), and the host statements of 30_encoding.md
R59 and R60. -/

namespace Sys2Proof.Machine

/-- The bus address of a window offset (R29). -/
def busAddress (off : Offset) : Nat := Config.pbfcBase + off.toNat

/-- The offset a bus address selects, none outside the window (R29). -/
def windowOffset (a : Nat) : Option Offset :=
  if Config.pbfcBase ≤ a ∧ a < Config.pbfcBase + 512 then some (BitVec.ofNat 9 (a - Config.pbfcBase)) else none

/-- The registers of R12. -/
inductive Reg where
  | ctrl | cmd | status | fields | len | res | fcsr | flen | reserved
deriving DecidableEq, Repr

/-- The register at an aligned offset below 0x100 (R12). -/
def regAt (off : Nat) : Reg :=
  if off = 0x000 then .ctrl
  else if off = 0x004 then .cmd
  else if off = 0x008 then .status
  else if off = 0x00C then .fields
  else if off = 0x010 then .len
  else if off = 0x014 then .res
  else if off = 0x018 then .fcsr
  else if off = 0x01C then .flen
  else .reserved

/-- The value a register reads as when no hazard applies: `CMD` and the reserved offsets read 0 (R12 to R20, R25). -/
def readRegister (r : Reg) (s : State) : Word :=
  match r with
  | .ctrl => ctrlWord s
  | .cmd => 0
  | .status => statusWord s
  | .fields => s.fields
  | .len => lenWord s
  | .res => s.res
  | .fcsr => fcsrWord s
  | .flen => flenWord s
  | .reserved => 0

/-- The registers whose value is free while a command is pending (R102). -/
def resultHazard (r : Reg) : Bool :=
  match r with
  | .len | .res | .fcsr | .flen => true
  | .ctrl | .cmd | .status | .fields | .reserved => false

/-- The offset of an access. -/
def accessOffset : Access → Nat
  | .r8 off => off.toNat
  | .r16 off => off.toNat
  | .r32 off => off.toNat
  | .w8 off _ => off.toNat
  | .w16 off _ => off.toNat
  | .w32 off _ => off.toNat

/-- The legal accesses of R30: 32-bit at a multiple of 4 anywhere, 8-bit in `BUF` only, never 16-bit. -/
def legalAccess : Access → Bool
  | .r8 off => decide (0x100 ≤ off.toNat)
  | .w8 off _ => decide (0x100 ≤ off.toNat)
  | .r16 _ => false
  | .w16 _ _ => false
  | .r32 off => decide (off.toNat % 4 = 0)
  | .w32 off _ => decide (off.toNat % 4 = 0)

/-- A host read returns a value. -/
def answer (d : ReadData) (s : State) : State := { s with rdata := some d }

/-- A host read returns a word the model draws freely (R102). -/
def drawWord (s : State) : State := { s with rdata := some (.word (Config.freeWord s.draws)), draws := s.draws + 1 }

/-- A host read returns a byte the model draws freely (R102). -/
def drawByte (s : State) : State := { s with rdata := some (.byte (Config.freeByte s.draws)), draws := s.draws + 1 }

/-- The word `{BUF[i+3], BUF[i+2], BUF[i+1], BUF[i]}` (R32); the lowest undefined byte faults (R31; log 9). -/
def bufReadWord (m : Memory) (i : Nat) : Except Fault Word := do
  let b0 ← bufRead m i
  let b1 ← bufRead m (i + 1)
  let b2 ← bufRead m (i + 2)
  let b3 ← bufRead m (i + 3)
  .ok (packWord b3 b2 b1 b0)

/-- A legal 32-bit read at an offset: a register or a word of `BUF`, free where R102 says so. -/
def read32 (off : Nat) (s : State) : Result :=
  if off < 0x100 then
    if s.busy && resultHazard (regAt off) then .next (drawWord s)
    else .next (answer (.word (readRegister (regAt off) s)) s)
  else
    reading (bufReadWord s.buf (off - 0x100)) fun w =>
      if s.busy then .next (drawWord s) else .next (answer (.word w) s)

/-- A legal 8-bit read: `BUF[off - 0x100]` (R30), free while a command is pending (R102). -/
def read8 (off : Nat) (s : State) : Result :=
  reading (bufRead s.buf (off - 0x100)) fun b =>
    if s.busy then .next (drawByte s) else .next (answer (.byte b) s)

/-- A write that R101 forbids while a command is pending. -/
def unlessBusy (off : Nat) (s : State) (t : State) : Result :=
  if s.busy then .fault (.hazardWrite off) else .next t

/-- A write of `CTRL`: the soft reset where bit 1 is set, else bit 0 becomes `IE` (R13, R98). -/
def writeCtrl (v : Word) (s : State) : State :=
  if v.getLsbD 1 then softReset s else { s with ie := v.getLsbD 0 }

/-- A 32-bit write of a register (R12 to R20, R25): read-only registers and reserved offsets ignore it. -/
def writeRegister (r : Reg) (off : Nat) (v : Word) (s : State) : Result :=
  match r with
  | .ctrl => .next (writeCtrl v s)
  | .cmd => .next (writeCmd v s)
  | .status => .next (clearW1C v s)
  | .fields => unlessBusy off s { s with fields := v }
  | .len => unlessBusy off s { s with len := v.extractLsb' 0 9 }
  | .res => .next s
  | .fcsr => .next s
  | .flen => .next s
  | .reserved => .next s

/-- A legal 32-bit write; in `BUF` the lowest byte goes to the lowest index (R32). -/
def write32 (off : Nat) (v : Word) (s : State) : Result :=
  if off < 0x100 then writeRegister (regAt off) off v s
  else unlessBusy off s (bufWrites (off - 0x100) [byteAt v 0, byteAt v 1, byteAt v 2, byteAt v 3] s)

/-- A legal 8-bit write (R30). -/
def write8 (off : Nat) (v : Byte) (s : State) : Result := unlessBusy off s (bufWrite (off - 0x100) v s)

/-- A host access while `RST_N = 0`: no effect, and a read returns 0 (R97; log 11). -/
def accessInReset (a : Access) (s : State) : State :=
  match a with
  | .r8 _ => answer (.byte 0) s
  | .r16 _ => answer (.half 0) s
  | .r32 _ => answer (.word 0) s
  | .w8 _ _ => s
  | .w16 _ _ => s
  | .w32 _ _ => s

/-- A host access out of reset: legal ones act, the others are the model fault of R31. -/
def accessLive (a : Access) (s : State) : Result :=
  if legalAccess a then
    match a with
    | .r8 off => read8 off.toNat s
    | .r32 off => read32 off.toNat s
    | .w8 off v => write8 off.toNat v s
    | .w32 off v => write32 off.toNat v s
    | .r16 off => .fault (.illegalAccess off.toNat)
    | .w16 off _ => .fault (.illegalAccess off.toNat)
  else .fault (.illegalAccess (accessOffset a))

/-- One host access (R29 to R35, R97). -/
def hostAccess (a : Access) (s : State) : Result :=
  if s.rstN then accessLive a s else .next (accessInReset a s)

/-- What a read of `STATUS` returns (R15, R102: exact at all times; 0 in reset, R97). -/
def statusRead (s : State) : Word := if s.rstN then statusWord s else 0

/-- One round of `WAIT` (R60): read `STATUS`; the loop goes on while bit 16 is 1. -/
def pollStatus (s : State) (rest : List HostOp) : State :=
  let w := statusRead s
  { answer (.word w) s with host := if w.getLsbD 16 then .wait :: rest else rest }

/-- `CLRDONE` (R60). -/
def opsClrDone : List HostOp := [.access (.w32 0x008 0x00020000)]

/-- `SETLEN l` (R60). -/
def opsSetLen (l : Word) : List HostOp := [.access (.w32 0x010 l)]

/-- `SETFIELDS da, sa, fc, n` (R60). -/
def opsSetFields (da sa fc n : Byte) : List HostOp := [.access (.w32 0x00C (packWord n fc sa da))]

/-- `DO cmd` (R60): write the command word, then `WAIT`. -/
def opsDo (i : Instr) : List HostOp := [.access (.w32 0x004 (encode i)), .wait]

end Sys2Proof.Machine
end

