-- ==== Sys2Proof/Machine/Decoder.lean ====
section
/-! DEFINITION. The decoder and validator (44_decode.md R75 to R77). -/

namespace Sys2Proof.Machine

/-- What the decode function of R76 returns. -/
inductive DecodeResult where
  | malformed
  | framing
  | checksum (cv rv : Byte)
  | ok (v : Variant) (da sa fc : Byte) (n : Nat) (pair : Option (Byte × Byte))
deriving DecidableEq, Repr

/-- Steps 3 to 6 of R75 for a frame with an FCS and an end delimiter, its payload length known. -/
def decodeFramed (v : Variant) (n len : Nat) (m : Memory) : Except Fault DecodeResult :=
  if len ≠ edIndex v n + 1 then .ok .framing
  else do
    let ed ← bufRead m (edIndex v n)
    if ed ≠ edByte then .ok .framing
    else do
      let cv ← fcs m (fcsStart v) (fcsCount n)
      let rv ← bufRead m (fcsIndex v n)
      if cv ≠ rv then .ok (.checksum cv rv)
      else do
        let da ← bufRead m (fcsStart v)
        let sa ← bufRead m (fcsStart v + 1)
        let fc ← bufRead m (fcsStart v + 2)
        .ok (.ok v da sa fc n (some (cv, rv)))

/-- `decode(L)` (R76). -/
def decodeFrame (off len : Nat) (m : Memory) : Except Fault DecodeResult :=
  if len = 0 then .ok .malformed
  else do
    let b0 ← bufRead m 0
    match sdVariant b0 with
    | .none => .ok .malformed
    | .token =>
      if len ≠ 3 then .ok .malformed
      else do
        let da ← bufRead m 1
        let sa ← bufRead m 2
        .ok (.ok .token da sa 0 0 none)
    | .sc => if len ≠ 1 then .ok .malformed else .ok (.ok .sc 0 0 0 0 none)
    | .fix0 => decodeFramed .fix0 0 len m
    | .fix8 => decodeFramed .fix8 8 len m
    | .var =>
      if len < 3 then .ok .malformed
      else do
        let le ← bufRead m 1
        let ler ← bufRead m 2
        match varPayload off le ler with
        | none => .ok .malformed
        | some n => decodeFramed .var n len m

/-- The result registers and the completion of `DECODE` (R77). -/
def finishDecode (r : DecodeResult) (s : State) : State :=
  match r with
  | .ok v da sa fc n pair =>
    finish .ok v false
      (setFcsr (pair.elim 0 (·.1)) (pair.elim 0 (·.2))
        { s with res := packWord (BitVec.ofNat 8 n) fc sa da, flen := s.len })
  | .checksum cv rv => finish .eChecksum .none false (setFcsr cv rv { s with res := 0, flen := 0 })
  | .malformed => finish .eMalformed .none false (setFcsr 0 0 { s with res := 0, flen := 0 })
  | .framing => finish .eFraming .none false (setFcsr 0 0 { s with res := 0, flen := 0 })

/-- `DECODE` (R77). -/
def execDecode (s : State) : Result :=
  if s.len.toNat > 256 then .next (finish .eIllegal .none false s)
  else reading (decodeFrame (leOffsetOf s.cfg) s.len.toNat s.buf) fun r => .next (finishDecode r s)

end Sys2Proof.Machine
end

