-- ==== Sys2Proof/Machine/Encoders.lean ====
section
/-! DEFINITION. The five encoders (43_encode.md R69 to R74). -/

namespace Sys2Proof.Machine

/-- The failed check of R69 item 2: `E_MALFORMED`, nothing else written. -/
def rejectN (s : State) : Result := .next (finish .eMalformed .none false s)

/-- A frame with an FCS and an end delimiter, built in place (R69 items 3 and 4): the header bytes, then the FCS over
DA, SA, FC and the payload standing in `BUF`, then the FCS byte and ED. -/
def encodeFramed (v : Variant) (n : Nat) (header : List Byte) (s : State) : Result :=
  let s1 := bufWrites 0 header s
  reading (fcs s1.buf (fcsStart v) (fcsCount n)) fun x =>
    .next (finishEncoder v (explen v n) x (bufWrites (fcsIndex v n) [x, edByte] s1))

/-- `ENC.TOKEN` (R70). -/
def execEncToken (s : State) : Result :=
  if legalN .token (fieldsN s) then
    .next (finishEncoder .token (explen .token 0) 0 (bufWrites 0 [sdToken, fieldsDa s, fieldsSa s] s))
  else rejectN s

/-- `ENC.SC` (R71). -/
def execEncSc (s : State) : Result :=
  if legalN .sc (fieldsN s) then
    .next (finishEncoder .sc (explen .sc 0) 0 (bufWrites 0 [scByte] s))
  else rejectN s

/-- `ENC.FIX0` (R72). -/
def execEncFix0 (s : State) : Result :=
  if legalN .fix0 (fieldsN s) then
    encodeFramed .fix0 0 [sdFix0, fieldsDa s, fieldsSa s, fieldsFc s] s
  else rejectN s

/-- `ENC.FIX8` (R73). -/
def execEncFix8 (s : State) : Result :=
  if legalN .fix8 (fieldsN s) then
    encodeFramed .fix8 8 [sdFix8, fieldsDa s, fieldsSa s, fieldsFc s] s
  else rejectN s

/-- `ENC.VAR` (R74). -/
def execEncVar (s : State) : Result :=
  if legalN .var (fieldsN s) then
    let le := leByte (leOffsetOf s.cfg) (fieldsN s)
    encodeFramed .var (fieldsN s) [sdVar, le, le, fieldsDa s, fieldsSa s, fieldsFc s] s
  else rejectN s

end Sys2Proof.Machine
end

