-- ==== Sys2Proof/Machine/FcsUnit.lean ====
section
/-! DEFINITION. The FCS generator and validator commands (41_fcs.md R63, R64). -/

namespace Sys2Proof.Machine

/-- `FCS.GEN A, B` (R63). -/
def execFcsGen (a b : Nat) (s : State) : Result :=
  if a + b > 255 then .next (finish .eIllegal .none false s)
  else
    reading (fcs s.buf a b) fun v =>
      .next (finish .ok .none false (setFcsr v v (bufWrite (a + b) v s)))

/-- `FCS.CHK A, B` (R64). -/
def execFcsChk (a b : Nat) (s : State) : Result :=
  if a + b > 255 then .next (finish .eIllegal .none false s)
  else
    reading (fcs s.buf a b) fun v =>
      reading (bufRead s.buf (a + b)) fun r =>
        .next (finish (if v = r then .ok else .eChecksum) .none false (setFcsr v r s))

end Sys2Proof.Machine
end

