-- ==== Sys2Proof/Machine/Inspect.lean ====
section
/-! DEFINITION. Classification and frame measurement (42_classify.md R65 to R68). -/

namespace Sys2Proof.Machine

/-- `classify(L)` (R65). -/
def classifyFrame (len : Nat) (m : Memory) : Except Fault (Code × Variant) :=
  if len = 0 then .ok (.eMalformed, .none)
  else do
    let b0 ← bufRead m 0
    match sdVariant b0 with
    | .none => .ok (.eMalformed, .none)
    | .sc => if len = 1 then .ok (.ok, .sc) else .ok (.eMalformed, .none)
    | .token => .ok (.ok, .token)
    | .fix0 => .ok (.ok, .fix0)
    | .fix8 => .ok (.ok, .fix8)
    | .var => .ok (.ok, .var)

/-- `measure(L)` (R67): code, variant and frame length, 0 for "not known". -/
def measureFrame (off len : Nat) (m : Memory) : Except Fault (Code × Variant × Nat) :=
  if len = 0 then .ok (.ok, .none, 0)
  else do
    let b0 ← bufRead m 0
    match sdVariant b0 with
    | .none => .ok (.eMalformed, .none, 0)
    | .token => .ok (.ok, .token, explen .token 0)
    | .sc => .ok (.ok, .sc, explen .sc 0)
    | .fix0 => .ok (.ok, .fix0, explen .fix0 0)
    | .fix8 => .ok (.ok, .fix8, explen .fix8 8)
    | .var =>
      if len < 3 then .ok (.ok, .var, 0)
      else do
        let le ← bufRead m 1
        let ler ← bufRead m 2
        match varPayload off le ler with
        | none => .ok (.eMalformed, .none, 0)
        | some n => .ok (.ok, .var, explen .var n)

/-- `CLASSIFY` (R66). -/
def execClassify (s : State) : Result :=
  if s.len.toNat > 256 then .next (finish .eIllegal .none false s)
  else reading (classifyFrame s.len.toNat s.buf) fun r => .next (finish r.1 r.2 false s)

/-- `STATUS.CPL` after `MEASURE` (R68). -/
def measureCpl (c : Code) (fl len : Nat) : Bool := decide (c = .ok ∧ fl ≠ 0 ∧ len ≥ fl)

/-- `MEASURE` (R68). -/
def execMeasure (s : State) : Result :=
  if s.len.toNat > 256 then .next (finish .eIllegal .none false s)
  else
    reading (measureFrame (leOffsetOf s.cfg) s.len.toNat s.buf) fun r =>
      .next (finish r.1 r.2.1 (measureCpl r.1 r.2.2 s.len.toNat) { s with flen := BitVec.ofNat 9 r.2.2 })

end Sys2Proof.Machine
end

