-- ==== Sys2Proof/Machine/Dispatch.lean ====
section
/-! DEFINITION. One arm per command: the codec agent's execution of a decoded command (60_exceptions.md R80, R84). -/

namespace Sys2Proof.Machine

def exec (i : Instr) (s : State) : Host.Outcome State Fault Refusal :=
  match i with
  | .classify => Sys2Proof.Machine.execClassify s
  | .measure => Sys2Proof.Machine.execMeasure s
  | .decode => Sys2Proof.Machine.execDecode s
  | .encToken => Sys2Proof.Machine.execEncToken s
  | .encSc => Sys2Proof.Machine.execEncSc s
  | .encFix0 => Sys2Proof.Machine.execEncFix0 s
  | .encFix8 => Sys2Proof.Machine.execEncFix8 s
  | .encVar => Sys2Proof.Machine.execEncVar s
  | .fcsGen a b => Sys2Proof.Machine.execFcsGen a b s
  | .fcsChk a b => Sys2Proof.Machine.execFcsChk a b s

end Sys2Proof.Machine
end

