-- ==== Sys2Proof/Machine/Agents.lean ====
section
/-! DEFINITION. The turns of the two agents and of the reset pin: fetching the pending command word and running it
(60_exceptions.md R80, R84), the host's next statement (20_memory.md R37), and who moves when the schedule is empty
(70_reset_and_hazards.md R106). -/

namespace Sys2Proof.Machine

/-- The codec agent's step on a pending word: an illegal word completes with `E_ILLEGAL` and writes only `STATUS`
(R57, R84); a legal one runs its command. -/
def runWord (w : Word) (s : State) : Result :=
  match decodeWord w with
  | .instr i => exec i s
  | .illegal _ => .next (finish .eIllegal .none false s)

/-- The codec agent can step: a command is pending and the block is not held in reset (R80, R97). -/
def codecReady (s : State) : Bool := s.pend.isSome && s.rstN

/-- The codec agent's turn; nothing happens when it has nothing to do (log 22). -/
def codecTurn (s : State) : Result :=
  match s.pend with
  | some w => if s.rstN then runWord w s else .next s
  | none => .next s

/-- The host's turn: its next statement, in program order (R37); nothing happens when it has stopped (log 22). -/
def hostTurn (s : State) : Result :=
  match s.host with
  | [] => .next s
  | .access a :: rest => hostAccess a { s with host := rest }
  | .wait :: rest => .next (pollStatus s rest)

/-- One scheduled move. -/
def takeMove (m : Move) (s : State) : Result :=
  match m with
  | .host => hostTurn s
  | .codec => codecTurn s
  | .rst level => .next (driveRst level s)

/-- The move when the schedule is empty: the codec agent if it can step, else the host (weak fairness, R106; log 1). -/
def defaultMove (s : State) : Move := if codecReady s then .codec else .host

/-- Place a command word so that the next step is the codec agent's step on it: what an accepted `CMD` write leaves
(R80), with the codec agent's move next (log 13). -/
def placeCommand (w : Word) (s : State) : State :=
  { accept w s with rstN := true, sched := .codec :: s.sched }

end Sys2Proof.Machine
end

