-- ==== Sys2Proof/Machine/Step.lean ====
section
/-! DEFINITION. One step: the next move of the schedule, or the default move (93 U8, 70_reset_and_hazards.md R106). -/

namespace Sys2Proof.Machine

/-- One step of the machine: one host access, one whole command, or one change of the reset pin. -/
def step (s : State) : Host.Outcome State Fault Refusal :=
  match s.sched with
  | m :: ms => takeMove m { s with sched := ms }
  | [] => takeMove (defaultMove s) s

/-- `s` with the command word `w` as the accepted pending command and the codec agent to move next (log 13). -/
def State.withFetchWord (s : State) (nbits w : Nat) : State := placeCommand (BitVec.ofNat 32 (w % 2 ^ nbits)) s

end Sys2Proof.Machine
end

