-- ==== Sys2Proof/Safety.lean ====
section
/-! DEFINITION. The terms claims are made in: what moves next, bytes standing in `BUF`, the arithmetic sum of bytes,
completion that changes `STATUS` alone, the invariant of the machine, and the end of a run. -/

namespace Sys2Proof.Machine

/-- The move the next step makes. -/
def nextMove (s : State) : Move :=
  match s.sched with
  | m :: _ => m
  | [] => defaultMove s

/-- The state with that move taken off the schedule. -/
def movedOn (s : State) : State := { s with sched := s.sched.tail }

/-- The host access the next step performs, if it performs one. -/
def nextAccess (s : State) : Option Access :=
  match nextMove s, s.host with
  | .host, .access a :: _ => some a
  | _, _ => none

/-- The legal command the next step executes, if it executes one. -/
def nextCommand (s : State) : Option Instr :=
  match nextMove s, s.pend with
  | .codec, some w =>
    match decodeWord w with
    | .instr i => if s.rstN then some i else none
    | .illegal _ => none
  | _, _ => none

/-- The bytes `bs` stand in `BUF` from index `lo` on, every one of them defined. -/
def Holds (m : Memory) (lo : Nat) (bs : List Byte) : Prop :=
  ∀ (k : Nat) (b : Byte), bs[k]? = some b → bufRead m (lo + k) = .ok b

/-- The arithmetic sum of the bytes, modulo 256 (R61). -/
def sumMod256 (bs : List Byte) : Byte := BitVec.ofNat 8 (bs.map BitVec.toNat).sum

/-- `s` after a completion that changes nothing but `STATUS` and `PEND` (R82). -/
def onlyStatus (c : Code) (v : Variant) (cpl : Bool) (s : State) : State :=
  { s with code := c, variant := v, cpl := cpl, busy := false, done := true, pend := none }

/-- The result codes PBFC produces (R58, R92; 93 U11). -/
def producedCode : Code → Bool
  | .ok | .eMalformed | .eChecksum | .eFraming | .eIllegal => true
  | .eBusy | .eTimeout | .eHwInit => false

/-- What every state of a run satisfies. -/
structure State.Inv (s : State) : Prop where
  /-- `BUF` is in canonical form: indices strictly rising and below 256 (R21). -/
  bufWf : s.buf.wf = true
  /-- `BUSY` is 1 exactly while `PEND` holds a command word (R15, R23). -/
  busyIffPending : s.busy = s.pend.isSome
  /-- `DONE` is 0 while a command is pending (R80, R90). -/
  doneNotBusy : s.busy = true → s.done = false
  /-- `CODE` is one of the produced codes (R58, R92). -/
  codeProduced : producedCode s.code = true
  /-- `VARIANT` is `NONE` whenever `CODE` is not `OK` (R82). -/
  variantOnlyOnOk : s.variant ≠ .none → s.code = .ok
  /-- `CPL` is 1 only after a `MEASURE` that found a complete frame (R15, R68). -/
  cplOnlyOnFrame : s.cpl = true → s.code = .ok ∧ s.variant ≠ .none ∧ s.flen ≠ 0
  /-- `FLEN.FL` is 0 to 254 (R20). -/
  flenBound : s.flen.toNat ≤ 254
  /-- While `RST_N` is 0 every register and every byte of `BUF` is as after a hard reset (R97). -/
  heldInReset : s.rstN = false → hardReset s = s

/-- The run has ended: the host has stopped issuing accesses and `BUSY` is 0 (R107); that no fault is recorded is that
there is a state at all (log 8). -/
def State.ended (s : State) : Prop := s.host = [] ∧ s.busy = false

/-- `k` steps from `s` raise no model fault. -/
def runsSafely (k : Nat) (s : State) : Prop := ∃ t, Host.Core.run Sys2Proof.core k s = .next t

end Sys2Proof.Machine
end

