-- ==== Sys2Proof/Certificates/Slice0/Obligations.lean ====
section
/-! DEFINITION. The statements about PBFC, from the numbered rules of spec/. -/

open Sys2Proof Sys2Proof.Machine

/-! ### The command word (30_encoding.md) -/

/-- R55, R56, 98_reader.md: the word written out from the table for each family decodes to the command it stands for. -/
def Obligations.SampleWordsDecode : Prop :=
  decodeWord 0x00000001 = .instr .classify ∧ decodeWord 0x00000002 = .instr .measure ∧
  decodeWord 0x00000003 = .instr .decode ∧ decodeWord 0x00000013 = .instr .encFix8 ∧
  decodeWord 0x000B0120 = .instr (.fcsGen 1 11) ∧ decodeWord 0x00000521 = .instr (.fcsChk 5 0)

/-- R55: a well-formed command's word decodes to it, and a word that decodes to a command is that command's word. -/
def Obligations.DecodeInvertsEncode : Prop :=
  (∀ i : Instr, i.wellFormed = true → decodeWord (encode i) = .instr i) ∧
  (∀ (w : Word) (i : Instr), decodeWord w = .instr i → i.wellFormed = true ∧ encode i = w)

/-- R56: a word selects the row whose match it meets under its mask, at most one row matches any word (the sentence R56
marks as derived from the `OPC` values being distinct), and the decoder
reads exactly the selected row's command, with A in bits 15:8 and B in bits 23:16 of a format-R word. -/
def Obligations.OpcodeMapSelectsOneRow : Prop :=
  (∀ (w : Word) (r1 r2 : OpcodeRow), r1 ∈ opcodeMap → r2 ∈ opcodeMap →
    r1.selects w = true → r2.selects w = true → r1 = r2) ∧
  (∀ (w : Word) (r : OpcodeRow), r ∈ opcodeMap → r.selects w = true →
    ∃ i : Instr, decodeWord w = .instr i ∧ mnemonicOf i = r.mnemonic ∧
      ∀ a b : Nat, i = .fcsGen a b ∨ i = .fcsChk a b →
        a = (w.extractLsb' 8 8).toNat ∧ b = (w.extractLsb' 16 8).toNat) ∧
  (∀ (w : Word) (i : Instr), decodeWord w = .instr i →
    ∃ r ∈ opcodeMap, r.selects w = true ∧ r.mnemonic = mnemonicOf i)

/-- R57: a word that matches no row is illegal: an unlisted `OPC`, a format-N word with a non-zero bit in 31:8, a
format-R word with a non-zero bit in 31:24; the codec agent completes it with `E_ILLEGAL` and changes nothing else. -/
def Obligations.IllegalWordsComplete : Prop :=
  ∀ w : Word,
    ((∃ why, decodeWord w = .illegal why) ↔ ∀ r ∈ opcodeMap, r.selects w = false) ∧
    (decodeWord w = .illegal .unassignedOpc ↔
      w.extractLsb' 0 8 ∉ [0x01#8, 0x02#8, 0x03#8, 0x10#8, 0x11#8, 0x12#8, 0x13#8, 0x14#8, 0x20#8, 0x21#8]) ∧
    (w.extractLsb' 0 8 ∈ [0x01#8, 0x02#8, 0x03#8, 0x10#8, 0x11#8, 0x12#8, 0x13#8, 0x14#8] →
      w.extractLsb' 8 24 ≠ 0#24 → decodeWord w = .illegal .formatNBits) ∧
    (w.extractLsb' 0 8 ∈ [0x20#8, 0x21#8] → w.extractLsb' 24 8 ≠ 0#8 → decodeWord w = .illegal .formatRBits) ∧
    (∀ s : State, (∀ r ∈ opcodeMap, r.selects w = false) →
      s.pend = some w → s.rstN = true → nextMove s = .codec →
      step s = .next (onlyStatus .eIllegal .none false (movedOn s)))

/-- R59: what the assembler gives for a mnemonic and its operands is the word of the command of that mnemonic with
those operands, and it refuses an operand above 255. -/
def Obligations.AssembledWordsDecode : Prop :=
  (∀ (mn : Mnemonic) (ops : List Nat) (w : Word), assemble mn ops = some w →
    ∃ i : Instr, decodeWord w = .instr i ∧ mnemonicOf i = mn ∧
      (mn = .FCS_GEN → ∃ a b, ops = [a, b] ∧ i = .fcsGen a b) ∧
      (mn = .FCS_CHK → ∃ a b, ops = [a, b] ∧ i = .fcsChk a b)) ∧
  (∀ a b : Nat, 255 < a ∨ 255 < b → assemble .FCS_GEN [a, b] = none ∧ assemble .FCS_CHK [a, b] = none) ∧
  assemble .FCS_GEN [1, 11] = some 0x000B0120

/-! ### Telegram geometry (30_encoding.md R51 to R54) -/

/-- R51: encoding a payload of n bytes writes LE = n + `LE_OFFSET`; decoding reads n = LE - `LE_OFFSET`, legal exactly
when LE = LEr and n is 1 to 246; `LE_OFFSET` is 0 or 3. -/
def Obligations.LengthByteCountsPayload : Prop :=
  ∀ p : Params,
    (leOffsetOf p = 0 ∨ leOffsetOf p = 3) ∧
    (∀ n : Nat, 1 ≤ n → n ≤ 246 →
      (leByte (leOffsetOf p) n).toNat = n + leOffsetOf p ∧
      varPayload (leOffsetOf p) (leByte (leOffsetOf p) n) (leByte (leOffsetOf p) n) = some n) ∧
    (∀ (le ler : Byte) (n : Nat), varPayload (leOffsetOf p) le ler = some n ↔
      le = ler ∧ le.toNat = n + leOffsetOf p ∧ 1 ≤ n ∧ n ≤ 246)

/-- R52, R54: the frame lengths, and where the payload, the FCS byte and the end delimiter of each FCS-bearing variant
stand. -/
def Obligations.FrameGeometry : Prop :=
  (∀ n, explen .token n = 3 ∧ explen .sc n = 1 ∧ explen .fix0 n = 6 ∧ explen .fix8 n = 14 ∧ explen .var n = n + 8) ∧
  (fcsIndex .fix0 0 = 4 ∧ edIndex .fix0 0 = 5) ∧ (fcsIndex .fix8 8 = 12 ∧ edIndex .fix8 8 = 13) ∧
  (∀ n, fcsIndex .var n = n + 6 ∧ edIndex .var n = n + 7) ∧
  (∀ (v : Variant) (n : Nat), legalN v n = true → v ≠ .token → v ≠ .sc →
    payloadOffset v = fcsStart v + 3 ∧ fcsIndex v n = payloadOffset v + n ∧
    fcsIndex v n = fcsStart v + fcsCount n ∧ edIndex v n = fcsIndex v n + 1 ∧ edIndex v n + 1 = explen v n) ∧
  (∀ (v : Variant) (n : Nat), legalN v n = true → explen v n ≤ 254)

/-! ### The FCS function (41_fcs.md R61, R62) -/

/-- R61: over defined bytes `fcs` is their arithmetic sum modulo 256; the first undefined byte in ascending order is the
fault; and the covered range of each telegram with an FCS begins at DA and ends with the payload. -/
def Obligations.FcsIsSumMod256 : Prop :=
  (∀ (m : Memory) (s : Nat) (bs : List Byte), Holds m s bs → fcs m s bs.length = .ok (sumMod256 bs)) ∧
  (∀ (m : Memory) (s n : Nat) (bs : List Byte), Holds m s bs → bs.length < n →
    m.byte? (s + bs.length) = none → fcs m s n = .error (.undefinedBufRead (s + bs.length))) ∧
  (fcsStart .fix0 = 1 ∧ fcsCount 0 = 3) ∧ (fcsStart .fix8 = 1 ∧ fcsCount 8 = 11) ∧
  (fcsStart .var = 3 ∧ ∀ n, fcsCount n = n + 3)

/-- R62, the five laws, which it marks as derived from R61: width and wrap; order independence; independence from uncovered bytes; a single changed byte
changes the FCS by the difference; balanced changes, a swap and an inserted 0x00 go unseen. -/
def Obligations.FcsLaws : Prop :=
  (∀ (m : Memory) (s : Nat) (bs : List Byte), Holds m s bs →
    ∃ v, fcs m s bs.length = .ok v ∧ v.toNat = (bs.map BitVec.toNat).sum % 256) ∧
  (∀ (m m' : Memory) (s s' : Nat) (bs bs' : List Byte), Holds m s bs → Holds m' s' bs' → bs.Perm bs' →
    fcs m s bs.length = fcs m' s' bs'.length) ∧
  (∀ (m : Memory) (s n i : Nat) (v : Byte), i < s ∨ s + n ≤ i → fcs (m.write i v) s n = fcs m s n) ∧
  (∀ (m : Memory) (s : Nat) (xs ys : List Byte) (b b' : Byte), Holds m s (xs ++ b :: ys) → b' ≠ b →
    ∃ v v', fcs m s (xs ++ b :: ys).length = .ok v ∧
      fcs (m.write (s + xs.length) b') s (xs ++ b :: ys).length = .ok v' ∧ v' = v + (b' - b) ∧ v' ≠ v) ∧
  (∀ (m m' : Memory) (s s' : Nat) (xs ys zs : List Byte) (b c d : Byte),
    Holds m s (xs ++ b :: (ys ++ c :: zs)) →
    (Holds m' s' (xs ++ (b + d) :: (ys ++ (c - d) :: zs)) ∨ Holds m' s' (xs ++ c :: (ys ++ b :: zs)) →
      fcs m' s' (xs ++ b :: (ys ++ c :: zs)).length = fcs m s (xs ++ b :: (ys ++ c :: zs)).length) ∧
    (b = 0 → Holds m' s' (xs ++ (ys ++ c :: zs)) →
      fcs m' s' (xs ++ (ys ++ c :: zs)).length = fcs m s (xs ++ b :: (ys ++ c :: zs)).length))

/-! ### The commands: completion and result -/

/-- R63: `FCS.GEN A, B`: its word, its `E_ILLEGAL`, its result with everything it leaves unchanged, its fault. -/
def Obligations.FcsGenStoresSum : Prop :=
  (∀ a b : Nat, a < 256 → b < 256 → encode (.fcsGen a b) = BitVec.ofNat 32 (0x20 + 256 * a + 65536 * b)) ∧
  ∀ (a b : Nat) (s : State),
    (a + b > 255 → exec (.fcsGen a b) s = .next (onlyStatus .eIllegal .none false s)) ∧
    (∀ bs : List Byte, a + b ≤ 255 → bs.length = b → Holds s.buf a bs →
      ∃ t, exec (.fcsGen a b) s = .next t ∧ bufRead t.buf (a + b) = .ok (sumMod256 bs) ∧
        (∀ i, i ≠ a + b → bufRead t.buf i = bufRead s.buf i) ∧
        t = { onlyStatus .ok .none false s with
              buf := t.buf, fcsCalc := sumMod256 bs, fcsRecv := sumMod256 bs }) ∧
    (∀ bs : List Byte, a + b ≤ 255 → bs.length < b → Holds s.buf a bs → s.buf.byte? (a + bs.length) = none →
      exec (.fcsGen a b) s = .fault (.undefinedBufRead (a + bs.length)))

/-- R64: `FCS.CHK A, B`: its word, its `E_ILLEGAL`, its result with everything it leaves unchanged, its faults. -/
def Obligations.FcsChkComparesSum : Prop :=
  (∀ a b : Nat, a < 256 → b < 256 → encode (.fcsChk a b) = BitVec.ofNat 32 (0x21 + 256 * a + 65536 * b)) ∧
  ∀ (a b : Nat) (s : State),
    (a + b > 255 → exec (.fcsChk a b) s = .next (onlyStatus .eIllegal .none false s)) ∧
    (∀ (bs : List Byte) (r : Byte), a + b ≤ 255 → bs.length = b → Holds s.buf a (bs ++ [r]) →
      exec (.fcsChk a b) s =
        .next { onlyStatus (if sumMod256 bs = r then .ok else .eChecksum) .none false s with
                fcsCalc := sumMod256 bs, fcsRecv := r }) ∧
    (∀ bs : List Byte, a + b ≤ 255 → bs.length ≤ b → Holds s.buf a bs → s.buf.byte? (a + bs.length) = none →
      exec (.fcsChk a b) s = .fault (.undefinedBufRead (a + bs.length)))

/-- `FCS.CHK` of the range of an `FCS.GEN` that gave `OK` gives `OK` while `BUF` is as `FCS.GEN` left it: the sentence of
41_fcs.md that R64 marks as derived from R63 and R64. -/
def Obligations.FcsChkAcceptsWhatFcsGenWrote : Prop :=
  ∀ (a b : Nat) (s t u : State), exec (.fcsGen a b) s = .next t → t.code = .ok → u.buf = t.buf →
    ∃ x, exec (.fcsChk a b) u = .next x ∧ x.code = .ok ∧ x.fcsCalc = t.fcsCalc ∧ x.fcsRecv = t.fcsRecv

/-- R65, R66: `CLASSIFY` by L and byte 0; nothing but `STATUS` changes. -/
def Obligations.ClassifyReadsFirstByte : Prop :=
  encode .classify = 0x00000001 ∧
  ∀ s : State,
    (256 < s.len.toNat → exec .classify s = .next (onlyStatus .eIllegal .none false s)) ∧
    (s.len.toNat = 0 → exec .classify s = .next (onlyStatus .eMalformed .none false s)) ∧
    (∀ b0 : Byte, 1 ≤ s.len.toNat → s.len.toNat ≤ 256 → bufRead s.buf 0 = .ok b0 →
      exec .classify s = .next
        (if b0 = 0x10 then onlyStatus .ok .token false s
         else if b0 = 0xE5 then
           if s.len.toNat = 1 then onlyStatus .ok .sc false s else onlyStatus .eMalformed .none false s
         else if b0 = 0xDC then onlyStatus .ok .fix0 false s
         else if b0 = 0xA2 then onlyStatus .ok .fix8 false s
         else if b0 = 0x68 then onlyStatus .ok .var false s
         else onlyStatus .eMalformed .none false s)) ∧
    (1 ≤ s.len.toNat → s.len.toNat ≤ 256 → s.buf.byte? 0 = none →
      exec .classify s = .fault (.undefinedBufRead 0))

/-- R67, R68: `MEASURE` by L and the first three bytes: `FLEN`, `CPL`, and nothing else beside `STATUS`. -/
def Obligations.MeasureFindsFrameLength : Prop :=
  encode .measure = 0x00000002 ∧
  ∀ s : State,
    let known (v : Variant) (fl : Nat) : State :=
      { onlyStatus .ok v (decide (fl ≠ 0 ∧ fl ≤ s.len.toNat)) s with flen := BitVec.ofNat 9 fl }
    let bad : State := { onlyStatus .eMalformed .none false s with flen := 0 }
    (256 < s.len.toNat → exec .measure s = .next (onlyStatus .eIllegal .none false s)) ∧
    (s.len.toNat = 0 → exec .measure s = .next (known .none 0)) ∧
    (∀ b0 : Byte, 1 ≤ s.len.toNat → s.len.toNat ≤ 256 → bufRead s.buf 0 = .ok b0 → b0 ≠ 0x68 →
      exec .measure s = .next
        (if b0 = 0x10 then known .token 3 else if b0 = 0xE5 then known .sc 1
         else if b0 = 0xDC then known .fix0 6 else if b0 = 0xA2 then known .fix8 14 else bad)) ∧
    (1 ≤ s.len.toNat → s.len.toNat < 3 → bufRead s.buf 0 = .ok 0x68 → exec .measure s = .next (known .var 0)) ∧
    (∀ le ler : Byte, 3 ≤ s.len.toNat → s.len.toNat ≤ 256 → Holds s.buf 0 [0x68, le, ler] →
      (le ≠ ler → exec .measure s = .next bad) ∧
      (∀ n : Int, le = ler → n = (le.toNat : Int) - (leOffsetOf s.cfg : Int) →
        (n < 1 ∨ n > 246 → exec .measure s = .next bad) ∧
        (1 ≤ n → n ≤ 246 → exec .measure s = .next (known .var (n.toNat + 8))))) ∧
    (1 ≤ s.len.toNat → s.len.toNat ≤ 256 → s.buf.byte? 0 = none →
      exec .measure s = .fault (.undefinedBufRead 0)) ∧
    (3 ≤ s.len.toNat → s.len.toNat ≤ 256 → bufRead s.buf 0 = .ok 0x68 → s.buf.byte? 1 = none →
      exec .measure s = .fault (.undefinedBufRead 1)) ∧
    (∀ le : Byte, 3 ≤ s.len.toNat → s.len.toNat ≤ 256 → Holds s.buf 0 [0x68, le] → s.buf.byte? 2 = none →
      exec .measure s = .fault (.undefinedBufRead 2))

/-- R70: `ENC.TOKEN`. -/
def Obligations.EncTokenBuildsToken : Prop :=
  encode .encToken = 0x00000010 ∧
  ∀ s : State,
    (byteAt s.fields 3 ≠ 0 → exec .encToken s = .next (onlyStatus .eMalformed .none false s)) ∧
    (byteAt s.fields 3 = 0 →
      ∃ t, exec .encToken s = .next t ∧ Holds t.buf 0 [0x10, byteAt s.fields 0, byteAt s.fields 1] ∧
        (∀ i, 3 ≤ i → bufRead t.buf i = bufRead s.buf i) ∧
        t = { onlyStatus .ok .token false s with buf := t.buf, len := 3, flen := 3, fcsCalc := 0, fcsRecv := 0 })

/-- R71: `ENC.SC`. -/
def Obligations.EncScBuildsShortAck : Prop :=
  encode .encSc = 0x00000011 ∧
  ∀ s : State,
    (byteAt s.fields 3 ≠ 0 → exec .encSc s = .next (onlyStatus .eMalformed .none false s)) ∧
    (byteAt s.fields 3 = 0 →
      ∃ t, exec .encSc s = .next t ∧ Holds t.buf 0 [0xE5] ∧
        (∀ i, 1 ≤ i → bufRead t.buf i = bufRead s.buf i) ∧
        t = { onlyStatus .ok .sc false s with buf := t.buf, len := 1, flen := 1, fcsCalc := 0, fcsRecv := 0 })

/-- R72: `ENC.FIX0`. -/
def Obligations.EncFix0BuildsFrame : Prop :=
  encode .encFix0 = 0x00000012 ∧
  ∀ s : State,
    let da := byteAt s.fields 0
    let sa := byteAt s.fields 1
    let fc := byteAt s.fields 2
    let x := sumMod256 [da, sa, fc]
    (byteAt s.fields 3 ≠ 0 → exec .encFix0 s = .next (onlyStatus .eMalformed .none false s)) ∧
    (byteAt s.fields 3 = 0 →
      ∃ t, exec .encFix0 s = .next t ∧ Holds t.buf 0 [0xDC, da, sa, fc, x, 0x16] ∧
        (∀ i, 6 ≤ i → bufRead t.buf i = bufRead s.buf i) ∧
        t = { onlyStatus .ok .fix0 false s with buf := t.buf, len := 6, flen := 6, fcsCalc := x, fcsRecv := x })

/-- R73: `ENC.FIX8`. -/
def Obligations.EncFix8BuildsFrame : Prop :=
  encode .encFix8 = 0x00000013 ∧
  ∀ s : State,
    let da := byteAt s.fields 0
    let sa := byteAt s.fields 1
    let fc := byteAt s.fields 2
    (byteAt s.fields 3 ≠ 8 → exec .encFix8 s = .next (onlyStatus .eMalformed .none false s)) ∧
    (∀ du : List Byte, byteAt s.fields 3 = 8 → du.length = 8 → Holds s.buf 4 du →
      let x := sumMod256 ([da, sa, fc] ++ du)
      ∃ t, exec .encFix8 s = .next t ∧ Holds t.buf 0 ([0xA2, da, sa, fc] ++ du ++ [x, 0x16]) ∧
        (∀ i, 14 ≤ i → bufRead t.buf i = bufRead s.buf i) ∧
        t = { onlyStatus .ok .fix8 false s with buf := t.buf, len := 14, flen := 14, fcsCalc := x, fcsRecv := x }) ∧
    (∀ du : List Byte, byteAt s.fields 3 = 8 → du.length < 8 → Holds s.buf 4 du → s.buf.byte? (4 + du.length) = none →
      exec .encFix8 s = .fault (.undefinedBufRead (4 + du.length)))

/-- R74: `ENC.VAR`, for both values of `LE_OFFSET`. -/
def Obligations.EncVarBuildsFrame : Prop :=
  encode .encVar = 0x00000014 ∧
  ∀ s : State,
    let da := byteAt s.fields 0
    let sa := byteAt s.fields 1
    let fc := byteAt s.fields 2
    let n := (byteAt s.fields 3).toNat
    let le : Byte := BitVec.ofNat 8 (n + leOffsetOf s.cfg)
    (n < 1 ∨ 246 < n → exec .encVar s = .next (onlyStatus .eMalformed .none false s)) ∧
    (∀ du : List Byte, 1 ≤ n → n ≤ 246 → du.length = n → Holds s.buf 6 du →
      let x := sumMod256 ([da, sa, fc] ++ du)
      ∃ t, exec .encVar s = .next t ∧ Holds t.buf 0 ([0x68, le, le, da, sa, fc] ++ du ++ [x, 0x16]) ∧
        (∀ i, n + 8 ≤ i → bufRead t.buf i = bufRead s.buf i) ∧
        t = { onlyStatus .ok .var false s with
              buf := t.buf, len := BitVec.ofNat 9 (n + 8), flen := BitVec.ofNat 9 (n + 8),
              fcsCalc := x, fcsRecv := x }) ∧
    (∀ du : List Byte, 1 ≤ n → n ≤ 246 → du.length < n → Holds s.buf 6 du → s.buf.byte? (6 + du.length) = none →
      exec .encVar s = .fault (.undefinedBufRead (6 + du.length)))

/-- R76: `DECODE` accepts each telegram of R46 to R50 whose FCS is right and reports its fields. -/
def Obligations.DecodeAcceptsTelegrams : Prop :=
  encode .decode = 0x00000003 ∧
  ∀ (s : State) (da sa fc : Byte),
    (s.len.toNat = 3 → Holds s.buf 0 [0x10, da, sa] →
      exec .decode s = .next { onlyStatus .ok .token false s with
        res := packWord 0 0 sa da, flen := 3, fcsCalc := 0, fcsRecv := 0 }) ∧
    (s.len.toNat = 1 → Holds s.buf 0 [0xE5] →
      exec .decode s = .next { onlyStatus .ok .sc false s with res := 0, flen := 1, fcsCalc := 0, fcsRecv := 0 }) ∧
    (∀ x : Byte, s.len.toNat = 6 → x = sumMod256 [da, sa, fc] → Holds s.buf 0 [0xDC, da, sa, fc, x, 0x16] →
      exec .decode s = .next { onlyStatus .ok .fix0 false s with
        res := packWord 0 fc sa da, flen := 6, fcsCalc := x, fcsRecv := x }) ∧
    (∀ (du : List Byte) (x : Byte), s.len.toNat = 14 → du.length = 8 → x = sumMod256 ([da, sa, fc] ++ du) →
      Holds s.buf 0 ([0xA2, da, sa, fc] ++ du ++ [x, 0x16]) →
      exec .decode s = .next { onlyStatus .ok .fix8 false s with
        res := packWord 8 fc sa da, flen := 14, fcsCalc := x, fcsRecv := x }) ∧
    (∀ (du : List Byte) (le x : Byte), 1 ≤ du.length → du.length ≤ 246 → le.toNat = du.length + leOffsetOf s.cfg →
      s.len.toNat = du.length + 8 → x = sumMod256 ([da, sa, fc] ++ du) →
      Holds s.buf 0 ([0x68, le, le, da, sa, fc] ++ du ++ [x, 0x16]) →
      exec .decode s = .next { onlyStatus .ok .var false s with
        res := packWord (BitVec.ofNat 8 du.length) fc sa da, flen := s.len, fcsCalc := x, fcsRecv := x })

/-- R75: the checks in their order, each clause giving the bytes reached up to the failing check and no others, so that
nothing later is examined; with what R77 leaves in the registers, and nothing but `STATUS` changed on `E_ILLEGAL`: R77 and
R84, which the model follows against the sentence of R79 (log 23). -/
def Obligations.DecodeReportsFirstFailure : Prop :=
  ∀ s : State,
    let rejected (c : Code) (x r : Byte) : State :=
      { onlyStatus c .none false s with res := 0, flen := 0, fcsCalc := x, fcsRecv := r }
    -- step 0
    (256 < s.len.toNat → exec .decode s = .next (onlyStatus .eIllegal .none false s)) ∧
    -- step 1
    (s.len.toNat = 0 → exec .decode s = .next (rejected .eMalformed 0 0)) ∧
    (∀ b0 : Byte, 1 ≤ s.len.toNat → s.len.toNat ≤ 256 → bufRead s.buf 0 = .ok b0 →
      b0 ∉ [0x10#8, 0xE5#8, 0xDC#8, 0xA2#8, 0x68#8] → exec .decode s = .next (rejected .eMalformed 0 0)) ∧
    -- step 2
    (1 ≤ s.len.toNat → s.len.toNat ≤ 256 → s.len.toNat ≠ 3 → bufRead s.buf 0 = .ok 0x10 →
      exec .decode s = .next (rejected .eMalformed 0 0)) ∧
    (1 < s.len.toNat → s.len.toNat ≤ 256 → bufRead s.buf 0 = .ok 0xE5 →
      exec .decode s = .next (rejected .eMalformed 0 0)) ∧
    (1 ≤ s.len.toNat → s.len.toNat < 3 → bufRead s.buf 0 = .ok 0x68 →
      exec .decode s = .next (rejected .eMalformed 0 0)) ∧
    (∀ le ler : Byte, 3 ≤ s.len.toNat → s.len.toNat ≤ 256 → Holds s.buf 0 [0x68, le, ler] →
      le ≠ ler ∨ le.toNat < leOffsetOf s.cfg + 1 ∨ leOffsetOf s.cfg + 246 < le.toNat →
      exec .decode s = .next (rejected .eMalformed 0 0)) ∧
    -- steps 3 to 5, for each variant with an FCS: its bytes up to LEr, its payload length, the bytes covered
    (∀ (v : Variant) (head : List Byte) (n : Nat), 1 ≤ s.len.toNat → s.len.toNat ≤ 256 → Holds s.buf 0 head →
      (v = .fix0 ∧ head = [0xDC] ∧ n = 0) ∨ (v = .fix8 ∧ head = [0xA2] ∧ n = 8) ∨
        (v = .var ∧ 3 ≤ s.len.toNat ∧ 1 ≤ n ∧ n ≤ 246 ∧
          ∃ le : Byte, head = [0x68, le, le] ∧ le.toNat = n + leOffsetOf s.cfg) →
      (s.len.toNat ≠ explen v n → exec .decode s = .next (rejected .eFraming 0 0)) ∧
      (∀ ed : Byte, s.len.toNat = explen v n → bufRead s.buf (explen v n - 1) = .ok ed → ed ≠ 0x16 →
        exec .decode s = .next (rejected .eFraming 0 0)) ∧
      (∀ (body : List Byte) (r : Byte), s.len.toNat = explen v n → body.length = n + 3 →
        Holds s.buf head.length (body ++ [r, 0x16]) → sumMod256 body ≠ r →
        exec .decode s = .next (rejected .eChecksum (sumMod256 body) r)))

/-- R76, R85: `DECODE` faults on the first undefined byte its reads reach, for each read of R76 in its order; and a fault
of it is a read of an undefined byte below L. -/
def Obligations.DecodeFaultsOnUndefinedByte : Prop :=
  ∀ s : State,
    -- byte 0
    (1 ≤ s.len.toNat → s.len.toNat ≤ 256 → s.buf.byte? 0 = none → exec .decode s = .fault (.undefinedBufRead 0)) ∧
    -- DA and SA of a token, LE and LEr of a variable-length frame: bytes 1 and 2
    (∀ bs : List Byte, bs.length < 2 → Holds s.buf 1 bs → s.buf.byte? (1 + bs.length) = none →
      (s.len.toNat = 3 ∧ bufRead s.buf 0 = .ok 0x10) ∨
        (3 ≤ s.len.toNat ∧ s.len.toNat ≤ 256 ∧ bufRead s.buf 0 = .ok 0x68) →
      exec .decode s = .fault (.undefinedBufRead (1 + bs.length))) ∧
    -- each variant with an FCS, its frame length right: its bytes up to LEr, its payload length
    (∀ (v : Variant) (head : List Byte) (n : Nat), s.len.toNat = explen v n → Holds s.buf 0 head →
      (v = .fix0 ∧ head = [0xDC] ∧ n = 0) ∨ (v = .fix8 ∧ head = [0xA2] ∧ n = 8) ∨
        (v = .var ∧ 1 ≤ n ∧ n ≤ 246 ∧ ∃ le : Byte, head = [0x68, le, le] ∧ le.toNat = n + leOffsetOf s.cfg) →
      -- the end delimiter
      (s.buf.byte? (edIndex v n) = none → exec .decode s = .fault (.undefinedBufRead (edIndex v n))) ∧
      -- then the covered bytes, and after all n + 3 of them the FCS byte
      (∀ body : List Byte, bufRead s.buf (edIndex v n) = .ok 0x16 → body.length ≤ n + 3 →
        Holds s.buf head.length body → s.buf.byte? (head.length + body.length) = none →
        exec .decode s = .fault (.undefinedBufRead (head.length + body.length)))) ∧
    (∀ f : Fault, exec .decode s = .fault f →
      ∃ i, f = .undefinedBufRead i ∧ i < s.len.toNat ∧ s.buf.byte? i = none)

/-! ### What the commands leave unchanged -/

/-- R16, R82, R88, R89 and every command's rule: a completion, of an illegal word too, leaves `CTRL.IE`, `FIELDS`, `OVR`,
the pin, the parameter and the host's side as they were; `BUSY` = 0, `DONE` = 1, `PEND` is empty, `VARIANT` = `NONE` on an
error, `CPL` = 0 but for `MEASURE`, and `CODE` is a produced code. -/
def Obligations.CompletionFrameAndFlags : Prop :=
  ∀ (w : Word) (s t : State), runWord w s = .next t →
    (t.ie = s.ie ∧ t.fields = s.fields ∧ t.ovr = s.ovr ∧ t.rstN = s.rstN ∧ t.cfg = s.cfg ∧ t.host = s.host ∧
      t.sched = s.sched ∧ t.rdata = s.rdata ∧ t.draws = s.draws) ∧
    (t.busy = false ∧ t.done = true ∧ t.pend = none) ∧
    (t.code ≠ .ok → t.variant = .none) ∧ (decodeWord w ≠ .instr .measure → t.cpl = false) ∧
    producedCode t.code = true

/-- R64, R66, R68, R77, R79: `CLASSIFY`, `MEASURE`, `DECODE` and `FCS.CHK` store nothing: every byte of `BUF` reads as
before; `LEN` is kept; `RES` only `DECODE` writes, `FLEN` only `MEASURE` and `DECODE`, `FCSR` only `DECODE` and
`FCS.CHK`. -/
def Obligations.ReadOnlyCommandsFrame : Prop :=
  ∀ (i : Instr) (s t : State), exec i s = .next t →
    i = .classify ∨ i = .measure ∨ i = .decode ∨ (∃ a b, i = .fcsChk a b) →
    (∀ j, bufRead t.buf j = bufRead s.buf j) ∧ t.len = s.len ∧
    (i ≠ .decode → t.res = s.res) ∧
    (i ≠ .measure → i ≠ .decode → t.flen = s.flen) ∧
    (i = .classify ∨ i = .measure → t.fcsCalc = s.fcsCalc ∧ t.fcsRecv = s.fcsRecv)

/-- R63, R69: `FCS.GEN` stores only `BUF[A+B]`, and nothing on an error; the encoders store only the header before the
payload, the FCS byte and the end delimiter, and nothing on an error; `RES` is never written, and on an error `LEN`,
`FLEN` and `FCSR` are kept too. -/
def Obligations.StoringCommandsFrame : Prop :=
  ∀ (i : Instr) (s t : State), exec i s = .next t →
    (∀ a b, i = .fcsGen a b →
      (∀ j, j ≠ a + b → bufRead t.buf j = bufRead s.buf j) ∧ t.len = s.len ∧ t.res = s.res ∧ t.flen = s.flen) ∧
    (i = .encToken → ∀ j, explen .token 0 ≤ j → bufRead t.buf j = bufRead s.buf j) ∧
    (i = .encSc → ∀ j, explen .sc 0 ≤ j → bufRead t.buf j = bufRead s.buf j) ∧
    (i = .encFix0 → ∀ j, explen .fix0 0 ≤ j → bufRead t.buf j = bufRead s.buf j) ∧
    (i = .encFix8 → ∀ j, 4 ≤ j → j ≠ fcsIndex .fix8 8 → j ≠ edIndex .fix8 8 → bufRead t.buf j = bufRead s.buf j) ∧
    (i = .encVar → ∀ j, 6 ≤ j → j ≠ fcsIndex .var (fieldsN s) → j ≠ edIndex .var (fieldsN s) →
      bufRead t.buf j = bufRead s.buf j) ∧
    (i = .encToken ∨ i = .encSc ∨ i = .encFix0 ∨ i = .encFix8 ∨ i = .encVar → t.res = s.res) ∧
    ((∃ a b, i = .fcsGen a b) ∨ i = .encToken ∨ i = .encSc ∨ i = .encFix0 ∨ i = .encFix8 ∨ i = .encVar →
      t.code ≠ .ok → (∀ j, bufRead t.buf j = bufRead s.buf j) ∧ t.len = s.len ∧ t.flen = s.flen ∧
        t.fcsCalc = s.fcsCalc ∧ t.fcsRecv = s.fcsRecv)

/-- R77, R79, R84: a rejected telegram exposes no field: on `E_MALFORMED`, `E_FRAMING` and `E_CHECKSUM` `DECODE` leaves
`RES` and `FLEN` at 0, and `FCSR` at 0 but for `E_CHECKSUM`, where the two bytes differ; on `E_ILLEGAL` it writes
`STATUS` alone (log 23). -/
def Obligations.RejectedTelegramExposesNothing : Prop :=
  ∀ s t : State, exec .decode s = .next t →
    (t.code = .eMalformed ∨ t.code = .eFraming → t.res = 0 ∧ t.flen = 0 ∧ t.fcsCalc = 0 ∧ t.fcsRecv = 0) ∧
    (t.code = .eChecksum → t.res = 0 ∧ t.flen = 0 ∧ t.fcsCalc ≠ t.fcsRecv) ∧
    (t.code = .eIllegal → t = onlyStatus .eIllegal .none false s)

/-- R84: the common checks, in their order, on the pending word; `E_ILLEGAL` arises from them alone and changes nothing
but `STATUS`; and what an encoder does is the same for every value of `LEN`. -/
def Obligations.CommonChecksGiveIllegal : Prop :=
  ∀ (w : Word) (s : State),
    ((∃ why, decodeWord w = .illegal why) → runWord w s = .next (onlyStatus .eIllegal .none false s)) ∧
    (decodeWord w = .instr .classify ∨ decodeWord w = .instr .measure ∨ decodeWord w = .instr .decode →
      256 < s.len.toNat → runWord w s = .next (onlyStatus .eIllegal .none false s)) ∧
    (∀ a b, decodeWord w = .instr (.fcsGen a b) ∨ decodeWord w = .instr (.fcsChk a b) → 255 < a + b →
      runWord w s = .next (onlyStatus .eIllegal .none false s)) ∧
    (∀ t, runWord w s = .next t → t.code = .eIllegal →
      t = onlyStatus .eIllegal .none false s ∧
      ((∃ why, decodeWord w = .illegal why) ∨
        ((decodeWord w = .instr .classify ∨ decodeWord w = .instr .measure ∨ decodeWord w = .instr .decode) ∧
          256 < s.len.toNat) ∨
        ∃ a b, (decodeWord w = .instr (.fcsGen a b) ∨ decodeWord w = .instr (.fcsChk a b)) ∧ 255 < a + b)) ∧
    (∀ (i : Instr) (l : BitVec 9) (t : State), i ∈ [.encToken, .encSc, .encFix0, .encFix8, .encVar] →
      exec i s = .next t → exec i { s with len := l } = .next (if t.code = .ok then t else { t with len := l }))

/-- R23: a command's outcome is a function of `FIELDS`, `LEN`, `BUF` and the parameter: with those equal, two machines
fault alike, or complete with the same code, variant, `CPL`, buffer and length, and with the same `RES`, `FLEN` and
`FCSR` wherever the command writes them. -/
def Obligations.ResultsDependOnOperandsAlone : Prop :=
  ∀ (i : Instr) (s s' : State), s.fields = s'.fields → s.len = s'.len → s.buf = s'.buf → s.cfg = s'.cfg →
    (∀ f, exec i s = .fault f → exec i s' = .fault f) ∧
    (∀ t, exec i s = .next t → ∃ t', exec i s' = .next t' ∧
      t'.code = t.code ∧ t'.variant = t.variant ∧ t'.cpl = t.cpl ∧ t'.buf = t.buf ∧ t'.len = t.len ∧
      (i = .decode → t.code ≠ .eIllegal → t'.res = t.res ∧ t'.flen = t.flen ∧
        t'.fcsCalc = t.fcsCalc ∧ t'.fcsRecv = t.fcsRecv) ∧
      (i = .measure → t.code ≠ .eIllegal → t'.flen = t.flen) ∧
      ((∃ a b, i = .fcsGen a b ∨ i = .fcsChk a b) → t.code ≠ .eIllegal →
        t'.fcsCalc = t.fcsCalc ∧ t'.fcsRecv = t.fcsRecv) ∧
      (i = .encToken ∨ i = .encSc ∨ i = .encFix0 ∨ i = .encFix8 ∨ i = .encVar → t.code = .ok →
        t'.flen = t.flen ∧ t'.fcsCalc = t.fcsCalc ∧ t'.fcsRecv = t.fcsRecv))

/-! ### Encoders and decoder together (44_decode.md R78) -/

/-- R78, first half: after an encoder that gave `OK`, `DECODE` of the same buffer and length gives `OK` with that
variant, `BUF` unchanged, and `RES` holding the encoder's inputs for the fields the variant carries. -/
def Obligations.DecodeReturnsEncodedFields : Prop :=
  ∀ (i : Instr) (v : Variant) (s t u : State),
    (i, v) ∈ [(Instr.encToken, Variant.token), (.encSc, .sc), (.encFix0, .fix0), (.encFix8, .fix8), (.encVar, .var)] →
    exec i s = .next t → t.code = .ok → u.buf = t.buf → u.len = t.len → u.cfg = t.cfg →
    ∃ x, exec .decode u = .next x ∧ x.code = .ok ∧ x.variant = v ∧ x.buf = t.buf ∧
      x.res = (if v = .token then packWord 0 0 (byteAt s.fields 1) (byteAt s.fields 0)
               else if v = .sc then 0 else s.fields)

/-- R78, the converse, which it marks as derived: after a `DECODE` that gave `OK`, running the encoder of the reported variant with `FIELDS` set to
`RES` completes with `OK` and leaves every byte of `BUF` and `LEN` as they were. -/
def Obligations.ReencodingRewritesSameBytes : Prop :=
  ∀ (i : Instr) (v : Variant) (s t u : State),
    (i, v) ∈ [(Instr.encToken, Variant.token), (.encSc, .sc), (.encFix0, .fix0), (.encFix8, .fix8), (.encVar, .var)] →
    exec .decode s = .next t → t.code = .ok → t.variant = v →
    u.buf = t.buf → u.cfg = t.cfg → u.fields = t.res →
    ∃ x, exec i u = .next x ∧ x.code = .ok ∧ x.len = s.len ∧ ∀ j, bufRead x.buf j = bufRead s.buf j

/-! ### The command protocol (60_exceptions.md) -/

/-- R80, R84: the codec agent's step is the execution of the pending word's command on the state it finds; the host's
step is its next statement, an access or one round of `WAIT`; and the schedule's head, or the default move (log 1), says
which. -/
def Obligations.StepRunsPendingCommand : Prop :=
  (∀ (s : State) (w : Word) (i : Instr), nextMove s = .codec → s.rstN = true → s.pend = some w →
    decodeWord w = .instr i → step s = exec i (movedOn s)) ∧
  (∀ (s : State) (a : Access) (rest : List HostOp), nextMove s = .host → s.host = .access a :: rest →
    step s = hostAccess a { movedOn s with host := rest }) ∧
  (∀ (s : State) (rest : List HostOp), nextMove s = .host → s.host = .wait :: rest →
    step s = .next { movedOn s with
      rdata := some (.word (statusRead s)), host := if (statusRead s).getLsbD 16 then .wait :: rest else rest }) ∧
  (∀ (s : State) (level : Bool), nextMove s = .rst level → step s = .next (driveRst level (movedOn s))) ∧
  (∀ (s : State), s.sched = [] → s.rstN = true → s.pend ≠ none → nextMove s = .codec)

/-- R56, R80: a well-formed command's word, placed as the accepted command, is what the next step runs, on the state an
accepted `CMD` write leaves (log 13). -/
def Obligations.PlacedCommandRunsNext : Prop :=
  ∀ (i : Instr) (s : State), i.wellFormed = true →
    step (s.withFetchWord 32 (encode i).toNat) =
      exec i { accept (encode i) s with rstN := true }

/-- R80, R94: after any completion, of a command or of an illegal word, whatever its code, a `CMD` write is accepted,
keeping `CODE`, `VARIANT` and `CPL`. -/
def Obligations.CompletionLeavesBlockReady : Prop :=
  ∀ (p : Word) (s t : State) (w : Word), runWord p s = .next t → s.rstN = true →
    hostAccess (.w32 0x004 w) t = .next { t with pend := some w, busy := true, done := false }

/-- R81: a `CMD` write while `BUSY` = 1 is dropped: its only effect is `OVR` = 1, and the pending command completes as
it would have. -/
def Obligations.CommandDroppedWhileBusy : Prop :=
  ∀ (s : State) (w : Word), s.rstN = true → s.busy = true →
    hostAccess (.w32 0x004 w) s = .next { s with ovr := true } ∧
    (∀ (p : Word) (t : State), runWord p s = .next t → runWord p { s with ovr := true } = .next { t with ovr := true })

/-- R93: every completion empties `PEND`; with nothing pending the codec agent does nothing; and only an accepted `CMD`
write makes something pending again: no command is ever repeated. -/
def Obligations.NothingRunsUnasked : Prop :=
  (∀ (w : Word) (s t : State), runWord w s = .next t → t.pend = none) ∧
  (∀ s : State, s.pend = none → nextMove s = .codec → step s = .next (movedOn s)) ∧
  (∀ (s t : State) (w : Word), s.pend = none → step s = .next t → t.pend = some w →
    nextAccess s = some (.w32 0x004 w) ∧ s.busy = false)

/-- R88: `DONE` goes from 1 to 0 only by a write of 1 to bit 17 of `STATUS`, an accepted `CMD` write or a reset; `OVR`
only by a write of 1 to bit 18 of `STATUS` or a reset. -/
def Obligations.DoneAndOvrClearedOnlyAsStated : Prop :=
  ∀ s t : State, step s = .next t →
    (s.done = true → t.done = false →
      (∃ v, nextAccess s = some (.w32 0x008 v) ∧ v.getLsbD 17 = true) ∨
      (∃ w, nextAccess s = some (.w32 0x004 w) ∧ s.busy = false) ∨
      (∃ v, nextAccess s = some (.w32 0x000 v) ∧ v.getLsbD 1 = true) ∨
      (∃ level, nextMove s = .rst level)) ∧
    (s.ovr = true → t.ovr = false →
      (∃ v, nextAccess s = some (.w32 0x008 v) ∧ v.getLsbD 18 = true) ∨
      (∃ v, nextAccess s = some (.w32 0x000 v) ∧ v.getLsbD 1 = true) ∨
      (∃ level, nextMove s = .rst level))

/-- R24, R87: `IRQ` is raised by a completion exactly when `IE` is set, by setting `IE` while `DONE` = 1, and lowered by
a write of 1 to `DONE`, an accepted command, `IE` = 0, a soft and a hard reset. -/
def Obligations.InterruptFollowsDoneAndEnable : Prop :=
  (∀ (w : Word) (s t : State), runWord w s = .next t → t.irq = s.ie) ∧
  (∀ s : State, s.rstN = true →
    (∀ v : Word, v.getLsbD 1 = false → ∃ t, hostAccess (.w32 0x000 v) s = .next t ∧
      t.irq = (s.done && v.getLsbD 0) ∧ t.done = s.done) ∧
    (∀ v : Word, v.getLsbD 17 = true → ∃ t, hostAccess (.w32 0x008 v) s = .next t ∧ t.irq = false) ∧
    (∀ w : Word, s.busy = false → ∃ t, hostAccess (.w32 0x004 w) s = .next t ∧ t.irq = false) ∧
    (∀ v : Word, v.getLsbD 1 = true → ∃ t, hostAccess (.w32 0x000 v) s = .next t ∧ t.irq = false)) ∧
  (∀ s : State, (driveRst false s).irq = false)

/-! ### The host's accesses (10_state.md, 20_memory.md, 70_reset_and_hazards.md) -/

/-- R15, R44, R58: the fields of the word `STATUS` reads as, the byte of each result code and the number of each variant. -/
def Obligations.StatusWordLayout : Prop :=
  (codeByte .ok = 0x00 ∧ codeByte .eBusy = 0xFF ∧ codeByte .eMalformed = 0xFE ∧ codeByte .eChecksum = 0xFD ∧
    codeByte .eFraming = 0xFC ∧ codeByte .eTimeout = 0xFB ∧ codeByte .eHwInit = 0xFA ∧ codeByte .eIllegal = 0xF9) ∧
  (variantBits .none = 0 ∧ variantBits .token = 1 ∧ variantBits .sc = 2 ∧ variantBits .fix0 = 3 ∧
    variantBits .fix8 = 4 ∧ variantBits .var = 5) ∧
  ∀ s : State, s.rstN = true →
    ∃ w : Word, hostAccess (.r32 0x008) s = .next { s with rdata := some (.word w) } ∧
      w.extractLsb' 0 8 = codeByte s.code ∧ w.extractLsb' 8 3 = variantBits s.variant ∧
      w.getLsbD 11 = s.cpl ∧ w.extractLsb' 12 4 = 0#4 ∧ w.getLsbD 16 = s.busy ∧ w.getLsbD 17 = s.done ∧
      w.getLsbD 18 = s.ovr ∧ w.extractLsb' 19 13 = 0#13

/-- R12, R13, R15 to R20: what a 32-bit write of each register changes while no command is pending. -/
def Obligations.RegisterWritesTakeEffect : Prop :=
  ∀ (s : State) (v : Word), s.rstN = true → s.busy = false →
    (v.getLsbD 1 = false → hostAccess (.w32 0x000 v) s = .next { s with ie := v.getLsbD 0 }) ∧
    hostAccess (.w32 0x004 v) s = .next { s with pend := some v, busy := true, done := false } ∧
    hostAccess (.w32 0x008 v) s =
      .next { s with done := s.done && !v.getLsbD 17, ovr := s.ovr && !v.getLsbD 18 } ∧
    hostAccess (.w32 0x00C v) s = .next { s with fields := v } ∧
    hostAccess (.w32 0x010 v) s = .next { s with len := v.setWidth 9 } ∧
    hostAccess (.w32 0x014 v) s = .next s ∧
    hostAccess (.w32 0x018 v) s = .next s ∧
    hostAccess (.w32 0x01C v) s = .next s

/-- R12 to R20: what a 32-bit read of each register returns while no command is pending. -/
def Obligations.RegisterReadsReturnFields : Prop :=
  ∀ s : State, s.rstN = true → s.busy = false →
    let reads (off : Offset) (w : Word) : Prop := hostAccess (.r32 off) s = .next { s with rdata := some (.word w) }
    reads 0x000 (BitVec.ofNat 32 s.ie.toNat) ∧ reads 0x004 0 ∧ reads 0x00C s.fields ∧
    reads 0x010 (s.len.setWidth 32) ∧ reads 0x014 s.res ∧
    reads 0x018 (BitVec.ofNat 32 (s.fcsCalc.toNat + 256 * s.fcsRecv.toNat)) ∧ reads 0x01C (s.flen.setWidth 32)

/-- R25: the reserved offsets 0x020 to 0x0FC read as 0 and ignore writes, also while a command is pending. -/
def Obligations.ReservedOffsetsAreInert : Prop :=
  ∀ (s : State) (off : Offset) (v : Word), s.rstN = true → 0x020 ≤ off.toNat → off.toNat ≤ 0x0FC → off.toNat % 4 = 0 →
    hostAccess (.r32 off) s = .next { s with rdata := some (.word 0) } ∧ hostAccess (.w32 off v) s = .next s

/-- R29: an offset is the bus address `PBFC_BASE` plus it, and no bus address outside those 512 is an offset. -/
def Obligations.WindowIs512Bytes : Prop :=
  Config.pbfcBase % 512 = 0 ∧
  (∀ off : Offset, windowOffset (busAddress off) = some off ∧ busAddress off = Config.pbfcBase + off.toNat) ∧
  (∀ (a : Nat) (off : Offset), windowOffset a = some off → a = busAddress off) ∧
  (∀ a : Nat, a < Config.pbfcBase ∨ Config.pbfcBase + 512 ≤ a → windowOffset a = none)

/-- R31, out of reset: a 16-bit access, an 8-bit register access and a misaligned 32-bit access fault with their offset; a
read that covers an undefined byte faults with the lowest such index (log 9). -/
def Obligations.IllegalAccessesFault : Prop :=
  ∀ (s : State) (off : Offset), s.rstN = true →
    (∀ v, hostAccess (.r16 off) s = .fault (.illegalAccess off.toNat) ∧
      hostAccess (.w16 off v) s = .fault (.illegalAccess off.toNat)) ∧
    (∀ v, off.toNat < 0x100 → hostAccess (.r8 off) s = .fault (.illegalAccess off.toNat) ∧
      hostAccess (.w8 off v) s = .fault (.illegalAccess off.toNat)) ∧
    (∀ v, off.toNat % 4 ≠ 0 → hostAccess (.r32 off) s = .fault (.illegalAccess off.toNat) ∧
      hostAccess (.w32 off v) s = .fault (.illegalAccess off.toNat)) ∧
    (0x100 ≤ off.toNat → s.buf.byte? (off.toNat - 0x100) = none →
      hostAccess (.r8 off) s = .fault (.undefinedBufRead (off.toNat - 0x100))) ∧
    (∀ bs : List Byte, 0x100 ≤ off.toNat → off.toNat % 4 = 0 → bs.length < 4 → Holds s.buf (off.toNat - 0x100) bs →
      s.buf.byte? (off.toNat - 0x100 + bs.length) = none →
      hostAccess (.r32 off) s = .fault (.undefinedBufRead (off.toNat - 0x100 + bs.length)))

/-- R30, R32: with no command pending, bytes of `BUF` read and write by index, and words little-endian; nothing else
changes. -/
def Obligations.BufferAccessIsLittleEndian : Prop :=
  ∀ (s : State) (off : Offset), s.rstN = true → s.busy = false → 0x100 ≤ off.toNat →
    let i := off.toNat - 0x100
    (∀ b : Byte, bufRead s.buf i = .ok b → hostAccess (.r8 off) s = .next { s with rdata := some (.byte b) }) ∧
    (∀ v : Byte, ∃ t, hostAccess (.w8 off v) s = .next t ∧ bufRead t.buf i = .ok v ∧
      (∀ j, j ≠ i → bufRead t.buf j = bufRead s.buf j) ∧ t = { s with buf := t.buf }) ∧
    (∀ b0 b1 b2 b3 : Byte, off.toNat % 4 = 0 → Holds s.buf i [b0, b1, b2, b3] →
      ∃ w : Word, hostAccess (.r32 off) s = .next { s with rdata := some (.word w) } ∧
        w.extractLsb' 0 8 = b0 ∧ w.extractLsb' 8 8 = b1 ∧ w.extractLsb' 16 8 = b2 ∧ w.extractLsb' 24 8 = b3) ∧
    (∀ v : Word, off.toNat % 4 = 0 → ∃ t, hostAccess (.w32 off v) s = .next t ∧
      Holds t.buf i [v.extractLsb' 0 8, v.extractLsb' 8 8, v.extractLsb' 16 8, v.extractLsb' 24 8] ∧
      (∀ j, j < i ∨ i + 4 ≤ j → bufRead t.buf j = bufRead s.buf j) ∧ t = { s with buf := t.buf })

/-- R35: a host read changes nothing but the value returned; writing `FIELDS`, `LEN` or `BUF` twice with one value is
writing it once; a write of `CMD` is not idempotent. -/
def Obligations.ReadsPureAndDataWritesIdempotent : Prop :=
  (∀ (s t : State) (off : Offset) (a : Access), a = .r8 off ∨ a = .r16 off ∨ a = .r32 off →
    hostAccess a s = .next t → t = { s with rdata := t.rdata, draws := t.draws }) ∧
  (∀ (s t : State) (off : Offset) (v : Word) (b : Byte) (a : Access), s.rstN = true →
    (a = .w32 off v ∧ (off = 0x00C ∨ off = 0x010 ∨ 0x100 ≤ off.toNat)) ∨ (a = .w8 off b ∧ 0x100 ≤ off.toNat) →
    hostAccess a s = .next t → hostAccess a t = .next t) ∧
  (∀ (s t u : State) (w : Word), s.rstN = true → s.busy = false → s.ovr = false →
    hostAccess (.w32 0x004 w) s = .next t → hostAccess (.w32 0x004 w) t = .next u → u ≠ t)

/-- R101: while `BUSY` = 1 a legal write of `FIELDS`, `LEN` or `BUF` is the fault `HazardWrite` with its offset, and
writes of `CTRL`, `STATUS` and `CMD` are safe. -/
def Obligations.OperandWritesAreHazards : Prop :=
  ∀ (s : State) (v : Word) (b : Byte) (off : Offset), s.rstN = true → s.busy = true →
    hostAccess (.w32 0x00C v) s = .fault (.hazardWrite 0x00C) ∧
    hostAccess (.w32 0x010 v) s = .fault (.hazardWrite 0x010) ∧
    (0x100 ≤ off.toNat → hostAccess (.w8 off b) s = .fault (.hazardWrite off.toNat)) ∧
    (0x100 ≤ off.toNat → off.toNat % 4 = 0 → hostAccess (.w32 off v) s = .fault (.hazardWrite off.toNat)) ∧
    (v.getLsbD 1 = false → hostAccess (.w32 0x000 v) s = .next { s with ie := v.getLsbD 0 }) ∧
    (v.getLsbD 1 = true → ∃ t, hostAccess (.w32 0x000 v) s = .next t ∧ t.busy = false ∧ t.done = false) ∧
    hostAccess (.w32 0x008 v) s =
      .next { s with done := s.done && !v.getLsbD 17, ovr := s.ovr && !v.getLsbD 18 } ∧
    hostAccess (.w32 0x004 v) s = .next { s with ovr := true }

/-- R102: while `BUSY` = 1 a read of `RES`, `FCSR`, `FLEN`, `LEN` or of defined bytes of `BUF` returns a value drawn
freely, an undefined byte still faults, and `STATUS`, `CTRL`, `FIELDS` and `CMD` read exactly. The model's choices: the
sequence the values are drawn from (log 4), and the lowest undefined index for a 32-bit read (log 9). -/
def Obligations.ResultReadsAreFree : Prop :=
  ∀ (s : State), s.rstN = true → s.busy = true →
    let drawn : State := { s with rdata := some (.word (Config.freeWord s.draws)), draws := s.draws + 1 }
    (∀ off : Offset, off = 0x010 ∨ off = 0x014 ∨ off = 0x018 ∨ off = 0x01C → hostAccess (.r32 off) s = .next drawn) ∧
    (∀ (off : Offset) (b : Byte), 0x100 ≤ off.toNat → bufRead s.buf (off.toNat - 0x100) = .ok b →
      hostAccess (.r8 off) s =
        .next { s with rdata := some (.byte (Config.freeByte s.draws)), draws := s.draws + 1 }) ∧
    (∀ (off : Offset) (bs : List Byte), 0x100 ≤ off.toNat → off.toNat % 4 = 0 → bs.length = 4 →
      Holds s.buf (off.toNat - 0x100) bs → hostAccess (.r32 off) s = .next drawn) ∧
    (∀ (off : Offset), 0x100 ≤ off.toNat → s.buf.byte? (off.toNat - 0x100) = none →
      hostAccess (.r8 off) s = .fault (.undefinedBufRead (off.toNat - 0x100))) ∧
    (∀ (off : Offset) (bs : List Byte), 0x100 ≤ off.toNat → off.toNat % 4 = 0 → bs.length < 4 →
      Holds s.buf (off.toNat - 0x100) bs → s.buf.byte? (off.toNat - 0x100 + bs.length) = none →
      hostAccess (.r32 off) s = .fault (.undefinedBufRead (off.toNat - 0x100 + bs.length))) ∧
    hostAccess (.r32 0x008) s = .next { s with rdata := some (.word (statusWord s)) } ∧
    hostAccess (.r32 0x000) s = .next { s with rdata := some (.word (ctrlWord s)) } ∧
    hostAccess (.r32 0x00C) s = .next { s with rdata := some (.word s.fields) } ∧
    hostAccess (.r32 0x004) s = .next { s with rdata := some (.word 0) }

/-! ### Reset (10_state.md R26, 70_reset_and_hazards.md R97 to R99) -/

/-- R26: every piece of state after a hard reset, and after a soft reset all of it but `BUF`. -/
def Obligations.ResetValues : Prop :=
  let values (s : State) : Prop :=
    ctrlWord s = 0 ∧ s.ie = false ∧ codeByte s.code = 0x00 ∧ variantBits s.variant = 0 ∧ s.cpl = false ∧
    s.busy = false ∧ s.done = false ∧ s.ovr = false ∧ s.fields = 0 ∧ lenWord s = 0 ∧ s.res = 0 ∧ fcsrWord s = 0 ∧
    flenWord s = 0 ∧ s.pend = none ∧ s.irq = false
  (values State.reset ∧ ∀ i, State.reset.buf.byte? i = none) ∧
  (∀ s : State, values (driveRst false s) ∧ ∀ i, (driveRst false s).buf.byte? i = none) ∧
  (∀ (s : State) (v : Word), s.rstN = true → v.getLsbD 1 = true →
    ∃ t, hostAccess (.w32 0x000 v) s = .next t ∧ values t)

/-- R97: while `RST_N` is 0 every register has its value of R26, `PEND` is empty, `IRQ` is 0 and every byte of `BUF` is
undefined, host accesses have no effect and reads return 0; back at 1 the block is idle and accepts a command. -/
def Obligations.HardResetHoldsTheBlock : Prop :=
  (∀ (s : State) (level : Bool), nextMove s = .rst level → level = false ∨ s.rstN = false →
    step s = .next { State.reset with
      rstN := level, cfg := s.cfg, host := s.host, sched := s.sched.tail, rdata := s.rdata, draws := s.draws }) ∧
  (∀ (s : State) (off : Offset) (b : Byte) (v : Word), s.rstN = false →
    (0x100 ≤ off.toNat → hostAccess (.r8 off) s = .next { s with rdata := some (.byte 0) } ∧
      hostAccess (.w8 off b) s = .next s) ∧
    (off.toNat % 4 = 0 → hostAccess (.r32 off) s = .next { s with rdata := some (.word 0) } ∧
      hostAccess (.w32 off v) s = .next s)) ∧
  (∀ (s t : State) (w : Word), nextMove s = .rst true → s.rstN = false → step s = .next t →
    t.busy = false ∧ t.done = false ∧ t.irq = false ∧
    hostAccess (.w32 0x004 w) t = .next { t with pend := some w, busy := true, done := false })

/-- R97 read together with R31 (log 11, the model's choice): while `RST_N` is 0 an access of a width or alignment that R30
does not allow has no effect either, and a read of it returns 0. -/
def Obligations.IllegalAccessesInResetAreInert : Prop :=
  ∀ (s : State) (off : Offset) (b : Byte) (h : BitVec 16) (v : Word), s.rstN = false →
    hostAccess (.r16 off) s = .next { s with rdata := some (.half 0) } ∧ hostAccess (.w16 off h) s = .next s ∧
    (off.toNat < 0x100 → hostAccess (.r8 off) s = .next { s with rdata := some (.byte 0) } ∧
      hostAccess (.w8 off b) s = .next s) ∧
    (off.toNat % 4 ≠ 0 → hostAccess (.r32 off) s = .next { s with rdata := some (.word 0) } ∧
      hostAccess (.w32 off v) s = .next s)

/-- R98, R99: a soft reset gives every register its value of R26 and empties `PEND`; `BUF` is kept, but for the bytes the
pending command could write, which become undefined. -/
def Obligations.SoftResetKeepsBuffer : Prop :=
  ∀ (s : State) (v : Word), s.rstN = true → v.getLsbD 1 = true →
    ∃ t, hostAccess (.w32 0x000 v) s = .next t ∧ t.irq = false ∧
      t = { State.reset with
            buf := t.buf, cfg := s.cfg, host := s.host, sched := s.sched, rdata := s.rdata, draws := s.draws } ∧
      (s.busy = false → ∀ i, bufRead t.buf i = bufRead s.buf i) ∧
      (∀ w : Word, s.busy = true → s.pend = some w →
        let becomeUndefined (lo n : Nat) : Prop :=
          ∀ i, bufRead t.buf i = if lo ≤ i ∧ i < lo + n then .error (.undefinedBufRead i) else bufRead s.buf i
        let n := (byteAt s.fields 3).toNat
        (∀ a b, decodeWord w = .instr (.fcsGen a b) → a + b ≤ 255 → becomeUndefined (a + b) 1) ∧
        (∀ a b, decodeWord w = .instr (.fcsGen a b) → 255 < a + b → becomeUndefined 0 0) ∧
        (decodeWord w = .instr .encToken → becomeUndefined 0 (if n = 0 then 3 else 0)) ∧
        (decodeWord w = .instr .encSc → becomeUndefined 0 (if n = 0 then 1 else 0)) ∧
        (decodeWord w = .instr .encFix0 → becomeUndefined 0 (if n = 0 then 6 else 0)) ∧
        (decodeWord w = .instr .encFix8 → becomeUndefined 0 (if n = 8 then 14 else 0)) ∧
        (decodeWord w = .instr .encVar → becomeUndefined 0 (if 1 ≤ n ∧ n ≤ 246 then n + 8 else 0)) ∧
        (decodeWord w = .instr .classify ∨ decodeWord w = .instr .measure ∨ decodeWord w = .instr .decode ∨
          (∃ a b, decodeWord w = .instr (.fcsChk a b)) ∨ (∃ why, decodeWord w = .illegal why) →
          becomeUndefined 0 0))

/-- R22: a defined byte of `BUF` becomes undefined only through a reset: the pin, or a soft reset by the host. -/
def Obligations.OnlyResetUndefinesBytes : Prop :=
  ∀ (s t : State) (i : Nat) (b : Byte), step s = .next t → s.buf.byte? i = some b → t.buf.byte? i = none →
    (∃ level, nextMove s = .rst level) ∨ ∃ v, nextAccess s = some (.w32 0x000 v) ∧ v.getLsbD 1 = true

/-! ### The whole machine -/

/-- R18: of the steps that are no reset, only the execution of `DECODE` changes `RES`. -/
def Obligations.OnlyDecodeWritesRes : Prop :=
  ∀ s t : State, step s = .next t → t.res ≠ s.res →
    nextCommand s = some .decode ∨ (∃ level, nextMove s = .rst level) ∨
      ∃ v, nextAccess s = some (.w32 0x000 v) ∧ v.getLsbD 1 = true

/-- R16: PBFC never writes `FIELDS`: it changes only by a host write of it or a reset. -/
def Obligations.OnlyHostWritesFields : Prop :=
  ∀ s t : State, step s = .next t → t.fields ≠ s.fields →
    (∃ v, nextAccess s = some (.w32 0x00C v) ∧ t.fields = v) ∨ (∃ level, nextMove s = .rst level) ∨
      ∃ v, nextAccess s = some (.w32 0x000 v) ∧ v.getLsbD 1 = true

/-- R6: the parameter never changes at run time. -/
def Obligations.ParameterNeverChanges : Prop :=
  ∀ s t : State, step s = .next t → t.cfg = s.cfg

/-- R15, R20, R21, R23, R58, R80, R82, R92, R97: every step keeps the invariant `State.Inv`. -/
def Obligations.StepKeepsInvariant : Prop :=
  ∀ s t : State, s.Inv → step s = .next t → t.Inv

/-- R26: the reset state satisfies `State.Inv`. -/
def Obligations.ResetMeetsInvariant : Prop := State.reset.Inv

/-- R60, R106: with no scheduled move left, `WAIT` after an accepted command ends: the codec agent completes the
command, then the poll reads `BUSY` = 0 (log 1 on the default move). -/
def Obligations.WaitEnds : Prop :=
  ∀ (s t : State) (w : Word) (rest : List HostOp), s.sched = [] → s.rstN = true → s.pend = some w →
    s.host = .wait :: rest → runWord w s = .next t →
    Host.Core.run Sys2Proof.core 2 s = .next { t with host := rest, rdata := some (.word (statusWord t)) }
end

