-- ==== Sys2Proof/Laws/Memory.lean ====
section
/-! SUPPORT. The basic laws of `BUF`: a read after a write, and every operation keeps the canonical form. -/

namespace Sys2Proof.Machine

@[simp] theorem byte?_write_same (m : Memory) (i : Nat) (v : Byte) : (m.write i v).byte? i = some v := by
  induction m with
  | nil => simp [Memory.write, Memory.byte?]
  | cons c m ih =>
    obtain ⟨a, b⟩ := c
    simp only [Memory.write]
    split_ifs with h1 h2
    · simp [Memory.byte?]
    · simp [Memory.byte?]
    · simp [Memory.byte?, Ne.symm h2, ih]

theorem byte?_write_other (m : Memory) {i j : Nat} (v : Byte) (h : j ≠ i) :
    (m.write i v).byte? j = m.byte? j := by
  induction m with
  | nil => simp [Memory.write, Memory.byte?, Ne.symm h]
  | cons c m ih =>
    obtain ⟨a, b⟩ := c
    simp only [Memory.write]
    split_ifs with h1 h2
    · simp [Memory.byte?, Ne.symm h]
    · subst h2; simp [Memory.byte?, Ne.symm h]
    · simp [Memory.byte?, ih]

@[simp] theorem bufRead_write_same (m : Memory) (i : Nat) (v : Byte) : bufRead (m.write i v) i = .ok v := by
  simp [bufRead]

theorem bufRead_write_other (m : Memory) {i j : Nat} (v : Byte) (h : j ≠ i) :
    bufRead (m.write i v) j = bufRead m j := by
  simp [bufRead, byte?_write_other m v h]

theorem bufRead_write (m : Memory) (i j : Nat) (v : Byte) :
    bufRead (m.write i v) j = if j = i then .ok v else bufRead m j := by
  split_ifs with h
  · simp [h]
  · exact bufRead_write_other m v h

/-- A read that stops does so on the index it was given. -/
theorem bufRead_error {m : Memory} {i : Nat} {f : Fault} (h : bufRead m i = .error f) : f = .undefinedBufRead i := by
  unfold bufRead at h
  split at h
  · cases h
  · cases h; rfl

/-- A byte is defined or undefined. -/
theorem bufRead_cases (m : Memory) (i : Nat) :
    (∃ b, bufRead m i = .ok b) ∨ bufRead m i = .error (.undefinedBufRead i) := by
  unfold bufRead
  cases m.byte? i with
  | some b => exact .inl ⟨b, rfl⟩
  | none => exact .inr rfl

theorem byte?_undefine (m : Memory) (lo count i : Nat) :
    (m.undefine lo count).byte? i = if lo ≤ i ∧ i < lo + count then none else m.byte? i := by
  induction m with
  | nil => simp [Memory.undefine, Memory.byte?]
  | cons c m ih =>
    obtain ⟨a, b⟩ := c
    simp only [Memory.undefine, List.filter_cons] at ih ⊢
    by_cases hk : a < lo ∨ lo + count ≤ a
    · simp only [hk, decide_true, if_true, Memory.byte?]
      by_cases ha : a = i
      · subst ha; rw [if_pos rfl, if_neg (by omega), if_pos rfl]
      · simp only [ha, if_false]; exact ih
    · simp only [hk, decide_false, Bool.false_eq_true, if_false, Memory.byte?]
      by_cases ha : a = i
      · subst ha; rw [ih, if_pos (by omega), if_pos (by omega)]
      · simp only [ha, if_false]; exact ih

theorem bufRead_undefine (m : Memory) (lo count i : Nat) :
    bufRead (m.undefine lo count) i =
      if lo ≤ i ∧ i < lo + count then .error (.undefinedBufRead i) else bufRead m i := by
  simp only [bufRead, byte?_undefine]
  split_ifs <;> rfl

@[simp] theorem bufRead_nil (i : Nat) : bufRead [] i = .error (.undefinedBufRead i) := rfl

/-! ### The canonical form -/

theorem risingFrom_mono {lo lo' : Nat} {m : Memory} (h : lo' ≤ lo) (hm : m.risingFrom lo = true) :
    m.risingFrom lo' = true := by
  cases m with
  | nil => rfl
  | cons c m =>
    obtain ⟨a, b⟩ := c
    simp only [Memory.risingFrom, Bool.and_eq_true, decide_eq_true_eq] at hm ⊢
    exact ⟨h.trans hm.1, hm.2⟩

theorem risingFrom_write {lo i : Nat} {m : Memory} (v : Byte) (hm : m.risingFrom lo = true) (h : lo ≤ i) :
    (m.write i v).risingFrom lo = true := by
  induction m generalizing lo with
  | nil => simpa [Memory.write, Memory.risingFrom] using h
  | cons c m ih =>
    obtain ⟨a, b⟩ := c
    simp only [Memory.risingFrom, Bool.and_eq_true, decide_eq_true_eq] at hm
    simp only [Memory.write]
    split_ifs with h1 h2
    · simp [Memory.risingFrom, h, hm.2, h1]
    · subst h2; simp [Memory.risingFrom, h, hm.2]
    · simp only [Memory.risingFrom, Bool.and_eq_true, decide_eq_true_eq]
      exact ⟨hm.1, ih hm.2 (by omega)⟩

theorem mem_write {m : Memory} {i : Nat} {v : Byte} {c : Host.Cell} (h : c ∈ m.write i v) : c = (i, v) ∨ c ∈ m := by
  induction m with
  | nil => simpa [Memory.write] using h
  | cons d m ih =>
    obtain ⟨a, b⟩ := d
    simp only [Memory.write] at h
    split_ifs at h
    · simpa using h
    · simp only [List.mem_cons] at h ⊢; tauto
    · simp only [List.mem_cons] at h ⊢
      rcases h with h | h
      · exact .inr (.inl h)
      · rcases ih h with h | h
        · exact .inl h
        · exact .inr (.inr h)

/-- A write below index 256 keeps the canonical form. -/
theorem wf_write {m : Memory} {i : Nat} (v : Byte) (hm : m.wf = true) (hi : i < 256) : (m.write i v).wf = true := by
  simp only [Memory.wf, Bool.and_eq_true, List.all_eq_true, decide_eq_true_eq] at hm ⊢
  refine ⟨risingFrom_write v hm.1 (Nat.zero_le _), fun c hc => ?_⟩
  rcases mem_write hc with rfl | h
  · exact hi
  · exact hm.2 c h

theorem risingFrom_undefine {lo : Nat} {m : Memory} (p n : Nat) (hm : m.risingFrom lo = true) :
    (m.undefine p n).risingFrom lo = true := by
  induction m generalizing lo with
  | nil => rfl
  | cons c m ih =>
    obtain ⟨a, b⟩ := c
    simp only [Memory.risingFrom, Bool.and_eq_true, decide_eq_true_eq] at hm
    simp only [Memory.undefine, List.filter_cons] at ih ⊢
    split_ifs
    · simp only [Memory.risingFrom, Bool.and_eq_true, decide_eq_true_eq]
      exact ⟨hm.1, ih hm.2⟩
    · exact risingFrom_mono (by omega) (ih hm.2)

/-- Making bytes undefined keeps the canonical form. -/
theorem wf_undefine {m : Memory} (lo count : Nat) (hm : m.wf = true) : (m.undefine lo count).wf = true := by
  simp only [Memory.wf, Bool.and_eq_true, List.all_eq_true, decide_eq_true_eq] at hm ⊢
  exact ⟨risingFrom_undefine lo count hm.1, fun c hc => hm.2 c (List.mem_of_mem_filter hc)⟩

/-- The empty buffer of a hard reset is in canonical form. -/
theorem wf_nil : Memory.wf [] = true := rfl

/-- The memory of the reset state is in canonical form. -/
theorem wf_reset : State.reset.buf.wf = true := rfl

end Sys2Proof.Machine
end

