-- ==== Sys2Proof/Laws/State.lean ====
section
/-! SUPPORT. One lemma per field of `State` and per update: what a named operation leaves in each field. -/

namespace Sys2Proof.Machine

variable (s : State)

section bufWriteFields
variable (i : Nat) (v : Byte)

@[simp] theorem bufWrite_ie : (bufWrite i v s).ie = s.ie := rfl
@[simp] theorem bufWrite_code : (bufWrite i v s).code = s.code := rfl
@[simp] theorem bufWrite_variant : (bufWrite i v s).variant = s.variant := rfl
@[simp] theorem bufWrite_cpl : (bufWrite i v s).cpl = s.cpl := rfl
@[simp] theorem bufWrite_busy : (bufWrite i v s).busy = s.busy := rfl
@[simp] theorem bufWrite_done : (bufWrite i v s).done = s.done := rfl
@[simp] theorem bufWrite_ovr : (bufWrite i v s).ovr = s.ovr := rfl
@[simp] theorem bufWrite_fields : (bufWrite i v s).fields = s.fields := rfl
@[simp] theorem bufWrite_len : (bufWrite i v s).len = s.len := rfl
@[simp] theorem bufWrite_res : (bufWrite i v s).res = s.res := rfl
@[simp] theorem bufWrite_fcsCalc : (bufWrite i v s).fcsCalc = s.fcsCalc := rfl
@[simp] theorem bufWrite_fcsRecv : (bufWrite i v s).fcsRecv = s.fcsRecv := rfl
@[simp] theorem bufWrite_flen : (bufWrite i v s).flen = s.flen := rfl
@[simp] theorem bufWrite_pend : (bufWrite i v s).pend = s.pend := rfl
@[simp] theorem bufWrite_buf : (bufWrite i v s).buf = s.buf.write i v := rfl
@[simp] theorem bufWrite_rstN : (bufWrite i v s).rstN = s.rstN := rfl
@[simp] theorem bufWrite_cfg : (bufWrite i v s).cfg = s.cfg := rfl
@[simp] theorem bufWrite_host : (bufWrite i v s).host = s.host := rfl
@[simp] theorem bufWrite_sched : (bufWrite i v s).sched = s.sched := rfl
@[simp] theorem bufWrite_rdata : (bufWrite i v s).rdata = s.rdata := rfl
@[simp] theorem bufWrite_draws : (bufWrite i v s).draws = s.draws := rfl

end bufWriteFields

section finishFields
variable (c : Code) (v : Variant) (p : Bool)

@[simp] theorem finish_ie : (finish c v p s).ie = s.ie := rfl
@[simp] theorem finish_code : (finish c v p s).code = c := rfl
@[simp] theorem finish_variant : (finish c v p s).variant = if c = .ok then v else .none := rfl
@[simp] theorem finish_cpl : (finish c v p s).cpl = p := rfl
@[simp] theorem finish_busy : (finish c v p s).busy = false := rfl
@[simp] theorem finish_done : (finish c v p s).done = true := rfl
@[simp] theorem finish_ovr : (finish c v p s).ovr = s.ovr := rfl
@[simp] theorem finish_fields : (finish c v p s).fields = s.fields := rfl
@[simp] theorem finish_len : (finish c v p s).len = s.len := rfl
@[simp] theorem finish_res : (finish c v p s).res = s.res := rfl
@[simp] theorem finish_fcsCalc : (finish c v p s).fcsCalc = s.fcsCalc := rfl
@[simp] theorem finish_fcsRecv : (finish c v p s).fcsRecv = s.fcsRecv := rfl
@[simp] theorem finish_flen : (finish c v p s).flen = s.flen := rfl
@[simp] theorem finish_pend : (finish c v p s).pend = none := rfl
@[simp] theorem finish_buf : (finish c v p s).buf = s.buf := rfl
@[simp] theorem finish_rstN : (finish c v p s).rstN = s.rstN := rfl
@[simp] theorem finish_cfg : (finish c v p s).cfg = s.cfg := rfl
@[simp] theorem finish_host : (finish c v p s).host = s.host := rfl
@[simp] theorem finish_sched : (finish c v p s).sched = s.sched := rfl
@[simp] theorem finish_rdata : (finish c v p s).rdata = s.rdata := rfl
@[simp] theorem finish_draws : (finish c v p s).draws = s.draws := rfl

end finishFields

section acceptFields
variable (w : Word)

@[simp] theorem accept_ie : (accept w s).ie = s.ie := rfl
@[simp] theorem accept_code : (accept w s).code = s.code := rfl
@[simp] theorem accept_variant : (accept w s).variant = s.variant := rfl
@[simp] theorem accept_cpl : (accept w s).cpl = s.cpl := rfl
@[simp] theorem accept_busy : (accept w s).busy = true := rfl
@[simp] theorem accept_done : (accept w s).done = false := rfl
@[simp] theorem accept_ovr : (accept w s).ovr = s.ovr := rfl
@[simp] theorem accept_fields : (accept w s).fields = s.fields := rfl
@[simp] theorem accept_len : (accept w s).len = s.len := rfl
@[simp] theorem accept_res : (accept w s).res = s.res := rfl
@[simp] theorem accept_fcsCalc : (accept w s).fcsCalc = s.fcsCalc := rfl
@[simp] theorem accept_fcsRecv : (accept w s).fcsRecv = s.fcsRecv := rfl
@[simp] theorem accept_flen : (accept w s).flen = s.flen := rfl
@[simp] theorem accept_pend : (accept w s).pend = some w := rfl
@[simp] theorem accept_buf : (accept w s).buf = s.buf := rfl
@[simp] theorem accept_rstN : (accept w s).rstN = s.rstN := rfl
@[simp] theorem accept_cfg : (accept w s).cfg = s.cfg := rfl
@[simp] theorem accept_host : (accept w s).host = s.host := rfl
@[simp] theorem accept_sched : (accept w s).sched = s.sched := rfl
@[simp] theorem accept_rdata : (accept w s).rdata = s.rdata := rfl
@[simp] theorem accept_draws : (accept w s).draws = s.draws := rfl

end acceptFields

section dropCommandFields

@[simp] theorem dropCommand_ie : (dropCommand s).ie = s.ie := rfl
@[simp] theorem dropCommand_code : (dropCommand s).code = s.code := rfl
@[simp] theorem dropCommand_variant : (dropCommand s).variant = s.variant := rfl
@[simp] theorem dropCommand_cpl : (dropCommand s).cpl = s.cpl := rfl
@[simp] theorem dropCommand_busy : (dropCommand s).busy = s.busy := rfl
@[simp] theorem dropCommand_done : (dropCommand s).done = s.done := rfl
@[simp] theorem dropCommand_ovr : (dropCommand s).ovr = true := rfl
@[simp] theorem dropCommand_fields : (dropCommand s).fields = s.fields := rfl
@[simp] theorem dropCommand_len : (dropCommand s).len = s.len := rfl
@[simp] theorem dropCommand_res : (dropCommand s).res = s.res := rfl
@[simp] theorem dropCommand_fcsCalc : (dropCommand s).fcsCalc = s.fcsCalc := rfl
@[simp] theorem dropCommand_fcsRecv : (dropCommand s).fcsRecv = s.fcsRecv := rfl
@[simp] theorem dropCommand_flen : (dropCommand s).flen = s.flen := rfl
@[simp] theorem dropCommand_pend : (dropCommand s).pend = s.pend := rfl
@[simp] theorem dropCommand_buf : (dropCommand s).buf = s.buf := rfl
@[simp] theorem dropCommand_rstN : (dropCommand s).rstN = s.rstN := rfl
@[simp] theorem dropCommand_cfg : (dropCommand s).cfg = s.cfg := rfl
@[simp] theorem dropCommand_host : (dropCommand s).host = s.host := rfl
@[simp] theorem dropCommand_sched : (dropCommand s).sched = s.sched := rfl
@[simp] theorem dropCommand_rdata : (dropCommand s).rdata = s.rdata := rfl
@[simp] theorem dropCommand_draws : (dropCommand s).draws = s.draws := rfl

end dropCommandFields

section setFcsrFields
variable (x y : Byte)

@[simp] theorem setFcsr_ie : (setFcsr x y s).ie = s.ie := rfl
@[simp] theorem setFcsr_code : (setFcsr x y s).code = s.code := rfl
@[simp] theorem setFcsr_variant : (setFcsr x y s).variant = s.variant := rfl
@[simp] theorem setFcsr_cpl : (setFcsr x y s).cpl = s.cpl := rfl
@[simp] theorem setFcsr_busy : (setFcsr x y s).busy = s.busy := rfl
@[simp] theorem setFcsr_done : (setFcsr x y s).done = s.done := rfl
@[simp] theorem setFcsr_ovr : (setFcsr x y s).ovr = s.ovr := rfl
@[simp] theorem setFcsr_fields : (setFcsr x y s).fields = s.fields := rfl
@[simp] theorem setFcsr_len : (setFcsr x y s).len = s.len := rfl
@[simp] theorem setFcsr_res : (setFcsr x y s).res = s.res := rfl
@[simp] theorem setFcsr_fcsCalc : (setFcsr x y s).fcsCalc = x := rfl
@[simp] theorem setFcsr_fcsRecv : (setFcsr x y s).fcsRecv = y := rfl
@[simp] theorem setFcsr_flen : (setFcsr x y s).flen = s.flen := rfl
@[simp] theorem setFcsr_pend : (setFcsr x y s).pend = s.pend := rfl
@[simp] theorem setFcsr_buf : (setFcsr x y s).buf = s.buf := rfl
@[simp] theorem setFcsr_rstN : (setFcsr x y s).rstN = s.rstN := rfl
@[simp] theorem setFcsr_cfg : (setFcsr x y s).cfg = s.cfg := rfl
@[simp] theorem setFcsr_host : (setFcsr x y s).host = s.host := rfl
@[simp] theorem setFcsr_sched : (setFcsr x y s).sched = s.sched := rfl
@[simp] theorem setFcsr_rdata : (setFcsr x y s).rdata = s.rdata := rfl
@[simp] theorem setFcsr_draws : (setFcsr x y s).draws = s.draws := rfl

end setFcsrFields

section finishEncoderFields
variable (v : Variant) (n : Nat) (x : Byte)

@[simp] theorem finishEncoder_ie : (finishEncoder v n x s).ie = s.ie := rfl
@[simp] theorem finishEncoder_code : (finishEncoder v n x s).code = .ok := rfl
@[simp] theorem finishEncoder_variant : (finishEncoder v n x s).variant = v := rfl
@[simp] theorem finishEncoder_cpl : (finishEncoder v n x s).cpl = false := rfl
@[simp] theorem finishEncoder_busy : (finishEncoder v n x s).busy = false := rfl
@[simp] theorem finishEncoder_done : (finishEncoder v n x s).done = true := rfl
@[simp] theorem finishEncoder_ovr : (finishEncoder v n x s).ovr = s.ovr := rfl
@[simp] theorem finishEncoder_fields : (finishEncoder v n x s).fields = s.fields := rfl
@[simp] theorem finishEncoder_len : (finishEncoder v n x s).len = BitVec.ofNat 9 n := rfl
@[simp] theorem finishEncoder_res : (finishEncoder v n x s).res = s.res := rfl
@[simp] theorem finishEncoder_fcsCalc : (finishEncoder v n x s).fcsCalc = x := rfl
@[simp] theorem finishEncoder_fcsRecv : (finishEncoder v n x s).fcsRecv = x := rfl
@[simp] theorem finishEncoder_flen : (finishEncoder v n x s).flen = BitVec.ofNat 9 n := rfl
@[simp] theorem finishEncoder_pend : (finishEncoder v n x s).pend = none := rfl
@[simp] theorem finishEncoder_buf : (finishEncoder v n x s).buf = s.buf := rfl
@[simp] theorem finishEncoder_rstN : (finishEncoder v n x s).rstN = s.rstN := rfl
@[simp] theorem finishEncoder_cfg : (finishEncoder v n x s).cfg = s.cfg := rfl
@[simp] theorem finishEncoder_host : (finishEncoder v n x s).host = s.host := rfl
@[simp] theorem finishEncoder_sched : (finishEncoder v n x s).sched = s.sched := rfl
@[simp] theorem finishEncoder_rdata : (finishEncoder v n x s).rdata = s.rdata := rfl
@[simp] theorem finishEncoder_draws : (finishEncoder v n x s).draws = s.draws := rfl

end finishEncoderFields

section clearW1CFields
variable (v : Word)

@[simp] theorem clearW1C_ie : (clearW1C v s).ie = s.ie := rfl
@[simp] theorem clearW1C_code : (clearW1C v s).code = s.code := rfl
@[simp] theorem clearW1C_variant : (clearW1C v s).variant = s.variant := rfl
@[simp] theorem clearW1C_cpl : (clearW1C v s).cpl = s.cpl := rfl
@[simp] theorem clearW1C_busy : (clearW1C v s).busy = s.busy := rfl
@[simp] theorem clearW1C_done : (clearW1C v s).done = (s.done && !v.getLsbD 17) := rfl
@[simp] theorem clearW1C_ovr : (clearW1C v s).ovr = (s.ovr && !v.getLsbD 18) := rfl
@[simp] theorem clearW1C_fields : (clearW1C v s).fields = s.fields := rfl
@[simp] theorem clearW1C_len : (clearW1C v s).len = s.len := rfl
@[simp] theorem clearW1C_res : (clearW1C v s).res = s.res := rfl
@[simp] theorem clearW1C_fcsCalc : (clearW1C v s).fcsCalc = s.fcsCalc := rfl
@[simp] theorem clearW1C_fcsRecv : (clearW1C v s).fcsRecv = s.fcsRecv := rfl
@[simp] theorem clearW1C_flen : (clearW1C v s).flen = s.flen := rfl
@[simp] theorem clearW1C_pend : (clearW1C v s).pend = s.pend := rfl
@[simp] theorem clearW1C_buf : (clearW1C v s).buf = s.buf := rfl
@[simp] theorem clearW1C_rstN : (clearW1C v s).rstN = s.rstN := rfl
@[simp] theorem clearW1C_cfg : (clearW1C v s).cfg = s.cfg := rfl
@[simp] theorem clearW1C_host : (clearW1C v s).host = s.host := rfl
@[simp] theorem clearW1C_sched : (clearW1C v s).sched = s.sched := rfl
@[simp] theorem clearW1C_rdata : (clearW1C v s).rdata = s.rdata := rfl
@[simp] theorem clearW1C_draws : (clearW1C v s).draws = s.draws := rfl

end clearW1CFields

section answerFields
variable (d : ReadData)

@[simp] theorem answer_ie : (answer d s).ie = s.ie := rfl
@[simp] theorem answer_code : (answer d s).code = s.code := rfl
@[simp] theorem answer_variant : (answer d s).variant = s.variant := rfl
@[simp] theorem answer_cpl : (answer d s).cpl = s.cpl := rfl
@[simp] theorem answer_busy : (answer d s).busy = s.busy := rfl
@[simp] theorem answer_done : (answer d s).done = s.done := rfl
@[simp] theorem answer_ovr : (answer d s).ovr = s.ovr := rfl
@[simp] theorem answer_fields : (answer d s).fields = s.fields := rfl
@[simp] theorem answer_len : (answer d s).len = s.len := rfl
@[simp] theorem answer_res : (answer d s).res = s.res := rfl
@[simp] theorem answer_fcsCalc : (answer d s).fcsCalc = s.fcsCalc := rfl
@[simp] theorem answer_fcsRecv : (answer d s).fcsRecv = s.fcsRecv := rfl
@[simp] theorem answer_flen : (answer d s).flen = s.flen := rfl
@[simp] theorem answer_pend : (answer d s).pend = s.pend := rfl
@[simp] theorem answer_buf : (answer d s).buf = s.buf := rfl
@[simp] theorem answer_rstN : (answer d s).rstN = s.rstN := rfl
@[simp] theorem answer_cfg : (answer d s).cfg = s.cfg := rfl
@[simp] theorem answer_host : (answer d s).host = s.host := rfl
@[simp] theorem answer_sched : (answer d s).sched = s.sched := rfl
@[simp] theorem answer_rdata : (answer d s).rdata = some d := rfl
@[simp] theorem answer_draws : (answer d s).draws = s.draws := rfl

end answerFields

section hardResetFields

@[simp] theorem hardReset_ie : (hardReset s).ie = false := rfl
@[simp] theorem hardReset_code : (hardReset s).code = .ok := rfl
@[simp] theorem hardReset_variant : (hardReset s).variant = .none := rfl
@[simp] theorem hardReset_cpl : (hardReset s).cpl = false := rfl
@[simp] theorem hardReset_busy : (hardReset s).busy = false := rfl
@[simp] theorem hardReset_done : (hardReset s).done = false := rfl
@[simp] theorem hardReset_ovr : (hardReset s).ovr = false := rfl
@[simp] theorem hardReset_fields : (hardReset s).fields = 0 := rfl
@[simp] theorem hardReset_len : (hardReset s).len = 0 := rfl
@[simp] theorem hardReset_res : (hardReset s).res = 0 := rfl
@[simp] theorem hardReset_fcsCalc : (hardReset s).fcsCalc = 0 := rfl
@[simp] theorem hardReset_fcsRecv : (hardReset s).fcsRecv = 0 := rfl
@[simp] theorem hardReset_flen : (hardReset s).flen = 0 := rfl
@[simp] theorem hardReset_pend : (hardReset s).pend = none := rfl
@[simp] theorem hardReset_buf : (hardReset s).buf = [] := rfl
@[simp] theorem hardReset_rstN : (hardReset s).rstN = s.rstN := rfl
@[simp] theorem hardReset_cfg : (hardReset s).cfg = s.cfg := rfl
@[simp] theorem hardReset_host : (hardReset s).host = s.host := rfl
@[simp] theorem hardReset_sched : (hardReset s).sched = s.sched := rfl
@[simp] theorem hardReset_rdata : (hardReset s).rdata = s.rdata := rfl
@[simp] theorem hardReset_draws : (hardReset s).draws = s.draws := rfl

end hardResetFields

section softResetFields

@[simp] theorem softReset_ie : (softReset s).ie = false := rfl
@[simp] theorem softReset_code : (softReset s).code = .ok := rfl
@[simp] theorem softReset_variant : (softReset s).variant = .none := rfl
@[simp] theorem softReset_cpl : (softReset s).cpl = false := rfl
@[simp] theorem softReset_busy : (softReset s).busy = false := rfl
@[simp] theorem softReset_done : (softReset s).done = false := rfl
@[simp] theorem softReset_ovr : (softReset s).ovr = false := rfl
@[simp] theorem softReset_fields : (softReset s).fields = 0 := rfl
@[simp] theorem softReset_len : (softReset s).len = 0 := rfl
@[simp] theorem softReset_res : (softReset s).res = 0 := rfl
@[simp] theorem softReset_fcsCalc : (softReset s).fcsCalc = 0 := rfl
@[simp] theorem softReset_fcsRecv : (softReset s).fcsRecv = 0 := rfl
@[simp] theorem softReset_flen : (softReset s).flen = 0 := rfl
@[simp] theorem softReset_pend : (softReset s).pend = none := rfl
@[simp] theorem softReset_buf : (softReset s).buf = s.buf.undefine (abandoned s).1 (abandoned s).2 := rfl
@[simp] theorem softReset_rstN : (softReset s).rstN = s.rstN := rfl
@[simp] theorem softReset_cfg : (softReset s).cfg = s.cfg := rfl
@[simp] theorem softReset_host : (softReset s).host = s.host := rfl
@[simp] theorem softReset_sched : (softReset s).sched = s.sched := rfl
@[simp] theorem softReset_rdata : (softReset s).rdata = s.rdata := rfl
@[simp] theorem softReset_draws : (softReset s).draws = s.draws := rfl

end softResetFields

section onlyStatusFields
variable (c : Code) (v : Variant) (p : Bool)

@[simp] theorem onlyStatus_ie : (onlyStatus c v p s).ie = s.ie := rfl
@[simp] theorem onlyStatus_code : (onlyStatus c v p s).code = c := rfl
@[simp] theorem onlyStatus_variant : (onlyStatus c v p s).variant = v := rfl
@[simp] theorem onlyStatus_cpl : (onlyStatus c v p s).cpl = p := rfl
@[simp] theorem onlyStatus_busy : (onlyStatus c v p s).busy = false := rfl
@[simp] theorem onlyStatus_done : (onlyStatus c v p s).done = true := rfl
@[simp] theorem onlyStatus_ovr : (onlyStatus c v p s).ovr = s.ovr := rfl
@[simp] theorem onlyStatus_fields : (onlyStatus c v p s).fields = s.fields := rfl
@[simp] theorem onlyStatus_len : (onlyStatus c v p s).len = s.len := rfl
@[simp] theorem onlyStatus_res : (onlyStatus c v p s).res = s.res := rfl
@[simp] theorem onlyStatus_fcsCalc : (onlyStatus c v p s).fcsCalc = s.fcsCalc := rfl
@[simp] theorem onlyStatus_fcsRecv : (onlyStatus c v p s).fcsRecv = s.fcsRecv := rfl
@[simp] theorem onlyStatus_flen : (onlyStatus c v p s).flen = s.flen := rfl
@[simp] theorem onlyStatus_pend : (onlyStatus c v p s).pend = none := rfl
@[simp] theorem onlyStatus_buf : (onlyStatus c v p s).buf = s.buf := rfl
@[simp] theorem onlyStatus_rstN : (onlyStatus c v p s).rstN = s.rstN := rfl
@[simp] theorem onlyStatus_cfg : (onlyStatus c v p s).cfg = s.cfg := rfl
@[simp] theorem onlyStatus_host : (onlyStatus c v p s).host = s.host := rfl
@[simp] theorem onlyStatus_sched : (onlyStatus c v p s).sched = s.sched := rfl
@[simp] theorem onlyStatus_rdata : (onlyStatus c v p s).rdata = s.rdata := rfl
@[simp] theorem onlyStatus_draws : (onlyStatus c v p s).draws = s.draws := rfl

end onlyStatusFields

section movedOnFields

@[simp] theorem movedOn_ie : (movedOn s).ie = s.ie := rfl
@[simp] theorem movedOn_code : (movedOn s).code = s.code := rfl
@[simp] theorem movedOn_variant : (movedOn s).variant = s.variant := rfl
@[simp] theorem movedOn_cpl : (movedOn s).cpl = s.cpl := rfl
@[simp] theorem movedOn_busy : (movedOn s).busy = s.busy := rfl
@[simp] theorem movedOn_done : (movedOn s).done = s.done := rfl
@[simp] theorem movedOn_ovr : (movedOn s).ovr = s.ovr := rfl
@[simp] theorem movedOn_fields : (movedOn s).fields = s.fields := rfl
@[simp] theorem movedOn_len : (movedOn s).len = s.len := rfl
@[simp] theorem movedOn_res : (movedOn s).res = s.res := rfl
@[simp] theorem movedOn_fcsCalc : (movedOn s).fcsCalc = s.fcsCalc := rfl
@[simp] theorem movedOn_fcsRecv : (movedOn s).fcsRecv = s.fcsRecv := rfl
@[simp] theorem movedOn_flen : (movedOn s).flen = s.flen := rfl
@[simp] theorem movedOn_pend : (movedOn s).pend = s.pend := rfl
@[simp] theorem movedOn_buf : (movedOn s).buf = s.buf := rfl
@[simp] theorem movedOn_rstN : (movedOn s).rstN = s.rstN := rfl
@[simp] theorem movedOn_cfg : (movedOn s).cfg = s.cfg := rfl
@[simp] theorem movedOn_host : (movedOn s).host = s.host := rfl
@[simp] theorem movedOn_sched : (movedOn s).sched = s.sched.tail := rfl
@[simp] theorem movedOn_rdata : (movedOn s).rdata = s.rdata := rfl
@[simp] theorem movedOn_draws : (movedOn s).draws = s.draws := rfl

end movedOnFields

end Sys2Proof.Machine
end

