-- ==== Sys2Proof/Laws/Ops.lean ====
section
/-! SUPPORT. One lemma per shared operation: what reading on, writing several bytes, the FCS loop and a completion do. -/

namespace Sys2Proof.Machine

/-- Reading on answers a next state exactly when the read succeeds and what follows answers it. -/
theorem reading_next {α : Type} {r : Except Fault α} {k : α → Result} {t : State} :
    reading r k = .next t ↔ ∃ a, r = .ok a ∧ k a = .next t := by
  cases r <;> simp [reading]

/-- Reading on faults when the read does or what follows does. -/
theorem reading_fault {α : Type} {r : Except Fault α} {k : α → Result} {f : Fault} :
    reading r k = .fault f ↔ r = .error f ∨ ∃ a, r = .ok a ∧ k a = .fault f := by
  cases r <;> simp [reading]

@[simp] theorem reading_ok {α : Type} (a : α) (k : α → Result) : reading (.ok a) k = k a := rfl

@[simp] theorem reading_error {α : Type} (f : Fault) (k : α → Result) : reading (.error f) k = .fault f := rfl

/-- `do` over reads answers a value exactly when every read of it does. -/
theorem except_bind_ok {α β : Type} {r : Except Fault α} {k : α → Except Fault β} {b : β} :
    (r >>= k) = .ok b ↔ ∃ a, r = .ok a ∧ k a = .ok b := by
  cases r <;> simp [bind, Except.bind]

@[simp] theorem ok_bind {α β : Type} (a : α) (k : α → Except Fault β) : (Except.ok a >>= k) = k a := rfl

@[simp] theorem error_bind {α β : Type} (f : Fault) (k : α → Except Fault β) : (Except.error f >>= k) = .error f := rfl

/-- Writing several bytes changes nothing but `BUF`. -/
theorem bufWrites_eq (i : Nat) (vs : List Byte) (s : State) :
    bufWrites i vs s = { s with buf := (bufWrites i vs s).buf } := by
  induction vs generalizing i s with
  | nil => rfl
  | cons v vs ih => rw [bufWrites, ih (i + 1) (bufWrite i v s)]; rfl

/-- What every byte reads as after several bytes were written. -/
theorem bufRead_bufWrites (i : Nat) (vs : List Byte) (s : State) (j : Nat) :
    bufRead (bufWrites i vs s).buf j =
      if h : i ≤ j ∧ j < i + vs.length then .ok (vs[j - i]'(by omega)) else bufRead s.buf j := by
  induction vs generalizing i s with
  | nil => simp [bufWrites]
  | cons v vs ih =>
    rw [bufWrites, ih]
    by_cases hj : j = i
    · subst hj; simp [bufWrite]
    · by_cases h : i ≤ j ∧ j < i + (v :: vs).length
      · have h' : i + 1 ≤ j ∧ j < i + 1 + vs.length := by simp at h; omega
        rw [dif_pos h', dif_pos h]
        have : j - i = (j - (i + 1)) + 1 := by omega
        simp only [this, List.getElem_cons_succ]
      · rw [dif_neg (by simp at h ⊢; omega), dif_neg h]
        simp [bufWrite, bufRead_write_other _ _ hj]

/-- Writing bytes below index 256 keeps the canonical form. -/
theorem wf_bufWrites {i : Nat} {vs : List Byte} {s : State} (hs : s.buf.wf = true) (h : i + vs.length ≤ 256) :
    (bufWrites i vs s).buf.wf = true := by
  induction vs generalizing i s with
  | nil => exact hs
  | cons v vs ih =>
    simp only [List.length_cons] at h
    exact ih (wf_write v hs (by omega)) (by omega)

/-- Written bytes stand where they were written. -/
theorem holds_bufWrites (i : Nat) (vs : List Byte) (s : State) : Holds (bufWrites i vs s).buf i vs := by
  intro k b hk
  obtain ⟨hlt, hb⟩ := List.getElem?_eq_some_iff.mp hk
  rw [bufRead_bufWrites, dif_pos (by omega)]
  simp [hb]

/-- A byte outside the written ones reads as before. -/
theorem bufRead_bufWrites_out {i : Nat} {vs : List Byte} {s : State} {j : Nat} (h : j < i ∨ i + vs.length ≤ j) :
    bufRead (bufWrites i vs s).buf j = bufRead s.buf j := by
  rw [bufRead_bufWrites, dif_neg (by omega)]

/-- One byte of bytes that stand in `BUF`. -/
theorem Holds.read {m : Memory} {lo : Nat} {bs : List Byte} (h : Holds m lo bs) {k : Nat} {b : Byte}
    (hk : bs[k]? = some b) {j : Nat} (hj : j = lo + k) : bufRead m j = .ok b := by
  subst hj; exact h k b hk

/-- Bytes stand where every read of theirs gives what it gave. -/
theorem Holds.congr {m m' : Memory} {lo : Nat} {bs : List Byte} (h : Holds m lo bs)
    (hm : ∀ j, lo ≤ j → j < lo + bs.length → bufRead m' j = bufRead m j) : Holds m' lo bs := by
  intro k b hk
  have : k < bs.length := (List.getElem?_eq_some_iff.mp hk).1
  rw [hm _ (by omega) (by omega)]
  exact h k b hk

/-- Two runs of bytes, one after the other. -/
theorem holds_append {m : Memory} {lo : Nat} {xs ys : List Byte} :
    Holds m lo (xs ++ ys) ↔ Holds m lo xs ∧ Holds m (lo + xs.length) ys := by
  constructor
  · refine fun h => ⟨fun k b hk => h k b ?_, fun k b hk => ?_⟩
    · rw [List.getElem?_append_left (List.getElem?_eq_some_iff.mp hk).1, hk]
    · exact h.read (k := xs.length + k) (by rwa [List.getElem?_append_right (by omega), Nat.add_sub_cancel_left]) (by omega)
  · rintro ⟨h1, h2⟩ k b hk
    by_cases h : k < xs.length
    · exact h1 k b (by rwa [List.getElem?_append_left h] at hk)
    · rw [List.getElem?_append_right (by omega)] at hk
      exact h2.read hk (by omega)

/-- The FCS loop over defined bytes: the 8-bit sum of the accumulator and the bytes. -/
theorem fcsFrom_of_holds {m : Memory} {k : Nat} {bs : List Byte} (acc : Byte) (h : Holds m k bs) :
    fcsFrom m k bs.length acc = .ok (bs.foldl (· + ·) acc) := by
  induction bs generalizing k acc with
  | nil => rfl
  | cons b bs ih =>
    have h0 : bufRead m k = .ok b := h 0 b rfl
    have h1 : Holds m (k + 1) bs := fun j c hj => by
      have := h (j + 1) c hj
      rwa [show k + (j + 1) = k + 1 + j by omega] at this
    simp only [List.length_cons, fcsFrom, h0, List.foldl_cons]
    exact ih (acc + b) h1

/-- When the loop answers, the bytes it covers stand in `BUF`. -/
theorem holds_of_fcsFrom {m : Memory} {k n : Nat} {acc v : Byte} (h : fcsFrom m k n acc = .ok v) :
    ∃ bs : List Byte, bs.length = n ∧ Holds m k bs := by
  induction n generalizing k acc with
  | zero => exact ⟨[], rfl, fun j b hj => by simp at hj⟩
  | succ n ih =>
    rcases bufRead_cases m k with ⟨b, hb⟩ | hb <;> simp only [fcsFrom, hb] at h
    · obtain ⟨bs, hl, hbs⟩ := ih h
      refine ⟨b :: bs, by simp [hl], fun j c hj => ?_⟩
      cases j with
      | zero => simp at hj; subst hj; exact hb
      | succ j =>
        rw [show k + (j + 1) = k + 1 + j by omega]
        exact hbs j c (by simpa using hj)
    · cases h

/-- The loop reads only the bytes it covers. -/
theorem fcsFrom_congr {m m' : Memory} {k n : Nat} (acc : Byte)
    (h : ∀ i, k ≤ i → i < k + n → bufRead m i = bufRead m' i) : fcsFrom m k n acc = fcsFrom m' k n acc := by
  induction n generalizing k acc with
  | zero => rfl
  | succ n ih =>
    simp only [fcsFrom, h k le_rfl (by omega)]
    split
    · exact ih _ fun i h1 h2 => h i (by omega) (by omega)
    · rfl

/-- A completion is the change of `STATUS` and `PEND` alone, `VARIANT` being `NONE` on an error. -/
theorem finish_eq (c : Code) (v : Variant) (p : Bool) (s : State) :
    finish c v p s = onlyStatus c (if c = .ok then v else .none) p s := rfl

/-- The register map below 0x100 is read through `regAt`; an offset from 0x020 on is reserved (R12). -/
theorem regAt_reserved {off : Nat} (h : 0x020 ≤ off) : regAt off = .reserved := by
  unfold regAt; split_ifs <;> first | rfl | omega

end Sys2Proof.Machine
end

