-- ==== Sys2Proof/Laws/Bus.lean ====
section
/-! SUPPORT. What one host access can do, said once. -/

namespace Sys2Proof.Machine

/-- What a 32-bit register write that acts leaves (R12 to R20, R98). -/
def RegisterWrite (off : Offset) (v : Word) (s t : State) : Prop :=
  (off = 0x000 ∧ v.getLsbD 1 = true ∧ t = softReset s) ∨
  (off = 0x000 ∧ v.getLsbD 1 = false ∧ t = { s with ie := v.getLsbD 0 }) ∨
  (off = 0x004 ∧ s.busy = true ∧ t = dropCommand s) ∨
  (off = 0x004 ∧ s.busy = false ∧ t = accept v s) ∨
  (off = 0x008 ∧ t = clearW1C v s) ∨
  (off = 0x00C ∧ s.busy = false ∧ t = { s with fields := v }) ∨
  (off = 0x010 ∧ s.busy = false ∧ t = { s with len := v.extractLsb' 0 9 })

/-- The values a read returns, and the count of free draws. -/
theorem read_changes {a : Access} {s t : State} (ha : (∃ o, a = .r8 o) ∨ (∃ o, a = .r16 o) ∨ (∃ o, a = .r32 o))
    (h : hostAccess a s = .next t) : ∃ d n, t = { s with rdata := some d, draws := n } := by
  have ok : ∀ {d}, Host.Outcome.next (answer d s) = (.next t : Result) →
      ∃ d n, t = { s with rdata := some d, draws := n } := by rintro d ⟨⟩; exact ⟨d, s.draws, rfl⟩
  have draw : ∀ {d n}, Host.Outcome.next { s with rdata := some d, draws := n } = (.next t : Result) →
      ∃ d n, t = { s with rdata := some d, draws := n } := by rintro d n ⟨⟩; exact ⟨d, n, rfl⟩
  unfold hostAccess at h
  obtain ⟨o, rfl⟩ | ⟨o, rfl⟩ | ⟨o, rfl⟩ := ha <;> simp only [accessLive, accessInReset] at h <;> split_ifs at h
  · obtain ⟨b, -, h⟩ := reading_next.mp h
    split_ifs at h
    · exact draw h
    · exact ok h
  · exact ok h
  · exact ok h
  · unfold read32 at h
    split_ifs at h
    · exact draw h
    · exact ok h
    · obtain ⟨w, -, h⟩ := reading_next.mp h; exact draw h
    · obtain ⟨w, -, h⟩ := reading_next.mp h; exact ok h
  · exact ok h

/-- A 32-bit write of a register that answers leaves the state alone or acts as its row of the map says. -/
theorem writeRegister_next {off : Offset} {v : Word} {s t : State}
    (h : writeRegister (regAt off.toNat) off.toNat v s = .next t) : t = s ∨ RegisterWrite off v s t := by
  have eq : ∀ {k : Nat}, off.toNat = k → off = BitVec.ofNat 9 k := by rintro k rfl; simp
  unfold regAt at h
  split_ifs at h with h0 h1 h2 h3 h4 h5 h6 h7 <;> simp only [writeRegister, writeCtrl, writeCmd, unlessBusy] at h
  · cases hv : v.getLsbD 1 <;> simp only [hv, if_true] at h <;> cases h
    · exact .inr (.inr (.inl ⟨eq h0, hv, rfl⟩))
    · exact .inr (.inl ⟨eq h0, hv, rfl⟩)
  · split_ifs at h with hb <;> cases h
    · exact .inr (.inr (.inr (.inl ⟨eq h1, hb, rfl⟩)))
    · exact .inr (.inr (.inr (.inr (.inl ⟨eq h1, by simpa using hb, rfl⟩))))
  · cases h; exact .inr (.inr (.inr (.inr (.inr (.inl ⟨eq h2, rfl⟩)))))
  · split_ifs at h with hb; cases h
    exact .inr (.inr (.inr (.inr (.inr (.inr (.inl ⟨eq h3, by simpa using hb, rfl⟩))))))
  · split_ifs at h with hb; cases h
    exact .inr (.inr (.inr (.inr (.inr (.inr (.inr ⟨eq h4, by simpa using hb, rfl⟩))))))
  all_goals cases h; exact .inl rfl

/-- What a host access that answers can do: return a value, do nothing, write a register, or store bytes of `BUF`. -/
theorem hostAccess_next {a : Access} {s t : State} (h : hostAccess a s = .next t) :
    (∃ d n, t = { s with rdata := some d, draws := n }) ∨ t = s ∨
    (s.rstN = true ∧ ∃ off v, a = .w32 off v ∧ RegisterWrite off v s t) ∨
    (s.rstN = true ∧ s.busy = false ∧ ∃ i vs, i + vs.length ≤ 256 ∧ t = bufWrites i vs s) := by
  cases a with
  | r8 o => exact .inl (read_changes (.inl ⟨o, rfl⟩) h)
  | r16 o => exact .inl (read_changes (.inr (.inl ⟨o, rfl⟩)) h)
  | r32 o => exact .inl (read_changes (.inr (.inr ⟨o, rfl⟩)) h)
  | w8 off v =>
    unfold hostAccess at h
    split_ifs at h with hr
    · simp only [accessLive, write8, unlessBusy, legalAccess, decide_eq_true_eq] at h
      split_ifs at h with hl hb; cases h
      exact .inr (.inr (.inr ⟨hr, by simpa using hb, _, [v], by simp; omega, rfl⟩))
    · cases h; exact .inr (.inl rfl)
  | w16 off v =>
    unfold hostAccess at h
    split_ifs at h with hr
    · cases h
    · cases h; exact .inr (.inl rfl)
  | w32 off v =>
    unfold hostAccess at h
    split_ifs at h with hr
    · simp only [accessLive, write32, unlessBusy, legalAccess, decide_eq_true_eq] at h
      split_ifs at h with hl h0 hb
      · rcases writeRegister_next h with h | h
        · exact .inr (.inl h)
        · exact .inr (.inr (.inl ⟨hr, off, v, rfl, h⟩))
      · cases h
        exact .inr (.inr (.inr ⟨hr, by simpa using hb, _, _, by simp; omega, rfl⟩))
    · cases h; exact .inr (.inl rfl)

end Sys2Proof.Machine
end

