-- ==== Sys2Proof/Laws/Commands.lean ====
section
/-! SUPPORT. What each command can do, said once: the cases in which its meaning answers a next state, and the shape
every completion has. -/

namespace Sys2Proof.Machine

variable {s t : State}

theorem execFcsGen_next {a b : Nat} : execFcsGen a b s = .next t ↔
    (255 < a + b ∧ t = finish .eIllegal .none false s) ∨
    (a + b ≤ 255 ∧ ∃ v, fcs s.buf a b = .ok v ∧
      t = finish .ok .none false (setFcsr v v (bufWrite (a + b) v s))) := by
  unfold execFcsGen
  split_ifs with h
  · simp [@eq_comm _ t, show _ < _ from h, Nat.not_le.mpr h]
  · simp [reading_next, @eq_comm _ t, h, Nat.not_lt.mp h, -gt_iff_lt, -not_lt]

theorem execFcsChk_next {a b : Nat} : execFcsChk a b s = .next t ↔
    (255 < a + b ∧ t = finish .eIllegal .none false s) ∨
    (a + b ≤ 255 ∧ ∃ v r, fcs s.buf a b = .ok v ∧ bufRead s.buf (a + b) = .ok r ∧
      t = finish (if v = r then .ok else .eChecksum) .none false (setFcsr v r s)) := by
  unfold execFcsChk
  split_ifs with h
  · simp [@eq_comm _ t, show _ < _ from h, Nat.not_le.mpr h]
  · simp [reading_next, @eq_comm _ t, h, Nat.not_lt.mp h, -gt_iff_lt, -not_lt]

theorem execClassify_next : execClassify s = .next t ↔
    (256 < s.len.toNat ∧ t = finish .eIllegal .none false s) ∨
    (s.len.toNat ≤ 256 ∧ ∃ r, classifyFrame s.len.toNat s.buf = .ok r ∧ t = finish r.1 r.2 false s) := by
  unfold execClassify
  split_ifs with h
  · simp [@eq_comm _ t, show _ < _ from h, Nat.not_le.mpr h]
  · simp [reading_next, @eq_comm _ t, h, Nat.not_lt.mp h, -gt_iff_lt, -not_lt]

theorem execMeasure_next : execMeasure s = .next t ↔
    (256 < s.len.toNat ∧ t = finish .eIllegal .none false s) ∨
    (s.len.toNat ≤ 256 ∧ ∃ r, measureFrame (leOffsetOf s.cfg) s.len.toNat s.buf = .ok r ∧
      t = finish r.1 r.2.1 (measureCpl r.1 r.2.2 s.len.toNat) { s with flen := BitVec.ofNat 9 r.2.2 }) := by
  unfold execMeasure
  split_ifs with h
  · simp [@eq_comm _ t, show _ < _ from h, Nat.not_le.mpr h]
  · simp [reading_next, @eq_comm _ t, h, Nat.not_lt.mp h, -gt_iff_lt, -not_lt]

theorem execDecode_next : execDecode s = .next t ↔
    (256 < s.len.toNat ∧ t = finish .eIllegal .none false s) ∨
    (s.len.toNat ≤ 256 ∧ ∃ r, decodeFrame (leOffsetOf s.cfg) s.len.toNat s.buf = .ok r ∧ t = finishDecode r s) := by
  unfold execDecode
  split_ifs with h
  · simp [@eq_comm _ t, show _ < _ from h, Nat.not_le.mpr h]
  · simp [reading_next, @eq_comm _ t, h, Nat.not_lt.mp h, -gt_iff_lt, -not_lt]

theorem encodeFramed_next {v : Variant} {n : Nat} {header : List Byte} :
    encodeFramed v n header s = .next t ↔
    ∃ x, fcs (bufWrites 0 header s).buf (fcsStart v) (fcsCount n) = .ok x ∧
      t = finishEncoder v (explen v n) x (bufWrites (fcsIndex v n) [x, edByte] (bufWrites 0 header s)) := by
  simp [encodeFramed, reading_next, @eq_comm _ t]

/-- What the frame a payload length selects looks like: bytes of the header before the payload. -/
def headerOf : Instr → State → List Byte
  | .encToken, s => [sdToken, fieldsDa s, fieldsSa s]
  | .encSc, _ => [scByte]
  | .encFix0, s => [sdFix0, fieldsDa s, fieldsSa s, fieldsFc s]
  | .encFix8, s => [sdFix8, fieldsDa s, fieldsSa s, fieldsFc s]
  | .encVar, s =>
    let le := leByte (leOffsetOf s.cfg) (fieldsN s)
    [sdVar, le, le, fieldsDa s, fieldsSa s, fieldsFc s]
  | _, _ => []

theorem execEncToken_next : execEncToken s = .next t ↔
    (legalN .token (fieldsN s) = false ∧ t = finish .eMalformed .none false s) ∨
    (legalN .token (fieldsN s) = true ∧
      t = finishEncoder .token (explen .token 0) 0 (bufWrites 0 (headerOf .encToken s) s)) := by
  unfold execEncToken rejectN headerOf
  split_ifs with h <;> simp [h, @eq_comm _ t]

theorem execEncSc_next : execEncSc s = .next t ↔
    (legalN .sc (fieldsN s) = false ∧ t = finish .eMalformed .none false s) ∨
    (legalN .sc (fieldsN s) = true ∧
      t = finishEncoder .sc (explen .sc 0) 0 (bufWrites 0 (headerOf .encSc s) s)) := by
  unfold execEncSc rejectN headerOf
  split_ifs with h <;> simp [h, @eq_comm _ t]

theorem execEncFix0_next : execEncFix0 s = .next t ↔
    (legalN .fix0 (fieldsN s) = false ∧ t = finish .eMalformed .none false s) ∨
    (legalN .fix0 (fieldsN s) = true ∧ encodeFramed .fix0 0 (headerOf .encFix0 s) s = .next t) := by
  unfold execEncFix0 rejectN headerOf
  split_ifs with h <;> simp [h, @eq_comm _ t]

theorem execEncFix8_next : execEncFix8 s = .next t ↔
    (legalN .fix8 (fieldsN s) = false ∧ t = finish .eMalformed .none false s) ∨
    (legalN .fix8 (fieldsN s) = true ∧ encodeFramed .fix8 8 (headerOf .encFix8 s) s = .next t) := by
  unfold execEncFix8 rejectN headerOf
  split_ifs with h <;> simp [h, @eq_comm _ t]

theorem execEncVar_next : execEncVar s = .next t ↔
    (legalN .var (fieldsN s) = false ∧ t = finish .eMalformed .none false s) ∨
    (legalN .var (fieldsN s) = true ∧ encodeFramed .var (fieldsN s) (headerOf .encVar s) s = .next t) := by
  unfold execEncVar rejectN headerOf
  split_ifs with h <;> simp [h, @eq_comm _ t]

/-- Every completion: some state that differs from `s` in the result registers and `BUF` alone, finished. -/
theorem exec_next_shape {i : Instr} (h : exec i s = .next t) :
    ∃ c v p u, t = finish c v p u ∧
      u = { s with buf := u.buf, len := u.len, res := u.res, fcsCalc := u.fcsCalc, fcsRecv := u.fcsRecv,
                   flen := u.flen } := by
  have framed : ∀ {v n hd}, encodeFramed v n hd s = .next t → ∃ c v p u, t = finish c v p u ∧
      u = { s with buf := u.buf, len := u.len, res := u.res, fcsCalc := u.fcsCalc, fcsRecv := u.fcsRecv,
                   flen := u.flen } := by
    intro v n hd h
    obtain ⟨x, -, rfl⟩ := encodeFramed_next.mp h
    refine ⟨_, _, _, _, rfl, ?_⟩
    rw [bufWrites_eq (fcsIndex v n), bufWrites_eq 0]
    rfl
  cases i with
  | classify => obtain ⟨-, rfl⟩ | ⟨-, r, -, rfl⟩ := execClassify_next.mp h <;> exact ⟨_, _, _, _, rfl, rfl⟩
  | measure => obtain ⟨-, rfl⟩ | ⟨-, r, -, rfl⟩ := execMeasure_next.mp h <;> exact ⟨_, _, _, _, rfl, rfl⟩
  | decode =>
    obtain ⟨-, rfl⟩ | ⟨-, r, -, rfl⟩ := execDecode_next.mp h
    · exact ⟨_, _, _, _, rfl, rfl⟩
    · cases r <;> exact ⟨_, _, _, _, rfl, rfl⟩
  | encToken =>
    obtain ⟨-, rfl⟩ | ⟨-, rfl⟩ := execEncToken_next.mp h
    · exact ⟨_, _, _, _, rfl, rfl⟩
    · exact ⟨_, _, _, _, rfl, by rw [bufWrites_eq]; rfl⟩
  | encSc =>
    obtain ⟨-, rfl⟩ | ⟨-, rfl⟩ := execEncSc_next.mp h
    · exact ⟨_, _, _, _, rfl, rfl⟩
    · exact ⟨_, _, _, _, rfl, by rw [bufWrites_eq]; rfl⟩
  | encFix0 =>
    obtain ⟨-, rfl⟩ | ⟨-, h⟩ := execEncFix0_next.mp h
    · exact ⟨_, _, _, _, rfl, rfl⟩
    · exact framed h
  | encFix8 =>
    obtain ⟨-, rfl⟩ | ⟨-, h⟩ := execEncFix8_next.mp h
    · exact ⟨_, _, _, _, rfl, rfl⟩
    · exact framed h
  | encVar =>
    obtain ⟨-, rfl⟩ | ⟨-, h⟩ := execEncVar_next.mp h
    · exact ⟨_, _, _, _, rfl, rfl⟩
    · exact framed h
  | fcsGen a b => obtain ⟨-, rfl⟩ | ⟨-, v, -, rfl⟩ := execFcsGen_next.mp h <;> exact ⟨_, _, _, _, rfl, rfl⟩
  | fcsChk a b => obtain ⟨-, rfl⟩ | ⟨-, v, r, -, -, rfl⟩ := execFcsChk_next.mp h <;> exact ⟨_, _, _, _, rfl, rfl⟩

/-- The step is the next move, made on the state with that move taken off the schedule. -/
theorem step_eq (s : State) : step s = takeMove (nextMove s) (movedOn s) := by
  unfold step nextMove movedOn
  cases h : s.sched with
  | nil => simp only [List.tail_nil]; congr 1; cases s; simp_all
  | cons m ms => rfl

end Sys2Proof.Machine
end

