-- ==== Sys2Proof/Laws/Words.lean ====
section
/-! SUPPORT. Packing four bytes into a word and taking a byte out are inverse. -/

namespace Sys2Proof

@[simp] theorem byteAt_packWord_zero (b3 b2 b1 b0 : Byte) : byteAt (packWord b3 b2 b1 b0) 0 = b0 := by
  ext i hi
  simp only [byteAt, packWord, BitVec.getElem_extractLsb', BitVec.getLsbD_append]
  rw [if_pos (by omega)]
  simp [BitVec.getLsbD_eq_getElem, hi]

@[simp] theorem byteAt_packWord_one (b3 b2 b1 b0 : Byte) : byteAt (packWord b3 b2 b1 b0) 1 = b1 := by
  ext i hi
  simp only [byteAt, packWord, BitVec.getElem_extractLsb', BitVec.getLsbD_append]
  rw [if_neg (by omega), if_pos (by omega)]
  simp [BitVec.getLsbD_eq_getElem, hi]

@[simp] theorem byteAt_packWord_two (b3 b2 b1 b0 : Byte) : byteAt (packWord b3 b2 b1 b0) 2 = b2 := by
  ext i hi
  simp only [byteAt, packWord, BitVec.getElem_extractLsb', BitVec.getLsbD_append]
  rw [if_neg (by omega), if_neg (by omega), if_pos (by omega), show 8 * 2 + i - 8 - 8 = i by omega]
  simp [BitVec.getLsbD_eq_getElem, hi]

@[simp] theorem byteAt_packWord_three (b3 b2 b1 b0 : Byte) : byteAt (packWord b3 b2 b1 b0) 3 = b3 := by
  ext i hi
  simp only [byteAt, packWord, BitVec.getElem_extractLsb', BitVec.getLsbD_append]
  rw [if_neg (by omega), if_neg (by omega), if_neg (by omega), show 8 * 3 + i - 8 - 8 - 8 = i by omega]
  simp [BitVec.getLsbD_eq_getElem, hi]

@[simp] theorem packWord_byteAt (w : Word) :
    packWord (byteAt w 3) (byteAt w 2) (byteAt w 1) (byteAt w 0) = w := by
  ext i hi
  rw [← BitVec.getLsbD_eq_getElem, ← BitVec.getLsbD_eq_getElem]
  simp only [byteAt, packWord, BitVec.getLsbD_append, BitVec.getLsbD_extractLsb']
  split_ifs <;> (rw [decide_eq_true (by omega), Bool.true_and]; congr 1; omega)

/-- Two words with the same four bytes are one word. -/
theorem word_ext_bytes {v w : Word} (h0 : byteAt v 0 = byteAt w 0) (h1 : byteAt v 1 = byteAt w 1)
    (h2 : byteAt v 2 = byteAt w 2) (h3 : byteAt v 3 = byteAt w 3) : v = w := by
  rw [← packWord_byteAt v, ← packWord_byteAt w, h0, h1, h2, h3]

end Sys2Proof
end

