-- ==== Sys2Proof/Laws/Decode.lean ====
section
/-! SUPPORT. What the decoder can answer, said once, and when a word has a given format. -/

namespace Sys2Proof

/-- The decoder's cases: the ten values of `OPC`, and none of them. -/
theorem decodeWord_cases (w : Word) :
    (byteAt w 0 = 0x01#8 ∧ decodeWord w = formatN w .classify) ∨
    (byteAt w 0 = 0x02#8 ∧ decodeWord w = formatN w .measure) ∨
    (byteAt w 0 = 0x03#8 ∧ decodeWord w = formatN w .decode) ∨
    (byteAt w 0 = 0x10#8 ∧ decodeWord w = formatN w .encToken) ∨
    (byteAt w 0 = 0x11#8 ∧ decodeWord w = formatN w .encSc) ∨
    (byteAt w 0 = 0x12#8 ∧ decodeWord w = formatN w .encFix0) ∨
    (byteAt w 0 = 0x13#8 ∧ decodeWord w = formatN w .encFix8) ∨
    (byteAt w 0 = 0x14#8 ∧ decodeWord w = formatN w .encVar) ∨
    (byteAt w 0 = 0x20#8 ∧ decodeWord w = formatR w .fcsGen) ∨
    (byteAt w 0 = 0x21#8 ∧ decodeWord w = formatR w .fcsChk) ∨
    (byteAt w 0 ∉ [0x01#8, 0x02#8, 0x03#8, 0x10#8, 0x11#8, 0x12#8, 0x13#8, 0x14#8, 0x20#8, 0x21#8] ∧
      decodeWord w = .illegal .unassignedOpc) := by
  unfold decodeWord
  generalize byteAt w 0 = c
  by_cases h1 : c = 0x01#8; · subst h1; simp
  by_cases h2 : c = 0x02#8; · subst h2; simp
  by_cases h3 : c = 0x03#8; · subst h3; simp
  by_cases h4 : c = 0x10#8; · subst h4; simp
  by_cases h5 : c = 0x11#8; · subst h5; simp
  by_cases h6 : c = 0x12#8; · subst h6; simp
  by_cases h7 : c = 0x13#8; · subst h7; simp
  by_cases h8 : c = 0x14#8; · subst h8; simp
  by_cases h9 : c = 0x20#8; · subst h9; simp
  by_cases h10 : c = 0x21#8; · subst h10; simp
  simp [*]

/-- A word whose bits 31:8 are 0 is its lowest byte. -/
theorem word_of_low_byte {w : Word} (h : w.extractLsb' 8 24 = 0#24) : w = packWord 0 0 0 (byteAt w 0) := by
  have key : ∀ k, 1 ≤ k → k < 4 → byteAt w k = 0#8 := by
    intro k h1 h2
    ext i hi
    have := congrArg (fun v : BitVec 24 => v.getLsbD (8 * k - 8 + i)) h
    simp only [byteAt, BitVec.getElem_extractLsb', BitVec.getLsbD_extractLsb'] at this ⊢
    rw [decide_eq_true (by omega), Bool.true_and, show 8 + (8 * k - 8 + i) = 8 * k + i by omega] at this
    simpa using this
  apply word_ext_bytes <;> simp [key]

end Sys2Proof
end

