-- ==== Sys2Proof/Laws/Decoder.lean ====
section
/-! SUPPORT. What the decoder can answer when no read stops it, said once. -/

namespace Sys2Proof.Machine

variable {v : Variant} {n off len : Nat} {m : Memory} {r : DecodeResult}

/-- The three outcomes of the checks on a frame with an FCS, with the reads each rests on. -/
theorem decodeFramed_cases (h : decodeFramed v n len m = .ok r) :
    r = .framing ∨
    (len = edIndex v n + 1 ∧ bufRead m (edIndex v n) = .ok edByte ∧
      ∃ cv rv, fcs m (fcsStart v) (fcsCount n) = .ok cv ∧ bufRead m (fcsIndex v n) = .ok rv ∧
        (cv ≠ rv ∧ r = .checksum cv rv ∨
          cv = rv ∧ ∃ da sa fc, bufRead m (fcsStart v) = .ok da ∧ bufRead m (fcsStart v + 1) = .ok sa ∧
            bufRead m (fcsStart v + 2) = .ok fc ∧ r = .ok v da sa fc n (some (cv, rv)))) := by
  unfold decodeFramed at h
  by_cases hl : len = edIndex v n + 1
  swap
  · rw [if_pos hl] at h; cases h; exact .inl rfl
  rw [if_neg (not_not.mpr hl)] at h
  obtain ⟨ed, hed, h⟩ := except_bind_ok.mp h
  by_cases he : ed = edByte
  swap
  · rw [if_pos he] at h; cases h; exact .inl rfl
  rw [if_neg (not_not.mpr he)] at h
  obtain ⟨cv, hcv, h⟩ := except_bind_ok.mp h
  obtain ⟨rv, hrv, h⟩ := except_bind_ok.mp h
  refine .inr ⟨hl, he ▸ hed, cv, rv, hcv, hrv, ?_⟩
  by_cases hx : cv = rv
  swap
  · rw [if_pos hx] at h; cases h; exact .inl ⟨hx, rfl⟩
  rw [if_neg (not_not.mpr hx)] at h
  obtain ⟨da, hda, h⟩ := except_bind_ok.mp h
  obtain ⟨sa, hsa, h⟩ := except_bind_ok.mp h
  obtain ⟨fc, hfc, h⟩ := except_bind_ok.mp h
  cases h
  exact .inr ⟨hx, da, sa, fc, hda, hsa, hfc, rfl⟩

/-- The start delimiter a variant other than `NONE` stands for is its own byte. -/
theorem sdVariant_cases (b : Byte) :
    (b = sdToken ∧ sdVariant b = .token) ∨ (b = scByte ∧ sdVariant b = .sc) ∨ (b = sdFix0 ∧ sdVariant b = .fix0) ∨
    (b = sdFix8 ∧ sdVariant b = .fix8) ∨ (b = sdVar ∧ sdVariant b = .var) ∨ sdVariant b = .none := by
  unfold sdVariant
  split_ifs with h1 h2 h3 h4 h5 <;> simp [*]

/-- What the decode function answers, by the first byte. -/
theorem decodeFrame_cases (h : decodeFrame off len m = .ok r) :
    r = .malformed ∨
    (len = 3 ∧ bufRead m 0 = .ok sdToken ∧
      ∃ da sa, bufRead m 1 = .ok da ∧ bufRead m 2 = .ok sa ∧ r = .ok .token da sa 0 0 none) ∨
    (len = 1 ∧ bufRead m 0 = .ok scByte ∧ r = .ok .sc 0 0 0 0 none) ∨
    (bufRead m 0 = .ok sdFix0 ∧ decodeFramed .fix0 0 len m = .ok r) ∨
    (bufRead m 0 = .ok sdFix8 ∧ decodeFramed .fix8 8 len m = .ok r) ∨
    (3 ≤ len ∧ bufRead m 0 = .ok sdVar ∧ ∃ le ler n, bufRead m 1 = .ok le ∧ bufRead m 2 = .ok ler ∧
      varPayload off le ler = some n ∧ decodeFramed .var n len m = .ok r) := by
  unfold decodeFrame at h
  by_cases h0 : len = 0
  · rw [if_pos h0] at h; cases h; exact .inl rfl
  rw [if_neg h0] at h
  obtain ⟨b0, hb0, h⟩ := except_bind_ok.mp h
  obtain ⟨hb, hv⟩ | ⟨hb, hv⟩ | ⟨hb, hv⟩ | ⟨hb, hv⟩ | ⟨hb, hv⟩ | hv := sdVariant_cases b0 <;> simp only [hv] at h
  · by_cases hl : len = 3
    swap
    · rw [if_pos hl] at h; cases h; exact .inl rfl
    rw [if_neg (not_not.mpr hl)] at h
    obtain ⟨da, hda, h⟩ := except_bind_ok.mp h
    obtain ⟨sa, hsa, h⟩ := except_bind_ok.mp h
    cases h
    exact .inr (.inl ⟨hl, hb ▸ hb0, da, sa, hda, hsa, rfl⟩)
  · by_cases hl : len = 1
    swap
    · rw [if_pos hl] at h; cases h; exact .inl rfl
    rw [if_neg (not_not.mpr hl)] at h
    cases h
    exact .inr (.inr (.inl ⟨hl, hb ▸ hb0, rfl⟩))
  · exact .inr (.inr (.inr (.inl ⟨hb ▸ hb0, h⟩)))
  · exact .inr (.inr (.inr (.inr (.inl ⟨hb ▸ hb0, h⟩))))
  · by_cases hl : len < 3
    · rw [if_pos hl] at h; cases h; exact .inl rfl
    rw [if_neg hl] at h
    obtain ⟨le, hle, h⟩ := except_bind_ok.mp h
    obtain ⟨ler, hler, h⟩ := except_bind_ok.mp h
    cases hp : varPayload off le ler with
    | none => rw [hp] at h; cases h; exact .inl rfl
    | some n =>
      rw [hp] at h
      exact .inr (.inr (.inr (.inr (.inr ⟨by omega, hb ▸ hb0, le, ler, n, hle, hler, hp, h⟩))))
  · cases h; exact .inl rfl

end Sys2Proof.Machine
end

