-- ==== Sys2Proof/Laws/PerInstr.lean ====
section
/-! SUPPORT. The family `Assembles`: what the assembler of 30_encoding.md R59 gives for each command. -/

namespace Sys2Proof

/-- The operands an assembler line of the command carries (R59). -/
def operandsOf : Instr → List Nat
  | .fcsGen a b => [a, b]
  | .fcsChk a b => [a, b]
  | .classify | .measure | .decode | .encToken | .encSc | .encFix0 | .encFix8 | .encVar => []

/-- The assembler, given a well-formed command's mnemonic and operands, gives the command's word. -/
def Laws.Assembles.Statement (i : Instr) : Prop :=
  i.wellFormed = true → assemble (mnemonicOf i) (operandsOf i) = some (encode i)

theorem Laws.Assembles.classify : Laws.Assembles.Statement .classify := fun _ => rfl
theorem Laws.Assembles.measure : Laws.Assembles.Statement .measure := fun _ => rfl
theorem Laws.Assembles.decode : Laws.Assembles.Statement .decode := fun _ => rfl
theorem Laws.Assembles.encToken : Laws.Assembles.Statement .encToken := fun _ => rfl
theorem Laws.Assembles.encSc : Laws.Assembles.Statement .encSc := fun _ => rfl
theorem Laws.Assembles.encFix0 : Laws.Assembles.Statement .encFix0 := fun _ => rfl
theorem Laws.Assembles.encFix8 : Laws.Assembles.Statement .encFix8 := fun _ => rfl
theorem Laws.Assembles.encVar : Laws.Assembles.Statement .encVar := fun _ => rfl

theorem Laws.Assembles.fcsGen (a b : Nat) : Laws.Assembles.Statement (.fcsGen a b) :=
  fun h => by simp [mnemonicOf, operandsOf, assemble, h]

theorem Laws.Assembles.fcsChk (a b : Nat) : Laws.Assembles.Statement (.fcsChk a b) :=
  fun h => by simp [mnemonicOf, operandsOf, assemble, h]

end Sys2Proof
end

