-- ==== Sys2Proof/Laws/Steps.lean ====
section
/-! SUPPORT. What one step can do, said once, by the move it makes. -/

namespace Sys2Proof.Machine

variable {s t : State}

/-- The codec agent's step on a pending word answers by its command's meaning, or is the completion of an illegal word. -/
theorem runWord_next {w : Word} (h : runWord w s = .next t) :
    (∃ i, decodeWord w = .instr i ∧ exec i s = .next t) ∨
    ((∃ why, decodeWord w = .illegal why) ∧ t = finish .eIllegal .none false s) := by
  unfold runWord at h
  cases hd : decodeWord w with
  | instr i => rw [hd] at h; exact .inl ⟨i, rfl, h⟩
  | illegal why => rw [hd] at h; cases h; exact .inr ⟨⟨why, rfl⟩, rfl⟩

/-- What a step that answers has done. -/
theorem step_next (h : step s = .next t) :
    t = movedOn s ∨
    (nextMove s = .codec ∧ s.rstN = true ∧ ∃ w, s.pend = some w ∧ runWord w (movedOn s) = .next t) ∨
    (nextMove s = .host ∧ ∃ rest, s.host = .wait :: rest ∧ t = pollStatus (movedOn s) rest) ∨
    (∃ a rest, nextAccess s = some a ∧ hostAccess a { movedOn s with host := rest } = .next t) ∨
    (∃ level, nextMove s = .rst level ∧ t = driveRst level (movedOn s)) := by
  rw [step_eq] at h
  cases hm : nextMove s with
  | codec =>
    simp only [hm, takeMove, codecTurn] at h
    cases hp : s.pend with
    | none => simp only [show (movedOn s).pend = none from hp] at h; cases h; exact .inl rfl
    | some w =>
      simp only [show (movedOn s).pend = some w from hp] at h
      split_ifs at h with hr
      · exact .inr (.inl ⟨rfl, hr, w, rfl, h⟩)
      · cases h; exact .inl rfl
  | host =>
    simp only [hm, takeMove, hostTurn] at h
    cases hh : s.host with
    | nil => simp only [show (movedOn s).host = [] from hh] at h; cases h; exact .inl rfl
    | cons op rest =>
      simp only [show (movedOn s).host = op :: rest from hh] at h
      cases op with
      | wait => cases h; exact .inr (.inr (.inl ⟨rfl, rest, rfl, rfl⟩))
      | access a => exact .inr (.inr (.inr (.inl ⟨a, rest, by simp [nextAccess, hm, hh], h⟩)))
  | rst level =>
    rw [hm] at h
    cases h
    exact .inr (.inr (.inr (.inr ⟨level, rfl, rfl⟩)))

end Sys2Proof.Machine
end

