-- ==== Sys2Proof/Tests/Slice0.lean ====
section
/-! SUPPORT. Tests of single steps against the vectors of 95_test_vectors.md and the encodings of 30_encoding.md, and a
witness for the hypotheses of each statement. -/

namespace Sys2Proof.Tests

open Sys2Proof Sys2Proof.Machine

/-! ### Helpers -/

/-- The start state of a vector: reset, with the listed bytes from index `lo` on, `FIELDS`, `LEN` and `LE_OFFSET`. -/
def vector (lo : Nat) (bytes : List Byte) (fields : Word := 0) (len : BitVec 9 := 0)
    (off : LeOffset := .fcsCovered) : State :=
  bufWrites lo bytes { State.reset with fields := fields, len := len, cfg := ⟨off⟩ }

/-- `vector` with the command word issued, the codec agent to move next. -/
def issued (w : Nat) (s : State) : State := s.withFetchWord 32 w

def nextOf : Result → Option State
  | .next t => some t
  | .fault _ => none
  | .refused _ => none

def faultOf : Result → Option Fault
  | .next _ => none
  | .fault f => some f
  | .refused _ => none

/-- `STATUS`, `RES`, `FCSR`, `LEN` and `FLEN` after a step. -/
def registersOf (r : Result) : Option (Word × Word × Word × Nat × Nat) :=
  (nextOf r).map fun t => (statusWord t, t.res, fcsrWord t, t.len.toNat, t.flen.toNat)

/-- The defined bytes of `BUF` after a step, from index 0 on when nothing else is defined. -/
def bytesOf (r : Result) : Option (List (Nat × Byte)) := (nextOf r).map (·.buf)

/-- `Holds`, computed. -/
def holdsB (m : Memory) : Nat → List Byte → Bool
  | _, [] => true
  | lo, b :: bs => decide (m.byte? lo = some b) && holdsB m (lo + 1) bs

theorem holds_of {m : Memory} {lo : Nat} {bs : List Byte} (h : holdsB m lo bs = true) : Holds m lo bs := by
  induction bs generalizing lo with
  | nil => intro k b hk; simp at hk
  | cons c bs ih =>
    simp only [holdsB, Bool.and_eq_true, decide_eq_true_eq] at h
    intro k b hk
    cases k with
    | zero => simp only [List.getElem?_cons_zero, Option.some.injEq] at hk; subst hk; simp [bufRead, h.1]
    | succ k => exact (ih h.2).read (k := k) (by simpa using hk) (by omega)

/-- The frame of the source's scenario (W1). -/
def frameW1 : List Byte := [0xA2, 0x03, 0x07, 0x7C, 0xAA, 0xAA, 0xAA, 0xAA, 0xAA, 0xAA, 0xAA, 0xAA, 0xD6, 0x16]
/-- The frame of V-DEC-7. -/
def frameFix0 : List Byte := [0xDC, 0x03, 0x07, 0x5D, 0x67, 0x16]
/-- The frame of V-DEC-13. -/
def frameVar : List Byte := [0x68, 0x04, 0x04, 0x02, 0x01, 0x6D, 0x01, 0x71, 0x16]
/-- The longest frame, of V-ENC-18 with a payload of zeros: DA 0x7F, SA 0x01, FC 0x08, FCS 0x88. -/
def frameLongest : List Byte :=
  [0x68, 0xF9, 0xF9, 0x7F, 0x01, 0x08] ++ List.replicate 246 0x00 ++ [0x88, 0x16]

/-! ### Decoding: words written out from R55 and R56 -/

theorem test_decode_classify : decodeWord 0b00000000_00000000_00000000_00000001#32 = .instr .classify := by decide
theorem test_decode_measure : decodeWord 0b00000000_00000000_00000000_00000010#32 = .instr .measure := by decide
theorem test_decode_decode : decodeWord 0b00000000_00000000_00000000_00000011#32 = .instr .decode := by decide
theorem test_decode_encToken : decodeWord 0b00000000_00000000_00000000_00010000#32 = .instr .encToken := by decide
theorem test_decode_encSc : decodeWord 0b00000000_00000000_00000000_00010001#32 = .instr .encSc := by decide
theorem test_decode_encFix0 : decodeWord 0b00000000_00000000_00000000_00010010#32 = .instr .encFix0 := by decide
theorem test_decode_encFix8 : decodeWord 0b00000000_00000000_00000000_00010011#32 = .instr .encFix8 := by decide
theorem test_decode_encVar : decodeWord 0b00000000_00000000_00000000_00010100#32 = .instr .encVar := by decide
/-- R59: `FCS.GEN 1, 11` is 0x000B0120. -/
theorem test_decode_fcsGen : decodeWord 0b00000000_00001011_00000001_00100000#32 = .instr (.fcsGen 1 11) := by decide
/-- V-FCS-1's range with `FCS.CHK`: 0x00030121. -/
theorem test_decode_fcsChk : decodeWord 0b00000000_00000011_00000001_00100001#32 = .instr (.fcsChk 1 3) := by decide
theorem test_encode_fcsGen : encode (.fcsGen 200 56) = 0x0038C820 := by decide
theorem test_tableWord : decodeTableWord 32 0x00FF0021 = some (.fcsChk 0 255) := by decide
theorem test_tableWord_illegal : decodeTableWord 32 0x01030120 = none := by decide
/-- The illegal words of V-PRO-6. -/
theorem test_illegal_words :
    [0x00000000, 0x00000004, 0x00000100, 0x000000FF, 0x00000015, 0x00000022].all
      (fun w => decide (decodeWord w = .illegal .unassignedOpc)) = true ∧
    decodeWord 0x00000103 = .illegal .formatNBits ∧ decodeWord 0x01000020 = .illegal .formatRBits := by decide

/-! ### Well-formedness -/

theorem test_wf_operands : (Instr.fcsGen 255 255).wellFormed = true ∧ (Instr.fcsChk 0 255).wellFormed = true := by decide
theorem test_wf_refuses_genA : (Instr.fcsGen 256 0).wellFormed = false := by decide
theorem test_wf_refuses_genB : (Instr.fcsGen 0 256).wellFormed = false := by decide
theorem test_wf_refuses_chkA : (Instr.fcsChk 256 0).wellFormed = false := by decide
theorem test_wf_refuses_chkB : (Instr.fcsChk 0 256).wellFormed = false := by decide

/-! ### One step per command, from the vectors -/

/-- V-CLS-7. -/
theorem test_classify_var :
    registersOf (step (issued 0x01 (vector 0 frameVar 0 9))) = some (0x00020500, 0, 0, 9, 0) := by decide
/-- V-CLS-4. -/
theorem test_classify_sc_long :
    registersOf (step (issued 0x01 (vector 0 [0xE5, 0xE5] 0 2))) = some (0x000200FE, 0, 0, 2, 0) := by decide
/-- V-MEA-12. -/
theorem test_measure_longest :
    registersOf (step (issued 0x02 (vector 0 [0x68, 0xF9, 0xF9] 0 3))) = some (0x00020500, 0, 0, 3, 254) := by decide
/-- V-MEA-16. -/
theorem test_measure_complete :
    registersOf (step (issued 0x02 (vector 0 (frameVar ++ [0xE5]) 0 10))) = some (0x00020D00, 0, 0, 10, 9) := by decide
/-- V-DEC-1. -/
theorem test_decode_scenario :
    registersOf (step (issued 0x03 (vector 0 frameW1 0 14))) = some (0x00020400, 0x087C0703, 0xD6D6, 14, 14) := by decide
/-- V-DEC-11. -/
theorem test_decode_wrong_fcs :
    registersOf (step (issued 0x03 (vector 0 [0xDC, 0x03, 0x07, 0x5D, 0x68, 0x16] 0 6))) =
      some (0x000200FD, 0, 0x6867, 6, 0) := by decide
/-- V-ENC-2. -/
theorem test_encToken_ignores_fc :
    bytesOf (step (issued 0x10 (vector 0 [] 0x00770102))) = some [(0, 0x10), (1, 0x02), (2, 0x01)] := by decide
/-- V-ENC-3. -/
theorem test_encToken_rejects :
    registersOf (step (issued 0x10 (vector 0 [] 0x01000102))) = some (0x000200FE, 0, 0, 0, 0) := by decide
/-- V-ENC-5. -/
theorem test_encSc : registersOf (step (issued 0x11 (vector 0 [] 0x00563412))) = some (0x00020200, 0, 0, 1, 1) := by decide
/-- V-ENC-6. -/
theorem test_encSc_rejects : bytesOf (step (issued 0x11 (vector 0 [] 0x08000000))) = some [] := by decide
/-- V-ENC-8. -/
theorem test_encFix0_wraps :
    bytesOf (step (issued 0x12 (vector 0 [] 0x00FFFFFF))) =
      some [(0, 0xDC), (1, 0xFF), (2, 0xFF), (3, 0xFF), (4, 0xFD), (5, 0x16)] := by decide
/-- V-ENC-7. -/
theorem test_encFix0 :
    registersOf (step (issued 0x12 (vector 0 [] 0x005D0703))) = some (0x00020300, 0, 0x6767, 6, 6) := by decide
/-- V-ENC-11. -/
theorem test_encFix8_scenario :
    (bytesOf (step (issued 0x13 (vector 4 (List.replicate 8 0xAA) 0x087C0703)))).map (List.map Prod.snd) =
      some frameW1 := by decide
/-- V-ENC-20. -/
theorem test_encFix8_undefined :
    faultOf (step (issued 0x13 (vector 4 (List.replicate 7 0xAA) 0x087C0703))) = some (.undefinedBufRead 11) := by decide
/-- V-ENC-14. -/
theorem test_encVar :
    (bytesOf (step (issued 0x14 (vector 6 [0x01] 0x016D0102)))).map (List.map Prod.snd) = some frameVar := by decide
/-- V-ENC-19. -/
theorem test_encVar_payload_only :
    (bytesOf (step (issued 0x14 (vector 6 [0x01] 0x016D0102 0 .payloadOnly)))).map (List.map Prod.snd) =
      some [0x68, 0x01, 0x01, 0x02, 0x01, 0x6D, 0x01, 0x71, 0x16] := by decide
/-- V-FCS-1. -/
theorem test_fcsGen :
    (registersOf (step (issued 0x00030120 (vector 1 [0x03, 0x07, 0x5D]))) = some (0x00020000, 0, 0x6767, 0, 0)) ∧
    bytesOf (step (issued 0x00030120 (vector 1 [0x03, 0x07, 0x5D]))) =
      some [(1, 0x03), (2, 0x07), (3, 0x5D), (4, 0x67)] := by decide
/-- V-FCS-8. -/
theorem test_fcsGen_illegal :
    registersOf (step (issued 0x0038C820 (vector 0 []))) = some (0x000200F9, 0, 0, 0, 0) := by decide
/-- V-FCS-2. -/
theorem test_fcsChk_differs :
    registersOf (step (issued 0x00030121 (vector 1 [0x03, 0x07, 0x5D, 0x68]))) =
      some (0x000200FD, 0, 0x6867, 0, 0) := by decide
/-- V-FCS-5. -/
theorem test_fcsChk_empty :
    registersOf (step (issued 0x00000521 (vector 5 [0x00]))) = some (0x00020000, 0, 0, 0, 0) := by decide

/-- The expansions of R60, with the words of 95_test_vectors.md P1 and V-PRO-4. -/
theorem test_pseudo_instructions :
    opsDo .encFix8 = [.access (.w32 0x004 0x00000013), .wait] ∧
    opsSetFields 3 7 0x7C 8 = [.access (.w32 0x00C 0x087C0703)] ∧ opsSetLen 6 = [.access (.w32 0x010 6)] ∧
    opsClrDone = [.access (.w32 0x008 0x00020000)] := by decide

/-! ### The protocol, the window and the resets -/

/-- `ENC.SC` accepted, before the codec agent's step (V-PRO-1, V-PRO-2). -/
def accepted : State := accept 0x00000011 State.reset

/-- V-PRO-1. -/
theorem test_status_while_busy :
    (nextOf (hostAccess (.r32 0x008) accepted)).map (·.rdata) = some (some (.word 0x00010000)) := by decide
/-- V-PRO-2: the drop, then the one completion. -/
theorem test_dropped_command :
    ((nextOf (hostAccess (.w32 0x004 0x00000012) accepted)).bind fun t => nextOf (step t)).map statusWord =
      some 0x00060200 := by decide
/-- V-PRO-5. -/
theorem test_write_status :
    (nextOf (hostAccess (.w32 0x008 0xFFFFFFFF) { State.reset with done := true, variant := .sc })).map statusWord =
      some 0x00000200 := by decide
/-- V-PRO-13. -/
theorem test_illegal_accesses :
    faultOf (hostAccess (.w32 0x102 0) State.reset) = some (.illegalAccess 0x102) ∧
    faultOf (hostAccess (.w8 0x008 0) State.reset) = some (.illegalAccess 0x008) ∧
    faultOf (hostAccess (.r16 0x100) State.reset) = some (.illegalAccess 0x100) := by decide
/-- V-PRO-14. -/
theorem test_hazard_write :
    faultOf (hostAccess (.w32 0x010 5) (accept 0x00000003 State.reset)) = some (.hazardWrite 0x010) := by decide
/-- V-PRO-15. -/
theorem test_buffer_words :
    (nextOf (hostAccess (.w32 0x100 0x44332211) State.reset)).map (·.buf) =
      some [(0, 0x11), (1, 0x22), (2, 0x33), (3, 0x44)] ∧
    (nextOf (hostAccess (.r32 0x100) (vector 0 [0x11, 0x22, 0x33, 0x44]))).map (·.rdata) =
      some (some (.word 0x44332211)) := by decide
/-- V-RST-3. -/
theorem test_soft_reset_undefines :
    (nextOf (hostAccess (.w32 0x000 2) (accept 0x00000012 (vector 4 [1, 2, 3, 4] 0x005D0703)))).map (·.buf) =
      some [(6, 3), (7, 4)] := by decide
/-- V-RST-2: a soft reset of an idle block keeps `BUF`. -/
theorem test_soft_reset_keeps :
    (nextOf (hostAccess (.w32 0x000 3) (vector 0 frameFix0 0x005D0703 6))).map (fun t => (t.buf.length, t.len, t.ie)) =
      some (6, 0, false) := by decide
/-- R97. -/
theorem test_hard_reset :
    (nextOf (step { vector 0 frameFix0 0x005D0703 6 with sched := [.rst false] })).map
      (fun t => (t.buf, t.len, t.rstN)) = some ([], 0, false) := by decide

/-! ### Witnesses: states and operands that meet the hypotheses of each statement, clause by clause -/

theorem witness_DecodeInvertsEncode :
    (Instr.fcsGen 255 255).wellFormed = true ∧ decodeWord 0x00FFFF20 = .instr (.fcsGen 255 255) := by decide

theorem witness_OpcodeMapSelectsOneRow :
    (⟨.FCS_CHK, 0x00000021, 0xFF0000FF⟩ : OpcodeRow) ∈ opcodeMap ∧
    (⟨.FCS_CHK, 0x00000021, 0xFF0000FF⟩ : OpcodeRow).selects 0x00FFFF21 = true ∧
    decodeWord 0x00FFFF21 = .instr (.fcsChk 255 255) := by decide

theorem witness_IllegalWordsComplete :
    (0x00000120 : Word).extractLsb' 0 8 ∈ [0x20#8, 0x21#8] ∧ (0x01000120 : Word).extractLsb' 24 8 ≠ 0#8 ∧
    (0x00000114 : Word).extractLsb' 0 8 ∈ [0x01#8, 0x02#8, 0x03#8, 0x10#8, 0x11#8, 0x12#8, 0x13#8, 0x14#8] ∧
    (0x00000114 : Word).extractLsb' 8 24 ≠ 0#24 ∧ (∀ r ∈ opcodeMap, r.selects 0x00000022 = false) ∧
    (accept 0x00000022 State.reset).pend = some 0x00000022 ∧ (accept 0x00000022 State.reset).rstN = true ∧
    nextMove (accept 0x00000022 State.reset) = .codec := by decide

theorem witness_AssembledWordsDecode :
    assemble .FCS_CHK [0, 255] = some 0x00FF0021 ∧ assemble .CLASSIFY [] = some 0x00000001 ∧ 255 < 256 := by decide

theorem witness_LengthByteCountsPayload :
    varPayload 3 0x04 0x04 = some 1 ∧ varPayload 3 0xF9 0xF9 = some 246 ∧ varPayload 0 0xF6 0xF6 = some 246 ∧
    varPayload 3 0xFA 0xFA = none ∧ varPayload 3 0x02 0x02 = none ∧ varPayload 3 0x04 0x05 = none := by decide

theorem witness_FrameGeometry :
    legalN .fix0 0 = true ∧ legalN .fix8 8 = true ∧ legalN .var 1 = true ∧ legalN .var 246 = true := by decide

theorem witness_FcsIsSumMod256 :
    Holds (vector 253 [0xFF, 0x01]).buf 253 [0xFF, 0x01] ∧ Holds [] 0 [] ∧
    (vector 253 [0xFF, 0x01]).buf.byte? 255 = none ∧ Memory.byte? [] 0 = none :=
  ⟨holds_of (by decide), holds_of (by decide), by decide, by decide⟩

theorem witness_FcsLaws :
    Holds (vector 0 [3, 7, 0]).buf 0 ([3] ++ 7 :: [0]) ∧ Holds (vector 1 [7, 0, 3]).buf 1 [7, 0, 3] ∧
    [3, 7, (0 : Byte)].Perm [7, 0, 3] ∧ (0 < 1 ∨ 1 + 3 ≤ 0) ∧ (4 < 1 ∨ 1 + 3 ≤ 4) ∧ (0xFF : Byte) ≠ 7 ∧
    Holds (vector 0 [3, 7, 0]).buf 0 ([3] ++ 7 :: ([] ++ 0 :: [])) ∧
    Holds (vector 0 [3, 8, 0xFF]).buf 0 ([3] ++ (7 + 1) :: ([] ++ (0 - 1) :: [])) ∧
    Holds (vector 0 [3, 0, 7]).buf 0 ([3] ++ 0 :: ([] ++ 7 :: [])) ∧ Holds (vector 0 [3, 7]).buf 0 ([3] ++ ([] ++ 7 :: [])) :=
  ⟨holds_of (by decide), holds_of (by decide), by decide, by decide, by decide, by decide, holds_of (by decide),
   holds_of (by decide), holds_of (by decide), holds_of (by decide)⟩

theorem witness_FcsGenStoresSum :
    255 < 256 ∧ 200 + 56 > 255 ∧ 255 + 0 ≤ 255 ∧ Holds (vector 0 []).buf 255 [] ∧
    1 + 3 ≤ 255 ∧ Holds (vector 1 [3, 7, 0x5D]).buf 1 [3, 7, 0x5D] ∧
    Holds (vector 1 [3, 7]).buf 1 [3, 7] ∧ (vector 1 [3, 7]).buf.byte? (1 + 2) = none :=
  ⟨by decide, by decide, by decide, holds_of (by decide), by decide, holds_of (by decide), holds_of (by decide),
   by decide⟩

theorem witness_FcsChkComparesSum :
    1 + 255 > 255 ∧ 255 + 0 ≤ 255 ∧ Holds (vector 255 [9]).buf 255 ([] ++ [9]) ∧
    Holds (vector 1 [3, 7, 0x5D, 0x68]).buf 1 ([3, 7, 0x5D] ++ [0x68]) ∧
    Holds (vector 1 [3, 7, 0x5D]).buf 1 [3, 7, 0x5D] ∧ (vector 1 [3, 7, 0x5D]).buf.byte? (1 + 3) = none :=
  ⟨by decide, by decide, holds_of (by decide), holds_of (by decide), holds_of (by decide), by decide⟩

theorem witness_FcsChkAcceptsWhatFcsGenWrote :
    ∃ t, exec (.fcsGen 1 3) (vector 1 [3, 7, 0x5D]) = .next t ∧ t.code = .ok ∧ t.buf.byte? 4 = some 0x67 :=
  ⟨_, rfl, rfl, rfl⟩

theorem witness_ClassifyReadsFirstByte :
    256 < (vector 0 [] 0 257).len.toNat ∧ (vector 0 [] 0 0).len.toNat = 0 ∧
    1 ≤ (vector 0 [0xE5] 0 1).len.toNat ∧ bufRead (vector 0 [0xE5] 0 1).buf 0 = .ok 0xE5 ∧
    (vector 0 [0x16] 0 256).len.toNat ≤ 256 ∧ bufRead (vector 0 [0x16] 0 256).buf 0 = .ok 0x16 ∧
    (vector 1 [0x10] 0 1).buf.byte? 0 = none := by decide

theorem witness_MeasureFindsFrameLength :
    256 < (vector 0 [] 0 257).len.toNat ∧ bufRead (vector 0 [0xFF] 0 1).buf 0 = .ok 0xFF ∧
    (vector 0 [0x68] 0 2).len.toNat < 3 ∧ 1 ≤ (vector 0 [0x68] 0 1).len.toNat ∧
    Holds (vector 0 [0x68, 0xF9, 0xF9] 0 3).buf 0 [0x68, 0xF9, 0xF9] ∧ (0xF9 : Byte).toNat = 246 + 3 ∧
    Holds (vector 0 [0x68, 0x04, 0x05] 0 256).buf 0 [0x68, 0x04, 0x05] ∧
    (((0xFA : Byte).toNat : Int) - 3 < 1 ∨ ((0xFA : Byte).toNat : Int) - 3 > 246) ∧
    (((0x03 : Byte).toNat : Int) - 3 < 1 ∨ ((0x03 : Byte).toNat : Int) - 3 > 246) ∧
    (vector 0 [] 0 1).buf.byte? 0 = none ∧ (vector 0 [0x68] 0 3).buf.byte? 1 = none ∧
    Holds (vector 0 [0x68, 0x04] 0 3).buf 0 [0x68, 0x04] ∧ (vector 0 [0x68, 0x04] 0 3).buf.byte? 2 = none :=
  ⟨by decide, by decide, by decide, by decide, holds_of (by decide), by decide, holds_of (by decide), by decide,
   by decide, by decide, by decide, holds_of (by decide), by decide⟩

/-- For `EncTokenBuildsToken`, `EncScBuildsShortAck` and `EncFix0BuildsFrame`: a good and a bad N. -/
theorem witness_EncodersN0 :
    byteAt (vector 0 [] 0x00FFFFFF).fields 3 = 0 ∧ byteAt (vector 0 [] 0x01000102).fields 3 ≠ 0 := by decide

theorem witness_EncFix8BuildsFrame :
    byteAt (vector 0 [] 0x077C0703).fields 3 ≠ 8 ∧ byteAt (vector 4 [] 0x087C0703).fields 3 = 8 ∧
    Holds (vector 4 (List.replicate 8 0xAA) 0x087C0703).buf 4 (List.replicate 8 0xAA) ∧
    Holds (vector 4 (List.replicate 7 0xAA) 0x087C0703).buf 4 (List.replicate 7 0xAA) ∧
    (vector 4 (List.replicate 7 0xAA) 0x087C0703).buf.byte? (4 + 7) = none :=
  ⟨by decide, by decide, holds_of (by decide), holds_of (by decide), by decide⟩

theorem witness_EncVarBuildsFrame :
    (byteAt (vector 0 [] 0x006D0102).fields 3).toNat < 1 ∧ 246 < (byteAt (vector 0 [] 0xF76D0102).fields 3).toNat ∧
    (byteAt (vector 6 [0x01] 0x016D0102).fields 3).toNat = 1 ∧ Holds (vector 6 [0x01] 0x016D0102).buf 6 [0x01] ∧
    (byteAt (vector 6 [] 0xF608017F).fields 3).toNat = 246 ∧
    Holds (vector 6 (List.replicate 246 0) 0xF608017F).buf 6 (List.replicate 246 0) ∧
    (vector 6 [] 0xF608017F).buf.byte? (6 + 0) = none :=
  ⟨by decide, by decide, by decide, holds_of (by decide), by decide, holds_bufWrites _ _ _, by decide⟩

theorem witness_DecodeAcceptsTelegrams :
    Holds (vector 0 [0x10, 0x02, 0x01] 0 3).buf 0 [0x10, 0x02, 0x01] ∧ Holds (vector 0 [0xE5] 0 1).buf 0 [0xE5] ∧
    (0x67 : Byte) = sumMod256 [0x03, 0x07, 0x5D] ∧ Holds (vector 0 frameFix0 0 6).buf 0 frameFix0 ∧
    (0xD6 : Byte) = sumMod256 ([0x03, 0x07, 0x7C] ++ List.replicate 8 0xAA) ∧ Holds (vector 0 frameW1 0 14).buf 0 frameW1 ∧
    (0x04 : Byte).toNat = 1 + leOffsetOf (vector 0 frameVar 0 9).cfg ∧ Holds (vector 0 frameVar 0 9).buf 0 frameVar ∧
    (0xF9 : Byte).toNat = 246 + leOffsetOf (vector 0 [] 0 254).cfg ∧
    Holds (vector 0 frameLongest 0 254).buf 0 frameLongest ∧
    (0x88 : Byte) = sumMod256 ([0x7F, 0x01, 0x08] ++ List.replicate 246 0x00) :=
  ⟨holds_of (by decide), holds_of (by decide), by decide, holds_of (by decide), by decide, holds_of (by decide),
   by decide, holds_of (by decide), by decide, holds_bufWrites _ _ _, by decide +kernel⟩

theorem witness_DecodeReportsFirstFailure :
    256 < (vector 0 [] 0 300).len.toNat ∧ (vector 0 [] 0 0).len.toNat = 0 ∧
    (0xA3#8 ∉ [0x10#8, 0xE5#8, 0xDC#8, 0xA2#8, 0x68#8]) ∧ bufRead (vector 0 [0xA3] 0 256).buf 0 = .ok 0xA3 ∧
    (vector 0 [0x10] 0 2).len.toNat ≠ 3 ∧ bufRead (vector 0 [0x10] 0 2).buf 0 = .ok 0x10 ∧
    1 < (vector 0 [0xE5] 0 2).len.toNat ∧ (vector 0 [0x68] 0 2).len.toNat < 3 ∧
    (0x03 : Byte).toNat < leOffsetOf (vector 0 []).cfg + 1 ∧ leOffsetOf (vector 0 []).cfg + 246 < (0xFA : Byte).toNat ∧
    Holds (vector 0 [0x68, 0xFA, 0xFA] 0 3).buf 0 [0x68, 0xFA, 0xFA] ∧
    (vector 0 frameFix0 0 5).len.toNat ≠ explen .fix0 0 ∧
    bufRead (vector 0 [0xDC, 3, 7, 0x5D, 0x68, 0x17] 0 6).buf (explen .fix0 0 - 1) = .ok 0x17 ∧
    Holds (vector 0 [0xDC, 3, 7, 0x5D, 0x68, 0x16] 0 6).buf 1 ([3, 7, 0x5D] ++ [0x68, 0x16]) ∧
    sumMod256 [3, 7, 0x5D] ≠ 0x68 ∧ Holds (vector 0 [0xA2] 0 14).buf 0 [0xA2] ∧
    Holds (vector 0 frameVar 0 9).buf 0 [0x68, 0x04, 0x04] ∧ (0x04 : Byte).toNat = 1 + leOffsetOf (vector 0 frameVar 0 9).cfg :=
  ⟨by decide, by decide, by decide, by decide, by decide, by decide, by decide, by decide, by decide, by decide,
   holds_of (by decide), by decide, by decide, holds_of (by decide), by decide, holds_of (by decide),
   holds_of (by decide), by decide⟩

/-- Each read of R76 at an undefined byte: byte 0 at both ends of L; bytes 1 and 2 (V-DEC-29 the first); the end delimiter;
the first and the last covered byte; the FCS byte; and a fault. -/
theorem witness_DecodeFaultsOnUndefinedByte :
    (vector 0 [] 0 1).buf.byte? 0 = none ∧ (vector 1 [0x10] 0 256).buf.byte? 0 = none ∧
    Holds (vector 0 [0x10] 0 3).buf 1 [] ∧ (vector 0 [0x10] 0 3).buf.byte? 1 = none ∧
    Holds (vector 0 [0x68, 4] 0 256).buf 1 [4] ∧ (vector 0 [0x68, 4] 0 256).buf.byte? 2 = none ∧
    (vector 0 [0xDC] 0 6).len.toNat = explen .fix0 0 ∧ Holds (vector 0 [0xDC] 0 6).buf 0 [0xDC] ∧
    (vector 0 [0xDC] 0 6).buf.byte? (edIndex .fix0 0) = none ∧
    bufRead (bufWrite 13 0x16 (vector 0 [0xA2] 0 14)).buf (edIndex .fix8 8) = .ok 0x16 ∧
    Holds (bufWrite 13 0x16 (vector 0 [0xA2] 0 14)).buf 1 [] ∧
    (bufWrite 13 0x16 (vector 0 [0xA2] 0 14)).buf.byte? (1 + 0) = none ∧
    bufRead (bufWrite 8 0x16 (vector 0 [0x68, 4, 4, 2, 1, 0x6D] 0 9)).buf (edIndex .var 1) = .ok 0x16 ∧
    Holds (bufWrite 8 0x16 (vector 0 [0x68, 4, 4, 2, 1, 0x6D] 0 9)).buf 3 [2, 1, 0x6D] ∧
    (bufWrite 8 0x16 (vector 0 [0x68, 4, 4, 2, 1, 0x6D] 0 9)).buf.byte? (3 + 3) = none ∧
    Holds (bufWrite 8 0x16 (vector 0 [0x68, 4, 4, 2, 1, 0x6D, 1] 0 9)).buf 3 [2, 1, 0x6D, 1] ∧
    (bufWrite 8 0x16 (vector 0 [0x68, 4, 4, 2, 1, 0x6D, 1] 0 9)).buf.byte? (3 + 4) = none ∧
    exec .decode (vector 0 [0x10] 0 3) = .fault (.undefinedBufRead 1) :=
  ⟨by decide, by decide, holds_of (by decide), by decide, holds_of (by decide), by decide, by decide,
   holds_of (by decide), by decide, by decide, holds_of (by decide), by decide, by decide, holds_of (by decide),
   by decide, holds_of (by decide), by decide, rfl⟩

/-- A command's completion, a completion of `MEASURE` and one of an illegal word. -/
theorem witness_CompletionFrameAndFlags :
    (∃ t, runWord 0x00000003 (vector 0 frameVar 0 9) = .next t ∧ t.code = .ok) ∧
    decodeWord 0x00000003 ≠ .instr .measure ∧ (∃ t, runWord 0x00000002 (vector 0 frameVar 0 9) = .next t ∧ t.cpl = true) ∧
    (∃ t, runWord 0x00000000 (vector 0 []) = .next t ∧ t.code ≠ .ok) :=
  ⟨⟨_, rfl, rfl⟩, by decide, ⟨_, rfl, rfl⟩, ⟨_, rfl, by decide⟩⟩

/-- For `ReadOnlyCommandsFrame` and `StoringCommandsFrame`: every command answers a next state somewhere, and a storing one
also with an error. -/
theorem witness_commands_complete :
    (∃ t, exec .classify (vector 0 frameVar 0 9) = .next t) ∧ (∃ t, exec .measure (vector 0 frameVar 0 9) = .next t) ∧
    (∃ t, exec .decode (vector 0 frameVar 0 9) = .next t) ∧ (∃ t, exec .encToken (vector 0 []) = .next t) ∧
    (∃ t, exec .encSc (vector 0 []) = .next t) ∧ (∃ t, exec .encFix0 (vector 0 []) = .next t) ∧
    (∃ t, exec .encFix8 (vector 4 (List.replicate 8 0xAA) 0x087C0703) = .next t ∧ t.code = .ok) ∧
    (∃ t, exec .encVar (vector 6 [0x01] 0x016D0102) = .next t ∧ t.code = .ok) ∧
    (∃ t, exec (.fcsGen 0 0) (vector 0 []) = .next t) ∧ (∃ t, exec (.fcsChk 5 0) (vector 5 [0]) = .next t) ∧
    (∃ t, exec .encVar (vector 0 []) = .next t ∧ t.code ≠ .ok) ∧
    (∃ t, exec (.fcsGen 200 56) (vector 0 []) = .next t ∧ t.code ≠ .ok) :=
  ⟨⟨_, rfl⟩, ⟨_, rfl⟩, ⟨_, rfl⟩, ⟨_, rfl⟩, ⟨_, rfl⟩, ⟨_, rfl⟩, ⟨_, rfl, rfl⟩, ⟨_, rfl, rfl⟩, ⟨_, rfl⟩, ⟨_, rfl⟩,
   ⟨_, rfl, by decide⟩, ⟨_, rfl, by decide⟩⟩

theorem witness_RejectedTelegramExposesNothing :
    (∃ t, exec .decode (vector 0 [] 0 0) = .next t ∧ t.code = .eMalformed) ∧
    (∃ t, exec .decode (vector 0 frameFix0 0 5) = .next t ∧ t.code = .eFraming) ∧
    (∃ t, exec .decode (vector 0 [0xDC, 3, 7, 0x5D, 0x68, 0x16] 0 6) = .next t ∧ t.code = .eChecksum) ∧
    (∃ t, exec .decode (vector 0 [] 0 257) = .next t ∧ t.code = .eIllegal) :=
  ⟨⟨_, rfl, rfl⟩, ⟨_, rfl, rfl⟩, ⟨_, rfl, rfl⟩, ⟨_, rfl, rfl⟩⟩

theorem witness_CommonChecksGiveIllegal :
    decodeWord 0x01030120 = .illegal .formatRBits ∧ decodeWord 0x00000003 = .instr .decode ∧
    256 < (vector 0 [] 0 257).len.toNat ∧ decodeWord 0x0038C820 = .instr (.fcsGen 200 56) ∧ 255 < 200 + 56 ∧
    (∃ t, runWord 0x00FF0121 (vector 0 []) = .next t ∧ t.code = .eIllegal) :=
  ⟨by decide, by decide, by decide, by decide, by decide, _, rfl, rfl⟩

/-- Two machines that agree on the operands and differ elsewhere. -/
theorem witness_ResultsDependOnOperandsAlone :
    let s := vector 0 frameFix0 0 6
    let s' := { s with ie := true, res := 7, done := true }
    s.fields = s'.fields ∧ s.len = s'.len ∧ s.buf = s'.buf ∧ s.cfg = s'.cfg ∧ s ≠ s' ∧
    (∃ t, exec .decode s = .next t ∧ t.code = .ok) ∧
    exec (.fcsGen 6 1) s = .fault (.undefinedBufRead 6) :=
  ⟨rfl, rfl, rfl, rfl, by decide, ⟨_, rfl, rfl⟩, rfl⟩

theorem witness_DecodeReturnsEncodedFields :
    (∃ t, exec .encToken (vector 0 [] 0x00770102) = .next t ∧ t.code = .ok) ∧
    (∃ t, exec .encSc (vector 0 [] 0x00563412) = .next t ∧ t.code = .ok) ∧
    (∃ t, exec .encFix0 (vector 0 [] 0x00FFFFFF) = .next t ∧ t.code = .ok) ∧
    (∃ t, exec .encFix8 (vector 4 (List.replicate 8 0) 0x085D0703) = .next t ∧ t.code = .ok) ∧
    (∃ t, exec .encVar (vector 6 [0x01] 0x016D0102) = .next t ∧ t.code = .ok) :=
  ⟨⟨_, rfl, rfl⟩, ⟨_, rfl, rfl⟩, ⟨_, rfl, rfl⟩, ⟨_, rfl, rfl⟩, ⟨_, rfl, rfl⟩⟩

theorem witness_ReencodingRewritesSameBytes :
    (∃ t, exec .decode (vector 0 [0x10, 2, 1] 0 3) = .next t ∧ t.code = .ok ∧ t.variant = .token) ∧
    (∃ t, exec .decode (vector 0 [0xE5] 0 1) = .next t ∧ t.code = .ok ∧ t.variant = .sc) ∧
    (∃ t, exec .decode (vector 0 frameFix0 0 6) = .next t ∧ t.code = .ok ∧ t.variant = .fix0) ∧
    (∃ t, exec .decode (vector 0 frameW1 0 14) = .next t ∧ t.code = .ok ∧ t.variant = .fix8) ∧
    (∃ t, exec .decode (vector 0 frameVar 0 9) = .next t ∧ t.code = .ok ∧ t.variant = .var) :=
  ⟨⟨_, rfl, rfl, rfl⟩, ⟨_, rfl, rfl, rfl⟩, ⟨_, rfl, rfl, rfl⟩, ⟨_, rfl, rfl, rfl⟩, ⟨_, rfl, rfl, rfl⟩⟩

/-- `ENC.SC` pending, one access and the poll of the host to come. -/
def waiting : State := { accepted with host := [.wait] }

/-- A host about to make one access. -/
def about (a : Access) (s : State) : State := { s with sched := [.host], host := [.access a] }

theorem witness_StepRunsPendingCommand :
    nextMove waiting = .codec ∧ waiting.rstN = true ∧ waiting.pend = some 0x00000011 ∧
    decodeWord 0x00000011 = .instr .encSc ∧ waiting.sched = [] ∧ waiting.pend ≠ none ∧
    nextMove (about (.r32 0x008) accepted) = .host ∧ (about (.r32 0x008) accepted).host = [.access (.r32 0x008)] ∧
    nextMove { waiting with sched := [.host] } = .host ∧ { waiting with sched := [.host] }.host = [.wait] ∧
    nextMove { accepted with sched := [.rst false] } = .rst false := by decide

theorem witness_PlacedCommandRunsNext : (Instr.fcsChk 255 255).wellFormed = true := by decide

theorem witness_CompletionLeavesBlockReady :
    (∃ t, runWord 0x00000003 (vector 0 [] 0 0) = .next t ∧ t.code = .eMalformed) ∧
    (∃ t, runWord 0x000000FF (vector 0 [] 0 0) = .next t ∧ t.code = .eIllegal) ∧ (vector 0 [] 0 0).rstN = true :=
  ⟨⟨_, rfl, rfl⟩, ⟨_, rfl, rfl⟩, rfl⟩

theorem witness_CommandDroppedWhileBusy :
    accepted.rstN = true ∧ accepted.busy = true ∧ ∃ t, runWord 0x00000011 accepted = .next t := ⟨rfl, rfl, _, rfl⟩

theorem witness_NothingRunsUnasked :
    (∃ t, runWord 0x00000011 accepted = .next t) ∧ (∃ t, runWord 0x00000000 accepted = .next t) ∧
    ({ State.reset with sched := [.codec] } : State).pend = none ∧
    nextMove { State.reset with sched := [.codec] } = .codec ∧
    (about (.w32 0x004 0x00000001) State.reset).pend = none ∧
    (∃ t, step (about (.w32 0x004 0x00000001) State.reset) = .next t ∧ t.pend = some 0x00000001) :=
  ⟨⟨_, rfl⟩, ⟨_, rfl⟩, rfl, rfl, rfl, _, rfl, rfl⟩

theorem witness_DoneAndOvrClearedOnlyAsStated :
    let s : State := { State.reset with done := true, ovr := true }
    (∃ t, step (about (.w32 0x008 0x00060000) s) = .next t ∧ t.done = false ∧ t.ovr = false) ∧
    (∃ t, step (about (.w32 0x004 0x00000001) s) = .next t ∧ t.done = false) ∧
    (∃ t, step (about (.w32 0x000 0x00000002) s) = .next t ∧ t.done = false ∧ t.ovr = false) ∧
    (∃ t, step { s with sched := [.rst false] } = .next t ∧ t.done = false ∧ t.ovr = false) :=
  ⟨⟨_, rfl, rfl, rfl⟩, ⟨_, rfl, rfl⟩, ⟨_, rfl, rfl, rfl⟩, ⟨_, rfl, rfl, rfl⟩⟩

theorem witness_InterruptFollowsDoneAndEnable :
    (∃ t, runWord 0x00000011 { accepted with ie := true } = .next t) ∧ State.reset.rstN = true ∧
    (0x00000001 : Word).getLsbD 1 = false ∧ (0x00020000 : Word).getLsbD 17 = true ∧ State.reset.busy = false ∧
    (0x00000002 : Word).getLsbD 1 = true := ⟨⟨_, rfl⟩, by decide⟩

/-- For `StatusWordLayout`, `RegisterWritesTakeEffect`, `RegisterReadsReturnFields` and `OperandWritesAreHazards` (whose
offsets `witness_BufferAccessIsLittleEndian` and `witness_IllegalAccessesFault` give): the block idle and the block busy. -/
theorem witness_idle_and_busy :
    State.reset.rstN = true ∧ State.reset.busy = false ∧ State.reset.ovr = false ∧
    accepted.rstN = true ∧ accepted.busy = true ∧ accepted.pend = some 0x00000011 ∧
    (0x00000001 : Word).getLsbD 1 = false ∧ (0x00000003 : Word).getLsbD 1 = true := by decide

theorem witness_ReservedOffsetsAreInert :
    0x020 ≤ (0x020 : Offset).toNat ∧ (0x0FC : Offset).toNat ≤ 0x0FC ∧ (0x020 : Offset).toNat % 4 = 0 ∧
    (0x0FC : Offset).toNat % 4 = 0 := by decide

theorem witness_WindowIs512Bytes :
    (∃ off, windowOffset Config.pbfcBase = some off) ∧ Config.pbfcBase + 512 ≤ Config.pbfcBase + 512 :=
  ⟨⟨_, if_pos ⟨le_rfl, by omega⟩⟩, le_rfl⟩

theorem witness_IllegalAccessesFault :
    (0x0FF : Offset).toNat < 0x100 ∧ (0x1FF : Offset).toNat % 4 ≠ 0 ∧ 0x100 ≤ (0x100 : Offset).toNat ∧
    (vector 0 []).buf.byte? ((0x1FF : Offset).toNat - 0x100) = none ∧ (0x1FC : Offset).toNat % 4 = 0 ∧
    Holds (vector 252 [1, 2, 3]).buf ((0x1FC : Offset).toNat - 0x100) [1, 2, 3] ∧
    (vector 252 [1, 2, 3]).buf.byte? ((0x1FC : Offset).toNat - 0x100 + 3) = none :=
  ⟨by decide, by decide, by decide, by decide, by decide, holds_of (by decide), by decide⟩

theorem witness_BufferAccessIsLittleEndian :
    0x100 ≤ (0x1FF : Offset).toNat ∧ bufRead (vector 255 [9]).buf ((0x1FF : Offset).toNat - 0x100) = .ok 9 ∧
    (0x1FC : Offset).toNat % 4 = 0 ∧ Holds (vector 252 [1, 2, 3, 4]).buf ((0x1FC : Offset).toNat - 0x100) [1, 2, 3, 4] :=
  ⟨by decide, by decide, by decide, holds_of (by decide)⟩

theorem witness_ReadsPureAndDataWritesIdempotent :
    (∃ t, hostAccess (.r32 0x010) State.reset = .next t) ∧ (∃ t, hostAccess (.r16 0x100) { State.reset with rstN := false } = .next t) ∧
    (∃ t, hostAccess (.w32 0x00C 5) State.reset = .next t) ∧ (∃ t, hostAccess (.w32 0x010 5) State.reset = .next t) ∧
    (∃ t, hostAccess (.w32 0x1FC 5) State.reset = .next t) ∧ (∃ t, hostAccess (.w8 0x1FF 5) State.reset = .next t) ∧
    (∃ t u, hostAccess (.w32 0x004 1) State.reset = .next t ∧ hostAccess (.w32 0x004 1) t = .next u) :=
  ⟨⟨_, rfl⟩, ⟨_, rfl⟩, ⟨_, rfl⟩, ⟨_, rfl⟩, ⟨_, rfl⟩, ⟨_, rfl⟩, ⟨_, _, rfl, rfl⟩⟩

/-- A busy block with defined bytes at both ends of `BUF`. -/
theorem witness_ResultReadsAreFree :
    let s := accept 0x00000003 (vector 252 [1, 2, 3, 4])
    s.busy = true ∧ bufRead s.buf ((0x1FF : Offset).toNat - 0x100) = .ok 4 ∧
    Holds s.buf ((0x1FC : Offset).toNat - 0x100) [1, 2, 3, 4] ∧
    s.buf.byte? ((0x100 : Offset).toNat - 0x100) = none ∧ Holds s.buf ((0x100 : Offset).toNat - 0x100) [] :=
  ⟨by decide, by decide, holds_of (by decide), by decide, holds_of (by decide)⟩

theorem witness_HardResetHoldsTheBlock :
    let s := { vector 0 frameFix0 0 6 with sched := [.rst false] }
    let r : State := { State.reset with rstN := false, sched := [.rst true] }
    nextMove s = .rst false ∧ nextMove r = .rst true ∧ r.rstN = false ∧ 0x100 ≤ (0x100 : Offset).toNat ∧
    (0x1FC : Offset).toNat % 4 = 0 ∧ ∃ t, step r = .next t :=
  ⟨rfl, rfl, rfl, by decide, by decide, _, rfl⟩

theorem witness_IllegalAccessesInResetAreInert :
    ({ State.reset with rstN := false } : State).rstN = false ∧ (0x0FF : Offset).toNat < 0x100 ∧
    (0x1FF : Offset).toNat % 4 ≠ 0 := by decide

/-- For `ResetValues`: a `CTRL` write with bit 1 set. -/
theorem witness_ResetValues : State.reset.rstN = true ∧ (0x00000002 : Word).getLsbD 1 = true := by decide

/-- One pending word for each clause of the soft reset. -/
theorem witness_SoftResetKeepsBuffer :
    decodeWord 0x0000FF20 = .instr (.fcsGen 255 0) ∧ decodeWord 0x0001FF20 = .instr (.fcsGen 255 1) ∧
    decodeWord 0x00000010 = .instr .encToken ∧ decodeWord 0x00000011 = .instr .encSc ∧
    decodeWord 0x00000012 = .instr .encFix0 ∧ decodeWord 0x00000013 = .instr .encFix8 ∧
    decodeWord 0x00000014 = .instr .encVar ∧ decodeWord 0x00030121 = .instr (.fcsChk 1 3) ∧
    decodeWord 0x00000000 = .illegal .unassignedOpc ∧ (0x00000002 : Word).getLsbD 1 = true ∧
    (accept 0x0000FF20 State.reset).busy = true ∧ (accept 0x0000FF20 State.reset).pend = some 0x0000FF20 := by decide

theorem witness_OnlyResetUndefinesBytes :
    let s := vector 0 frameFix0 0x005D0703 6
    s.buf.byte? 5 = some 0x16 ∧
    (∃ t, step { s with sched := [.rst false] } = .next t ∧ t.buf.byte? 5 = none) ∧
    (∃ t, step (about (.w32 0x000 2) (accept 0x00000012 s)) = .next t ∧ t.buf.byte? 5 = none) :=
  ⟨rfl, ⟨_, rfl, rfl⟩, ⟨_, rfl, rfl⟩⟩

theorem witness_OnlyDecodeWritesRes :
    let s := vector 0 frameFix0 0 6
    (∃ t, step (accept 0x00000003 s) = .next t ∧ t.res ≠ s.res) ∧
    (∃ t, step (about (.w32 0x000 2) { s with res := 1 }) = .next t ∧ t.res ≠ 1) ∧
    (∃ t, step { s with res := 1, sched := [.rst false] } = .next t ∧ t.res ≠ 1) :=
  ⟨⟨_, rfl, by decide⟩, ⟨_, rfl, by decide⟩, ⟨_, rfl, by decide⟩⟩

theorem witness_OnlyHostWritesFields :
    (∃ t, step (about (.w32 0x00C 5) State.reset) = .next t ∧ t.fields ≠ State.reset.fields) ∧
    (∃ t, step (about (.w32 0x000 2) { State.reset with fields := 1 }) = .next t ∧ t.fields ≠ 1) ∧
    (∃ t, step { State.reset with fields := 1, sched := [.rst true], rstN := false } = .next t ∧ t.fields ≠ 1) :=
  ⟨⟨_, rfl, by decide⟩, ⟨_, rfl, by decide⟩, ⟨_, rfl, by decide⟩⟩

theorem witness_ParameterNeverChanges : ∃ t, step waiting = .next t := ⟨_, rfl⟩

/-- A state of a run with a command pending satisfies the invariant and steps. -/
theorem witness_StepKeepsInvariant : waiting.Inv ∧ ∃ t, step waiting = .next t :=
  ⟨⟨by decide, by decide, by decide, by decide, by decide, by decide, by decide, by decide⟩, _, rfl⟩

theorem witness_WaitEnds :
    waiting.sched = [] ∧ waiting.rstN = true ∧ waiting.pend = some 0x00000011 ∧ waiting.host = [.wait] ∧
    ∃ t, runWord 0x00000011 waiting = .next t := ⟨rfl, rfl, rfl, rfl, _, rfl⟩

end Sys2Proof.Tests
end

/-! ## What no operation of the block changes: the parameter `LE_OFFSET` (00_scope.md R6) -/

namespace Sys2Proof.Machine

variable {s t : State}

@[simp] theorem bufWrites_cfg (i : Nat) (vs : List Byte) (s : State) : (bufWrites i vs s).cfg = s.cfg := by
  rw [bufWrites_eq]

@[simp] theorem pollStatus_cfg (s : State) (rest : List HostOp) : (pollStatus s rest).cfg = s.cfg := rfl

@[simp] theorem driveRst_cfg (level : Bool) (s : State) : (driveRst level s).cfg = s.cfg := by
  unfold driveRst
  split_ifs
  · rfl
  · rfl

theorem RegisterWrite.cfg_eq {off : Offset} {v : Word} (h : RegisterWrite off v s t) : t.cfg = s.cfg := by
  obtain ⟨-, -, rfl⟩ | ⟨-, -, rfl⟩ | ⟨-, -, rfl⟩ | ⟨-, -, rfl⟩ | ⟨-, rfl⟩ | ⟨-, -, rfl⟩ | ⟨-, -, rfl⟩ := h
  all_goals rfl

theorem hostAccess_keeps_cfg {a : Access} (h : hostAccess a s = .next t) : t.cfg = s.cfg := by
  obtain ⟨d, n, rfl⟩ | rfl | ⟨-, off, v, -, hw⟩ | ⟨-, -, i, vs, -, rfl⟩ := hostAccess_next h
  · rfl
  · rfl
  · exact hw.cfg_eq
  · exact bufWrites_cfg i vs s

theorem exec_keeps_cfg {i : Instr} (h : exec i s = .next t) : t.cfg = s.cfg := by
  obtain ⟨c, v, p, u, rfl, hu⟩ := exec_next_shape h
  rw [finish_cfg, hu]

theorem runWord_keeps_cfg {w : Word} (h : runWord w s = .next t) : t.cfg = s.cfg := by
  obtain ⟨i, -, hi⟩ | ⟨-, rfl⟩ := runWord_next h
  · exact exec_keeps_cfg hi
  · rfl

/-- Settles O55, by the case analysis of a step: each move is an operation that keeps `cfg`. -/
theorem parameterNeverChanges : Obligations.ParameterNeverChanges := by
  intro s t h
  obtain rfl | ⟨-, -, w, -, hrun⟩ | ⟨-, rest, -, rfl⟩ | ⟨a, rest, -, hacc⟩ | ⟨level, -, rfl⟩ := step_next h
  · exact movedOn_cfg s
  · exact (runWord_keeps_cfg hrun).trans (movedOn_cfg s)
  · exact pollStatus_cfg (movedOn s) rest
  · exact (hostAccess_keeps_cfg hacc).trans (movedOn_cfg s)
  · exact driveRst_cfg level (movedOn s)

end Sys2Proof.Machine

/-! ## The window on the bus (00_scope.md R6, 20_memory.md R29) -/

namespace Sys2Proof.Machine

theorem windowOffset_busAddress (off : Offset) : windowOffset (busAddress off) = some off := by
  have hlt : off.toNat < 512 := off.isLt
  rw [windowOffset, if_pos (by unfold busAddress; omega)]
  simp [busAddress]

/-- A bus address selects an offset exactly when it is that offset's address. -/
theorem windowOffset_eq_some_iff {a : Nat} {off : Offset} : windowOffset a = some off ↔ a = busAddress off := by
  constructor
  · intro h
    unfold windowOffset at h
    split_ifs at h with hwin
    obtain rfl := Option.some.inj h
    have hoff : (a - Config.pbfcBase) % 2 ^ 9 = a - Config.pbfcBase := Nat.mod_eq_of_lt (by omega)
    rw [busAddress, BitVec.toNat_ofNat, hoff]
    omega
  · rintro rfl
    exact windowOffset_busAddress off

theorem windowOffset_eq_none_of_outside {a : Nat} (h : a < Config.pbfcBase ∨ Config.pbfcBase + 512 ≤ a) :
    windowOffset a = none :=
  if_neg (by omega)

/-- Settles O42: selecting an offset and addressing it are inverse, and nothing outside the block selects one. -/
theorem windowIs512Bytes : Obligations.WindowIs512Bytes :=
  ⟨Nat.mul_mod_right 512 _, fun off => ⟨windowOffset_busAddress off, rfl⟩,
    fun _ _ => windowOffset_eq_some_iff.mp, fun _ => windowOffset_eq_none_of_outside⟩

end Sys2Proof.Machine

/-! ## What a command can leave: the cases of a completion (10_state.md R23, 60_exceptions.md R82) -/

namespace Sys2Proof.Machine

variable {s t : State}

/-- One byte of `BUF` written at a legal index. -/
def BufStore (m m' : Memory) : Prop := ∃ i v, i < 256 ∧ m' = m.write i v

/-- `BUF` after some single-byte writes at legal indices. -/
abbrev Written : Memory → Memory → Prop := Relation.ReflTransGen BufStore

theorem Written.wf {m m' : Memory} (h : Written m m') (hm : m.wf = true) : m'.wf = true := by
  induction h with
  | refl => exact hm
  | tail _ hstore ih =>
    obtain ⟨i, v, hi, rfl⟩ := hstore
    exact wf_write v ih hi

/-- Writes make no byte undefined. -/
theorem Written.byte?_none {m m' : Memory} (h : Written m m') {j : Nat} (hj : m'.byte? j = none) :
    m.byte? j = none := by
  induction h with
  | refl => exact hj
  | tail _ hstore ih =>
    obtain ⟨i, v, -, rfl⟩ := hstore
    by_cases hij : j = i
    · subst hij; simp at hj
    · exact ih (byte?_write_other _ v hij ▸ hj)

theorem written_write {i : Nat} (m : Memory) (v : Byte) (hi : i < 256) : Written m (m.write i v) :=
  .single ⟨i, v, hi, rfl⟩

theorem written_bufWrites {i : Nat} {vs : List Byte} (h : i + vs.length ≤ 256) (s : State) :
    Written s.buf (bufWrites i vs s).buf := by
  induction vs generalizing i s with
  | nil => exact .refl
  | cons v vs ih =>
    rw [List.length_cons] at h
    exact (written_write s.buf v (by omega)).trans (ih (by omega) (bufWrite i v s))

/-- The states in which a command can complete, by what it has written beside `STATUS` and `PEND`. -/
inductive Completion (s : State) : Instr → State → Prop where
  | rejected (i : Instr) (c : Code) (hc : c = .eIllegal ∨ c = .eMalformed) :
      Completion s i (finish c .none false s)
  | classified (c : Code) (v : Variant) (hc : producedCode c = true) :
      Completion s .classify (finish c v false s)
  | measured (c : Code) (v : Variant) (fl : Nat) (hc : producedCode c = true) (hfl : fl ≤ 254)
      (hv : fl ≠ 0 → v ≠ .none) :
      Completion s .measure (finish c v (measureCpl c fl s.len.toNat) { s with flen := BitVec.ofNat 9 fl })
  | decoded (r : DecodeResult) (hr : (∃ v da sa fc n pair, r = .ok v da sa fc n pair) → s.len.toNat ≤ 254) :
      Completion s .decode (finishDecode r s)
  | encoded (i : Instr) (v : Variant) (n : Nat) (x : Byte) (m : Memory) (hn : n ≤ 254) (hm : Written s.buf m) :
      Completion s i (finishEncoder v n x { s with buf := m })
  | generated (a b : Nat) (x : Byte) (hab : a + b < 256) :
      Completion s (.fcsGen a b) (finish .ok .none false (setFcsr x x (bufWrite (a + b) x s)))
  | checked (a b : Nat) (c : Code) (x y : Byte) (hc : producedCode c = true) :
      Completion s (.fcsChk a b) (finish c .none false (setFcsr x y s))

theorem classifyFrame_code {len : Nat} {m : Memory} {r : Code × Variant} (h : classifyFrame len m = .ok r) :
    producedCode r.1 = true := by
  unfold classifyFrame at h
  split at h
  · cases h; rfl
  · obtain ⟨b0, -, h⟩ := except_bind_ok.mp h
    split at h
    case h_2 => split_ifs at h <;> cases h <;> rfl
    all_goals cases h; rfl

/-- A payload length read from LE and LEr is 1 to 246 (R51). -/
theorem varPayload_le {off : Nat} {le ler : Byte} {n : Nat} (h : varPayload off le ler = some n) : n ≤ 246 := by
  simp only [varPayload, payloadMax] at h
  split_ifs at h with hdiff hrange
  cases h
  omega

theorem explen_le {v : Variant} {n : Nat} (hn : n ≤ 246) : explen v n ≤ 254 := by
  cases v <;> simp only [explen] <;> omega

/-- What a measured frame can be: a produced code, a length of a frame, and a variant wherever there is a length. -/
theorem measureFrame_ok {off len : Nat} {m : Memory} {c : Code} {v : Variant} {fl : Nat}
    (h : measureFrame off len m = .ok (c, v, fl)) :
    producedCode c = true ∧ fl ≤ 254 ∧ (fl ≠ 0 → v ≠ .none) := by
  unfold measureFrame at h
  split at h
  · cases h; decide
  · obtain ⟨b0, -, h⟩ := except_bind_ok.mp h
    split at h
    case h_6 =>
      split at h
      · cases h; decide
      · obtain ⟨le, -, h⟩ := except_bind_ok.mp h
        obtain ⟨ler, -, h⟩ := except_bind_ok.mp h
        split at h
        · cases h; decide
        · next n hn =>
          cases h
          exact ⟨rfl, explen_le (varPayload_le hn), nofun⟩
    all_goals cases h; decide

theorem decodeFramed_ok_len {v v' : Variant} {n n' len : Nat} {m : Memory} {da sa fc : Byte}
    {pair : Option (Byte × Byte)} (h : decodeFramed v n len m = .ok (.ok v' da sa fc n' pair)) :
    len = edIndex v n + 1 := by
  obtain hr | ⟨hlen, -⟩ := decodeFramed_cases h
  · cases hr
  · exact hlen

/-- An accepted telegram is at most 254 bytes long (R20, R52). -/
theorem decodeFrame_ok_len {off len n : Nat} {m : Memory} {v : Variant} {da sa fc : Byte}
    {pair : Option (Byte × Byte)} (h : decodeFrame off len m = .ok (.ok v da sa fc n pair)) : len ≤ 254 := by
  obtain hr | ⟨hlen, -⟩ | ⟨hlen, -⟩ | ⟨-, hf⟩ | ⟨-, hf⟩ | ⟨-, -, le, ler, k, -, -, hk, hf⟩ := decodeFrame_cases h
  · cases hr
  · omega
  · omega
  · exact (decodeFramed_ok_len hf).trans_le (by decide)
  · exact (decodeFramed_ok_len hf).trans_le (by decide)
  · have hlen := decodeFramed_ok_len hf
    have hk := varPayload_le hk
    simp only [edIndex, fcsIndex, fcsStart, fcsCount] at hlen
    omega

theorem legalN_le {v : Variant} {n : Nat} (h : legalN v n = true) : n ≤ 246 := by
  cases v <;> simp [legalN, payloadMax] at h <;> omega

/-- A frame built in place is an encoder's completion when its header and its trailer lie in `BUF`. -/
theorem encodeFramed_completion {i : Instr} {v : Variant} {n : Nat} {hd : List Byte}
    (h : encodeFramed v n hd s = .next t) (hn : n ≤ 246) (hhd : hd.length ≤ 256) : Completion s i t := by
  obtain ⟨x, -, rfl⟩ := encodeFramed_next.mp h
  have htrail : fcsIndex v n + [x, edByte].length ≤ 256 := by
    cases v <;> simp [fcsIndex, fcsStart, fcsCount] <;> omega
  rw [bufWrites_eq (fcsIndex v n), bufWrites_eq 0 hd s]
  refine .encoded i v _ x _ (explen_le hn) ?_
  exact (written_bufWrites (by omega) s).trans (bufWrites_eq 0 hd s ▸ written_bufWrites htrail (bufWrites 0 hd s))

/-- A frame without an FCS is an encoder's completion when it lies in `BUF`. -/
theorem finishEncoder_completion {i : Instr} {v : Variant} {n : Nat} {x : Byte} {frame : List Byte}
    (hn : n ≤ 254) (hframe : frame.length ≤ 256) : Completion s i (finishEncoder v n x (bufWrites 0 frame s)) := by
  rw [bufWrites_eq]
  exact .encoded i v n x _ hn (written_bufWrites (by omega) s)

/-- Every command that completes does so in one of the ways of `Completion`. -/
theorem exec_completion {i : Instr} (h : exec i s = .next t) : Completion s i t := by
  cases i with
  | classify =>
    obtain ⟨-, rfl⟩ | ⟨-, r, hr, rfl⟩ := execClassify_next.mp h
    · exact .rejected _ _ (.inl rfl)
    · exact .classified _ _ (classifyFrame_code hr)
  | measure =>
    obtain ⟨-, rfl⟩ | ⟨-, ⟨c, v, fl⟩, hr, rfl⟩ := execMeasure_next.mp h
    · exact .rejected _ _ (.inl rfl)
    · obtain ⟨hc, hfl, hv⟩ := measureFrame_ok hr
      exact .measured c v fl hc hfl hv
  | decode =>
    obtain ⟨-, rfl⟩ | ⟨-, r, hr, rfl⟩ := execDecode_next.mp h
    · exact .rejected _ _ (.inl rfl)
    · refine .decoded r ?_
      rintro ⟨v, da, sa, fc, n, pair, rfl⟩
      exact decodeFrame_ok_len hr
  | encToken =>
    obtain ⟨-, rfl⟩ | ⟨-, rfl⟩ := execEncToken_next.mp h
    · exact .rejected _ _ (.inr rfl)
    · exact finishEncoder_completion (by decide) (by simp [headerOf])
  | encSc =>
    obtain ⟨-, rfl⟩ | ⟨-, rfl⟩ := execEncSc_next.mp h
    · exact .rejected _ _ (.inr rfl)
    · exact finishEncoder_completion (by decide) (by simp [headerOf])
  | encFix0 =>
    obtain ⟨-, rfl⟩ | ⟨-, h⟩ := execEncFix0_next.mp h
    · exact .rejected _ _ (.inr rfl)
    · exact encodeFramed_completion h (by decide) (by simp [headerOf])
  | encFix8 =>
    obtain ⟨-, rfl⟩ | ⟨-, h⟩ := execEncFix8_next.mp h
    · exact .rejected _ _ (.inr rfl)
    · exact encodeFramed_completion h (by decide) (by simp [headerOf])
  | encVar =>
    obtain ⟨-, rfl⟩ | ⟨hn, h⟩ := execEncVar_next.mp h
    · exact .rejected _ _ (.inr rfl)
    · exact encodeFramed_completion h (legalN_le hn) (by simp [headerOf])
  | fcsGen a b =>
    obtain ⟨-, rfl⟩ | ⟨hab, x, -, rfl⟩ := execFcsGen_next.mp h
    · exact .rejected _ _ (.inl rfl)
    · exact .generated a b x (by omega)
  | fcsChk a b =>
    obtain ⟨-, rfl⟩ | ⟨-, x, y, -, -, rfl⟩ := execFcsChk_next.mp h
    · exact .rejected _ _ (.inl rfl)
    · exact .checked a b _ x y (by split_ifs <;> rfl)

namespace Completion

variable {i : Instr}

theorem codeProduced (h : Completion s i t) : producedCode t.code = true := by
  cases h with
  | rejected i c hc => obtain rfl | rfl := hc <;> rfl
  | classified c v hc => exact hc
  | measured c v fl hc hfl hv => exact hc
  | decoded r hr => cases r <;> rfl
  | encoded i v n x m hn hm => rfl
  | generated a b x hab => rfl
  | checked a b c x y hc => exact hc

theorem cpl_of_not_measure (h : Completion s i t) (hi : i ≠ .measure) : t.cpl = false := by
  cases h with
  | measured c v fl hc hfl hv => exact absurd rfl hi
  | decoded r hr => cases r <;> rfl
  | _ => rfl

theorem res_of_not_decode (h : Completion s i t) (hi : i ≠ .decode) : t.res = s.res := by
  cases h with
  | decoded r hr => exact absurd rfl hi
  | _ => rfl

theorem written (h : Completion s i t) : Written s.buf t.buf := by
  cases h with
  | decoded r hr => cases r <;> exact .refl
  | encoded i v n x m hn hm => exact hm
  | generated a b x hab => exact written_write s.buf x hab
  | _ => exact .refl

end Completion

end Sys2Proof.Machine

/-! ## The invariant (10_state.md R15 to R23, 60_exceptions.md R82, 70_reset_and_hazards.md R97) -/

namespace Sys2Proof.Machine

variable {s t : State}

/-- Settles O57: clause by clause on the reset state. -/
theorem resetMeetsInvariant : Obligations.ResetMeetsInvariant where
  bufWf := wf_reset
  busyIffPending := rfl
  doneNotBusy := nofun
  codeProduced := rfl
  variantOnlyOnOk _ := rfl
  cplOnlyOnFrame := nofun
  flenBound := by decide
  heldInReset := nofun

/-- The invariant speaks of no field of the host's side. -/
theorem State.Inv.of_hostSide (h : s.Inv)
    (ht : t = { s with host := t.host, sched := t.sched, rdata := t.rdata, draws := t.draws }) : t.Inv := by
  rw [ht]
  refine { h with heldInReset := fun hr => ?_ }
  exact congrArg (fun u : State => { u with host := t.host, sched := t.sched, rdata := t.rdata, draws := t.draws })
    (h.heldInReset hr)

/-- A completion keeps the invariant where `CPL` is set only on a frame and the registers it wrote are in range. -/
theorem finish_inv {c : Code} {v : Variant} {p : Bool} (hr : s.rstN = true) (hbuf : s.buf.wf = true)
    (hflen : s.flen.toNat ≤ 254) (hc : producedCode c = true)
    (hp : p = true → c = .ok ∧ v ≠ .none ∧ s.flen ≠ 0) : (finish c v p s).Inv where
  bufWf := hbuf
  busyIffPending := rfl
  doneNotBusy := nofun
  codeProduced := hc
  variantOnlyOnOk hv := by
    by_contra hne
    exact hv (if_neg hne)
  cplOnlyOnFrame hcpl := by
    obtain ⟨hok, hv, hfl⟩ := hp hcpl
    exact ⟨hok, by rwa [finish_variant, if_pos hok], hfl⟩
  flenBound := hflen
  heldInReset hlow := absurd (hr.symm.trans hlow) nofun

theorem toNat_ofNat_frameLen {n : Nat} (hn : n ≤ 254) : (BitVec.ofNat 9 n).toNat = n :=
  Nat.mod_eq_of_lt (by omega)

theorem Completion.inv {i : Instr} (h : Completion s i t) (hs : s.Inv) (hr : s.rstN = true) : t.Inv := by
  have hbuf : t.buf.wf = true := h.written.wf hs.bufWf
  have hcode : producedCode t.code = true := h.codeProduced
  cases h with
  | rejected i c hc => exact finish_inv hr hbuf hs.flenBound hcode nofun
  | classified c v hc => exact finish_inv hr hbuf hs.flenBound hc nofun
  | measured c v fl hc hfl hv =>
    have hlen := toNat_ofNat_frameLen hfl
    refine finish_inv hr hbuf (hlen.trans_le hfl) hc fun hp => ?_
    obtain ⟨hok, hne, -⟩ := of_decide_eq_true hp
    exact ⟨hok, hv hne, fun hzero => hne (hlen.symm.trans (congrArg BitVec.toNat hzero))⟩
  | decoded r hd =>
    cases r with
    | ok v da sa fc n pair => exact finish_inv hr hbuf (hd ⟨_, _, _, _, _, _, rfl⟩) hcode nofun
    | checksum cv rv => exact finish_inv hr hbuf (Nat.zero_le _) hcode nofun
    | malformed => exact finish_inv hr hbuf (Nat.zero_le _) hcode nofun
    | framing => exact finish_inv hr hbuf (Nat.zero_le _) hcode nofun
  | encoded i v n x m hn hm => exact finish_inv hr hbuf ((toNat_ofNat_frameLen hn).trans_le hn) hcode nofun
  | generated a b x hab => exact finish_inv hr hbuf hs.flenBound hcode nofun
  | checked a b c x y hc => exact finish_inv hr hbuf hs.flenBound hc nofun

theorem runWord_inv {w : Word} (h : runWord w s = .next t) (hs : s.Inv) (hr : s.rstN = true) : t.Inv := by
  obtain ⟨i, -, hi⟩ | ⟨-, rfl⟩ := runWord_next h
  · exact (exec_completion hi).inv hs hr
  · exact finish_inv hr hs.bufWf hs.flenBound rfl nofun

/-- After a hard reset the invariant holds at either level of the pin. -/
theorem hardReset_inv (s : State) (level : Bool) : State.Inv { hardReset s with rstN := level } where
  bufWf := wf_nil
  busyIffPending := rfl
  doneNotBusy := nofun
  codeProduced := rfl
  variantOnlyOnOk _ := rfl
  cplOnlyOnFrame := nofun
  flenBound := Nat.zero_le _
  heldInReset _ := rfl

theorem driveRst_inv (level : Bool) (hs : s.Inv) : (driveRst level s).Inv := by
  unfold driveRst
  split_ifs
  · exact hs
  · exact hardReset_inv s level

theorem softReset_inv (hs : s.Inv) (hr : s.rstN = true) : (softReset s).Inv where
  bufWf := wf_undefine _ _ hs.bufWf
  busyIffPending := rfl
  doneNotBusy := nofun
  codeProduced := rfl
  variantOnlyOnOk _ := rfl
  cplOnlyOnFrame := nofun
  flenBound := Nat.zero_le _
  heldInReset hlow := absurd (hr.symm.trans hlow) nofun

theorem RegisterWrite.inv {off : Offset} {v : Word} (h : RegisterWrite off v s t) (hs : s.Inv)
    (hr : s.rstN = true) : t.Inv := by
  have live : ∀ {P : Prop}, s.rstN = false → P := fun hlow => absurd (hr.symm.trans hlow) nofun
  obtain ⟨-, -, rfl⟩ | ⟨-, -, rfl⟩ | ⟨-, -, rfl⟩ | ⟨-, -, rfl⟩ | ⟨-, rfl⟩ | ⟨-, -, rfl⟩ | ⟨-, -, rfl⟩ := h
  · exact softReset_inv hs hr
  · exact { hs with heldInReset := live }
  · exact { hs with heldInReset := live }
  · exact { hs with busyIffPending := rfl, doneNotBusy := fun _ => rfl, heldInReset := live }
  · exact { hs with doneNotBusy := fun hb => by simp [hs.doneNotBusy hb], heldInReset := live }
  · exact { hs with heldInReset := live }
  · exact { hs with heldInReset := live }

theorem bufWrites_inv {i : Nat} {vs : List Byte} (hs : s.Inv) (hr : s.rstN = true) (h : i + vs.length ≤ 256) :
    (bufWrites i vs s).Inv := by
  have hwf := wf_bufWrites hs.bufWf h
  rw [bufWrites_eq]
  exact { hs with bufWf := hwf, heldInReset := fun hlow => absurd (hr.symm.trans hlow) nofun }

theorem hostAccess_inv {a : Access} (h : hostAccess a s = .next t) (hs : s.Inv) : t.Inv := by
  obtain ⟨d, n, rfl⟩ | rfl | ⟨hr, off, v, -, hw⟩ | ⟨hr, -, i, vs, hi, rfl⟩ := hostAccess_next h
  · exact hs.of_hostSide rfl
  · exact hs
  · exact hw.inv hs hr
  · exact bufWrites_inv hs hr hi

/-- Settles O56: each move a step can make keeps the invariant. -/
theorem stepKeepsInvariant : Obligations.StepKeepsInvariant := by
  intro s t hs h
  have hmoved : (movedOn s).Inv := hs.of_hostSide rfl
  obtain rfl | ⟨-, hr, w, -, hrun⟩ | ⟨-, rest, -, rfl⟩ | ⟨a, rest, -, hacc⟩ | ⟨level, -, rfl⟩ := step_next h
  · exact hmoved
  · exact runWord_inv hrun hmoved hr
  · exact hmoved.of_hostSide rfl
  · exact hostAccess_inv hacc (hs.of_hostSide rfl)
  · exact driveRst_inv level hmoved

end Sys2Proof.Machine

/-! ## A command's outcome is a function of its operands (10_state.md R23) -/

namespace Sys2Proof.Machine

variable {s s' t t' : State} {i : Instr}

/-- The encoders of 43_encode.md. -/
def IsEncoder (i : Instr) : Prop :=
  i = .encToken ∨ i = .encSc ∨ i = .encFix0 ∨ i = .encFix8 ∨ i = .encVar

/-- Two completions of a command that agree in `STATUS`, `BUF`, `LEN` and every result register the command writes. -/
def SameOutcome (i : Instr) (t t' : State) : Prop :=
  t'.code = t.code ∧ t'.variant = t.variant ∧ t'.cpl = t.cpl ∧ t'.buf = t.buf ∧ t'.len = t.len ∧
  (i = .decode → t.code ≠ .eIllegal → t'.res = t.res ∧ t'.flen = t.flen ∧
    t'.fcsCalc = t.fcsCalc ∧ t'.fcsRecv = t.fcsRecv) ∧
  (i = .measure → t.code ≠ .eIllegal → t'.flen = t.flen) ∧
  ((∃ a b, i = .fcsGen a b ∨ i = .fcsChk a b) → t.code ≠ .eIllegal →
    t'.fcsCalc = t.fcsCalc ∧ t'.fcsRecv = t.fcsRecv) ∧
  (IsEncoder i → t.code = .ok → t'.flen = t.flen ∧ t'.fcsCalc = t.fcsCalc ∧ t'.fcsRecv = t.fcsRecv)

/-- Two results of a command: the same fault, or completions that agree. -/
def SameResult (i : Instr) (r r' : Result) : Prop :=
  (∀ f, r = .fault f → r' = .fault f) ∧ ∀ t, r = .next t → ∃ t', r' = .next t' ∧ SameOutcome i t t'

theorem SameOutcome.next (h : SameOutcome i t t') : SameResult i (.next t) (.next t') := by
  refine ⟨nofun, ?_⟩
  rintro _ ⟨⟩
  exact ⟨t', rfl, h⟩

/-- After the same reads, results agree where they agree on every value read. -/
theorem SameResult.reading {α : Type} {r : Except Fault α} {k k' : α → Result}
    (h : ∀ a, SameResult i (k a) (k' a)) : SameResult i (reading r k) (reading r k') := by
  cases r with
  | ok a => exact h a
  | error f => exact ⟨fun _ => id, fun _ ht => nomatch (reading_error f k).symm.trans ht⟩

theorem bufWrites_buf_congr (h : s'.buf = s.buf) (k : Nat) (vs : List Byte) :
    (bufWrites k vs s').buf = (bufWrites k vs s).buf := by
  induction vs generalizing k s s' with
  | nil => exact h
  | cons v vs ih => exact ih (by rw [bufWrite_buf, bufWrite_buf, h]) (k + 1)

section
variable (hbuf : s'.buf = s.buf) (hlen : s'.len = s.len)
include hbuf hlen

/-- An illegal command changes `STATUS` alone. -/
theorem sameResult_illegal (i : Instr) :
    SameResult i (.next (finish .eIllegal .none false s)) (.next (finish .eIllegal .none false s')) :=
  SameOutcome.next (by simp [SameOutcome, hbuf, hlen])

theorem sameResult_rejectN (hi : IsEncoder i) : SameResult i (rejectN s) (rejectN s') := by
  obtain rfl | rfl | rfl | rfl | rfl := hi <;> exact SameOutcome.next (by simp [SameOutcome, hbuf, hlen])

end

theorem sameResult_finishEncoder (hbuf : s'.buf = s.buf) (hi : IsEncoder i) (v : Variant) (n : Nat) (x : Byte) :
    SameResult i (.next (finishEncoder v n x s)) (.next (finishEncoder v n x s')) := by
  obtain rfl | rfl | rfl | rfl | rfl := hi <;> exact SameOutcome.next (by simp [SameOutcome, hbuf])

theorem sameResult_encodeFramed (hbuf : s'.buf = s.buf) (hi : IsEncoder i) (v : Variant) (n : Nat)
    (hd : List Byte) : SameResult i (encodeFramed v n hd s) (encodeFramed v n hd s') := by
  have hhd := bufWrites_buf_congr hbuf 0 hd
  simp only [encodeFramed, hhd]
  exact .reading fun x => sameResult_finishEncoder (bufWrites_buf_congr hhd _ _) hi _ _ x

/-- The same decoded telegram leaves the same outcome. -/
theorem sameOutcome_finishDecode (hbuf : s'.buf = s.buf) (hlen : s'.len = s.len) (r : DecodeResult) :
    SameOutcome .decode (finishDecode r s) (finishDecode r s') := by
  cases r <;> simp [SameOutcome, finishDecode, IsEncoder, hbuf, hlen]

/-- Each command reads its operands alone: rewritten with equal operands, its two runs make the same choices. -/
theorem sameResult_exec (hfields : s'.fields = s.fields) (hlen : s'.len = s.len) (hbuf : s'.buf = s.buf)
    (hcfg : s'.cfg = s.cfg) (i : Instr) : SameResult i (exec i s) (exec i s') := by
  have hn : fieldsN s' = fieldsN s := by rw [fieldsN, hfields, fieldsN]
  have hda : fieldsDa s' = fieldsDa s := by rw [fieldsDa, hfields, fieldsDa]
  have hsa : fieldsSa s' = fieldsSa s := by rw [fieldsSa, hfields, fieldsSa]
  have hfc : fieldsFc s' = fieldsFc s := by rw [fieldsFc, hfields, fieldsFc]
  cases i with
  | classify =>
    simp only [exec, execClassify, hlen, hbuf]
    split_ifs
    · exact sameResult_illegal hbuf hlen _
    · exact .reading fun r => SameOutcome.next (by simp [SameOutcome, IsEncoder, hbuf, hlen])
  | measure =>
    simp only [exec, execMeasure, hlen, hbuf, hcfg]
    split_ifs
    · exact sameResult_illegal hbuf hlen _
    · exact .reading fun r => SameOutcome.next (by simp [SameOutcome, IsEncoder])
  | decode =>
    simp only [exec, execDecode, hlen, hbuf, hcfg]
    split_ifs
    · exact sameResult_illegal hbuf hlen _
    · exact .reading fun r => (sameOutcome_finishDecode hbuf hlen r).next
  | encToken =>
    have hi : IsEncoder .encToken := by simp [IsEncoder]
    simp only [exec, execEncToken, hn, hda, hsa]
    split_ifs
    · exact sameResult_finishEncoder (bufWrites_buf_congr hbuf _ _) hi _ _ _
    · exact sameResult_rejectN hbuf hlen hi
  | encSc =>
    have hi : IsEncoder .encSc := by simp [IsEncoder]
    simp only [exec, execEncSc, hn]
    split_ifs
    · exact sameResult_finishEncoder (bufWrites_buf_congr hbuf _ _) hi _ _ _
    · exact sameResult_rejectN hbuf hlen hi
  | encFix0 =>
    have hi : IsEncoder .encFix0 := by simp [IsEncoder]
    simp only [exec, execEncFix0, hn, hda, hsa, hfc]
    split_ifs
    · exact sameResult_encodeFramed hbuf hi _ _ _
    · exact sameResult_rejectN hbuf hlen hi
  | encFix8 =>
    have hi : IsEncoder .encFix8 := by simp [IsEncoder]
    simp only [exec, execEncFix8, hn, hda, hsa, hfc]
    split_ifs
    · exact sameResult_encodeFramed hbuf hi _ _ _
    · exact sameResult_rejectN hbuf hlen hi
  | encVar =>
    have hi : IsEncoder .encVar := by simp [IsEncoder]
    simp only [exec, execEncVar, hn, hda, hsa, hfc, hcfg]
    split_ifs
    · exact sameResult_encodeFramed hbuf hi _ _ _
    · exact sameResult_rejectN hbuf hlen hi
  | fcsGen a b =>
    simp only [exec, execFcsGen, hbuf]
    split_ifs
    · exact sameResult_illegal hbuf hlen _
    · exact .reading fun x => SameOutcome.next (by simp [SameOutcome, IsEncoder, hbuf, hlen])
  | fcsChk a b =>
    simp only [exec, execFcsChk, hbuf]
    split_ifs
    · exact sameResult_illegal hbuf hlen _
    · exact .reading fun x => .reading fun y => SameOutcome.next (by simp [SameOutcome, IsEncoder, hbuf, hlen])

/-- Settles O28: two runs of one command with equal operands give the same result. -/
theorem resultsDependOnOperandsAlone : Obligations.ResultsDependOnOperandsAlone :=
  fun i _ _ hfields hlen hbuf hcfg => sameResult_exec hfields.symm hlen.symm hbuf.symm hcfg.symm i

end Sys2Proof.Machine

/-! ## What a completion leaves unchanged, and its flags (60_exceptions.md R82, R87) -/

namespace Sys2Proof.Machine

variable {s t : State}

/-- A completion of any word, legal or not: `STATUS` and `PEND` finished, the rest changed in the result registers and
`BUF` alone. -/
theorem runWord_next_shape {w : Word} (h : runWord w s = .next t) :
    ∃ c v p u, t = finish c v p u ∧
      u = { s with buf := u.buf, len := u.len, res := u.res, fcsCalc := u.fcsCalc, fcsRecv := u.fcsRecv,
                   flen := u.flen } := by
  obtain ⟨i, -, hi⟩ | ⟨-, rfl⟩ := runWord_next h
  · exact exec_next_shape hi
  · exact ⟨_, _, _, s, rfl, rfl⟩

/-- An illegal word completes as a rejected command does: every completion is one of those of `Completion`. -/
theorem runWord_completion {w : Word} (h : runWord w s = .next t) :
    ∃ i, (decodeWord w ≠ .instr .measure → i ≠ .measure) ∧ Completion s i t := by
  obtain ⟨i, hw, hi⟩ | ⟨-, rfl⟩ := runWord_next h
  · exact ⟨i, fun hne him => hne (him ▸ hw), exec_completion hi⟩
  · exact ⟨.classify, nofun, .rejected _ _ (.inl rfl)⟩

/-- Settles O23: the frame from the shape of a completion, the flags from its cases. -/
theorem completionFrameAndFlags : Obligations.CompletionFrameAndFlags := by
  intro w s t h
  obtain ⟨i, hi, hcompl⟩ := runWord_completion h
  have hcode := hcompl.codeProduced
  have hcpl : decodeWord w ≠ .instr .measure → t.cpl = false := fun hne => hcompl.cpl_of_not_measure (hi hne)
  obtain ⟨c, v, p, u, rfl, hu⟩ := runWord_next_shape h
  refine ⟨?_, ⟨rfl, rfl, rfl⟩, fun hne => if_neg hne, hcpl, hcode⟩
  rw [hu]
  exact ⟨rfl, rfl, rfl, rfl, rfl, rfl, rfl, rfl, rfl⟩

end Sys2Proof.Machine

/-! ## The registers on the bus (10_state.md R12 to R20, R25; 60_exceptions.md R87) -/

namespace Sys2Proof.Machine

variable {s : State}

theorem hostAccess_live (hr : s.rstN = true) (a : Access) : hostAccess a s = accessLive a s :=
  if_pos hr

/-- A 32-bit read of a register to which no hazard applies. -/
theorem hostAccess_readRegister {off : Offset} (hr : s.rstN = true) (hoff : off.toNat < 0x100)
    (hal : off.toNat % 4 = 0) (hfree : s.busy = false ∨ resultHazard (regAt off.toNat) = false) :
    hostAccess (.r32 off) s = .next (answer (.word (readRegister (regAt off.toNat) s)) s) := by
  have hno : (s.busy && resultHazard (regAt off.toNat)) = false := Bool.and_eq_false_iff.mpr hfree
  simp [hostAccess_live hr, accessLive, legalAccess, hal, read32, hoff, hno]

theorem hostAccess_writeRegister {off : Offset} (hr : s.rstN = true) (hoff : off.toNat < 0x100)
    (hal : off.toNat % 4 = 0) (v : Word) :
    hostAccess (.w32 off v) s = writeRegister (regAt off.toNat) off.toNat v s := by
  simp [hostAccess_live hr, accessLive, legalAccess, hal, write32, hoff]

theorem hostAccess_writeCtrl (hr : s.rstN = true) (v : Word) : hostAccess (.w32 0x000 v) s = .next (writeCtrl v s) :=
  hostAccess_writeRegister hr (by decide) (by decide) v

theorem hostAccess_writeCmd (hr : s.rstN = true) (v : Word) : hostAccess (.w32 0x004 v) s = .next (writeCmd v s) :=
  hostAccess_writeRegister hr (by decide) (by decide) v

theorem hostAccess_writeStatus (hr : s.rstN = true) (v : Word) :
    hostAccess (.w32 0x008 v) s = .next (clearW1C v s) :=
  hostAccess_writeRegister hr (by decide) (by decide) v

theorem writeCtrl_softReset {v : Word} (h : v.getLsbD 1 = true) (s : State) : writeCtrl v s = softReset s :=
  if_pos h

theorem writeCtrl_ie {v : Word} (h : v.getLsbD 1 = false) (s : State) :
    writeCtrl v s = { s with ie := v.getLsbD 0 } :=
  if_neg (Bool.eq_false_iff.mp h)

theorem writeCmd_accept (h : s.busy = false) (w : Word) : writeCmd w s = accept w s :=
  if_neg (Bool.eq_false_iff.mp h)

theorem unlessBusy_idle (h : s.busy = false) (off : Nat) (t : State) : unlessBusy off s t = .next t :=
  if_neg (Bool.eq_false_iff.mp h)

/-- The pin driven low puts the block in its reset state, whatever its level was. -/
theorem driveRst_low (s : State) : driveRst false s = { hardReset s with rstN := false } := rfl

/-- Settles O37: each event is an operation that says what `DONE` and `IE` become. -/
theorem interruptFollowsDoneAndEnable : Obligations.InterruptFollowsDoneAndEnable := by
  refine ⟨fun w s t h => ?_, fun s hr => ⟨fun v hv => ?_, fun v hv => ?_, fun w hb => ?_, fun v hv => ?_⟩, fun s => ?_⟩
  · obtain ⟨hframe, hflags, -⟩ := completionFrameAndFlags w s t h
    obtain ⟨hie, -⟩ := hframe
    obtain ⟨-, hdone, -⟩ := hflags
    rw [State.irq, hdone, hie, Bool.true_and]
  · exact ⟨_, hostAccess_writeCtrl hr v, by rw [writeCtrl_ie hv]; exact ⟨rfl, rfl⟩⟩
  · exact ⟨_, hostAccess_writeStatus hr v, by simp [State.irq, hv]⟩
  · exact ⟨_, hostAccess_writeCmd hr w, by rw [writeCmd_accept hb]; rfl⟩
  · exact ⟨_, hostAccess_writeCtrl hr v, by rw [writeCtrl_softReset hv]; rfl⟩
  · rw [driveRst_low]; rfl

/-- Settles O39: each row of the register map, with the hazard ruled out. -/
theorem registerWritesTakeEffect : Obligations.RegisterWritesTakeEffect := by
  intro s v hr hb
  have write : ∀ off : Offset, off.toNat < 0x100 → off.toNat % 4 = 0 →
      hostAccess (.w32 off v) s = writeRegister (regAt off.toNat) off.toNat v s :=
    fun off hoff hal => hostAccess_writeRegister hr hoff hal v
  refine ⟨fun hv => ?_, ?_, hostAccess_writeStatus hr v, ?_, ?_, ?_, ?_, ?_⟩
  · rw [hostAccess_writeCtrl hr, writeCtrl_ie hv]
  · rw [hostAccess_writeCmd hr, writeCmd_accept hb]; rfl
  · exact (write 0x00C (by decide) (by decide)).trans (unlessBusy_idle hb _ _)
  · exact (write 0x010 (by decide) (by decide)).trans (unlessBusy_idle hb _ _)
  · exact write 0x014 (by decide) (by decide)
  · exact write 0x018 (by decide) (by decide)
  · exact write 0x01C (by decide) (by decide)

/-- Settles O41: a reserved offset is below `BUF`, reads 0 and stores nothing. -/
theorem reservedOffsetsAreInert : Obligations.ReservedOffsetsAreInert := by
  intro s off v hr hlo hhi hal
  have hres : regAt off.toNat = .reserved := regAt_reserved hlo
  constructor
  · rw [hostAccess_readRegister hr (by omega) hal (.inr (by rw [hres]; rfl)), hres]
    rfl
  · rw [hostAccess_writeRegister hr (by omega) hal, hres]
    rfl

theorem ctrlWord_eq (s : State) : ctrlWord s = BitVec.ofNat 32 s.ie.toNat := by
  unfold ctrlWord bit
  cases s.ie <;> rfl

theorem lenWord_eq (s : State) : lenWord s = s.len.setWidth 32 := by
  rw [BitVec.setWidth_eq_append (by decide)]
  rfl

theorem flenWord_eq (s : State) : flenWord s = s.flen.setWidth 32 := by
  rw [BitVec.setWidth_eq_append (by decide)]
  rfl

theorem fcsrWord_eq (s : State) : fcsrWord s = BitVec.ofNat 32 (s.fcsCalc.toNat + 256 * s.fcsRecv.toNat) := by
  apply BitVec.eq_of_toNat_eq
  simp only [fcsrWord, BitVec.toNat_append, BitVec.toNat_ofNat]
  rw [← Nat.shiftLeft_add_eq_or_of_lt s.fcsCalc.isLt, Nat.shiftLeft_eq]
  simp only [Nat.zero_mod, Nat.zero_shiftLeft, Nat.zero_or]
  omega

/-- Settles O40: each row of the register map, with the hazard ruled out. -/
theorem registerReadsReturnFields : Obligations.RegisterReadsReturnFields := by
  intro s hr hb
  have read : ∀ off : Offset, off.toNat < 0x100 → off.toNat % 4 = 0 →
      hostAccess (.r32 off) s = .next (answer (.word (readRegister (regAt off.toNat) s)) s) :=
    fun off hoff hal => hostAccess_readRegister hr hoff hal (.inl hb)
  rw [← ctrlWord_eq, ← lenWord_eq, ← fcsrWord_eq, ← flenWord_eq]
  exact ⟨read 0x000 (by decide) (by decide), read 0x004 (by decide) (by decide),
    read 0x00C (by decide) (by decide), read 0x010 (by decide) (by decide), read 0x014 (by decide) (by decide),
    read 0x018 (by decide) (by decide), read 0x01C (by decide) (by decide)⟩

/-! ### The fields of `STATUS` (10_state.md R15) -/

theorem statusWord_code (s : State) : (statusWord s).extractLsb' 0 8 = codeByte s.code :=
  BitVec.extractLsb'_append_eq_right

theorem statusWord_variant (s : State) : (statusWord s).extractLsb' 8 3 = variantBits s.variant :=
  (BitVec.extractLsb'_append_eq_of_le le_rfl).trans BitVec.extractLsb'_append_eq_right

/-- The single-bit fields of `STATUS`. -/
theorem statusWord_flags (s : State) :
    (statusWord s).getLsbD 11 = s.cpl ∧ (statusWord s).getLsbD 16 = s.busy ∧
    (statusWord s).getLsbD 17 = s.done ∧ (statusWord s).getLsbD 18 = s.ovr := by
  simp only [statusWord, bit, BitVec.getLsbD_append]
  simp

theorem statusWord_reserved_low (s : State) : (statusWord s).extractLsb' 12 4 = 0#4 := by
  ext i hi
  simp only [statusWord, BitVec.getElem_extractLsb', BitVec.getLsbD_append]
  simp +arith [hi]

theorem statusWord_reserved_high (s : State) : (statusWord s).extractLsb' 19 13 = 0#13 := by
  ext i hi
  simp only [statusWord, BitVec.getElem_extractLsb', BitVec.getLsbD_append]
  simp +arith

/-- Settles O38: `STATUS` is under no hazard, and each field of its word stands at its bits. -/
theorem statusWordLayout : Obligations.StatusWordLayout := by
  refine ⟨by decide, by decide, fun s hr => ?_⟩
  have hread : hostAccess (.r32 0x008) s = .next (answer (.word (statusWord s)) s) :=
    hostAccess_readRegister hr (by decide) (by decide) (.inr (by decide))
  obtain ⟨hcpl, hbusy, hdone, hovr⟩ := statusWord_flags s
  exact ⟨statusWord s, hread, statusWord_code s, statusWord_variant s, hcpl, statusWord_reserved_low s, hbusy, hdone,
    hovr, statusWord_reserved_high s⟩

/-! ### The values after a reset (10_state.md R26) -/

/-- Settles O48: a reset sets every register, and only a hard reset empties `BUF`. -/
theorem resetValues : Obligations.ResetValues := by
  refine ⟨⟨by decide, fun _ => rfl⟩, fun s => ⟨?_, fun _ => rfl⟩, fun s v hr hv => ⟨softReset s, ?_, ?_⟩⟩
  · simp [driveRst_low, ctrlWord, lenWord, fcsrWord, flenWord, bit, codeByte, variantBits, State.irq]
  · rw [hostAccess_writeCtrl hr, writeCtrl_softReset hv]
  · simp [ctrlWord, lenWord, fcsrWord, flenWord, bit, codeByte, variantBits, State.irq]

end Sys2Proof.Machine

/-! ## What a step that is no reset can change of `BUF`, `RES` and `FIELDS` (10_state.md R16, R18, R22) -/

namespace Sys2Proof.Machine

variable {s t : State}

/-- The next step is a move of the reset pin or a host write of `CTRL` with bit 1 set. -/
def NextResets (s : State) : Prop :=
  (∃ level, nextMove s = .rst level) ∨ ∃ v, nextAccess s = some (.w32 0x000 v) ∧ v.getLsbD 1 = true

theorem nextCommand_eq_some {w : Word} {i : Instr} (hm : nextMove s = .codec) (hr : s.rstN = true)
    (hp : s.pend = some w) (hw : decodeWord w = .instr i) : nextCommand s = some i := by
  simp [nextCommand, hm, hp, hw, hr]

theorem RegisterWrite.effect {off : Offset} {v : Word} (h : RegisterWrite off v s t) :
    (off = 0x000 ∧ v.getLsbD 1 = true) ∨
    (t.buf = s.buf ∧ t.res = s.res ∧ (t.fields = s.fields ∨ off = 0x00C ∧ t.fields = v)) := by
  obtain ⟨hoff, hv, -⟩ | ⟨-, -, rfl⟩ | ⟨-, -, rfl⟩ | ⟨-, -, rfl⟩ | ⟨-, rfl⟩ | ⟨hoff, -, rfl⟩ | ⟨-, -, rfl⟩ := h
  case inl => exact .inl ⟨hoff, hv⟩
  case inr.inr.inr.inr.inr.inl => exact .inr ⟨rfl, rfl, .inr ⟨hoff, rfl⟩⟩
  all_goals exact .inr ⟨rfl, rfl, .inl rfl⟩

/-- A host access that is no soft reset stores bytes, or a word in `FIELDS`, and leaves `RES` alone. -/
theorem hostAccess_effect {a : Access} (h : hostAccess a s = .next t) :
    (∃ v, a = .w32 0x000 v ∧ v.getLsbD 1 = true) ∨
    (Written s.buf t.buf ∧ t.res = s.res ∧ (t.fields = s.fields ∨ ∃ v, a = .w32 0x00C v ∧ t.fields = v)) := by
  obtain ⟨d, n, rfl⟩ | rfl | ⟨-, off, v, rfl, hw⟩ | ⟨-, -, i, vs, hi, rfl⟩ := hostAccess_next h
  · exact .inr ⟨.refl, rfl, .inl rfl⟩
  · exact .inr ⟨.refl, rfl, .inl rfl⟩
  · obtain ⟨rfl, hv⟩ | ⟨hbuf, hres, hfields⟩ := hw.effect
    · exact .inl ⟨v, rfl, hv⟩
    · refine .inr ⟨hbuf ▸ .refl, hres, hfields.imp_right ?_⟩
      rintro ⟨rfl, hv⟩
      exact ⟨v, rfl, hv⟩
  · exact .inr ⟨written_bufWrites hi s, by rw [bufWrites_eq], .inl (by rw [bufWrites_eq])⟩

theorem runWord_effect {w : Word} (h : runWord w s = .next t) :
    Written s.buf t.buf ∧ (t.res = s.res ∨ decodeWord w = .instr .decode) ∧ t.fields = s.fields := by
  have hfields : t.fields = s.fields := by
    obtain ⟨c, v, p, u, rfl, hu⟩ := runWord_next_shape h
    rw [finish_fields, hu]
  obtain ⟨i, hw, hi⟩ | ⟨-, rfl⟩ := runWord_next h
  · have hcompl := exec_completion hi
    refine ⟨hcompl.written, ?_, hfields⟩
    by_cases hd : i = .decode
    · exact .inr (hd ▸ hw)
    · exact .inl (hcompl.res_of_not_decode hd)
  · exact ⟨.refl, .inl rfl, hfields⟩

/-- A step is a reset, or writes bytes of `BUF`, changes `RES` by `DECODE` alone and `FIELDS` by a host write of it. -/
theorem step_effect (h : step s = .next t) :
    NextResets s ∨
    (Written s.buf t.buf ∧ (t.res = s.res ∨ nextCommand s = some .decode) ∧
      (t.fields = s.fields ∨ ∃ v, nextAccess s = some (.w32 0x00C v) ∧ t.fields = v)) := by
  obtain rfl | ⟨hm, hr, w, hp, hrun⟩ | ⟨-, rest, -, rfl⟩ | ⟨a, rest, ha, hacc⟩ | ⟨level, hm, -⟩ := step_next h
  · exact .inr ⟨.refl, .inl rfl, .inl rfl⟩
  · obtain ⟨hbuf, hres, hfields⟩ := runWord_effect hrun
    exact .inr ⟨hbuf, hres.imp_right (nextCommand_eq_some hm hr hp), .inl hfields⟩
  · exact .inr ⟨.refl, .inl rfl, .inl rfl⟩
  · rw [NextResets, ha]
    obtain ⟨v, rfl, hv⟩ | ⟨hbuf, hres, hfields⟩ := hostAccess_effect hacc
    · exact .inl (.inr ⟨v, rfl, hv⟩)
    · refine .inr ⟨hbuf, .inl hres, hfields.imp_right ?_⟩
      rintro ⟨v, rfl, hv⟩
      exact ⟨v, rfl, hv⟩
  · exact .inl (.inl ⟨level, hm⟩)

/-- Settles O52: a step that is no reset only writes bytes, and a write makes none undefined. -/
theorem onlyResetUndefinesBytes : Obligations.OnlyResetUndefinesBytes := by
  intro s t i b h hdef hundef
  obtain hreset | ⟨hbuf, -, -⟩ := step_effect h
  · exact hreset
  · exact nomatch hdef.symm.trans (hbuf.byte?_none hundef)

/-- Settles O53: of the steps that are no reset, only `DECODE` writes `RES`. -/
theorem onlyDecodeWritesRes : Obligations.OnlyDecodeWritesRes := by
  intro s t h hne
  obtain hreset | ⟨-, hres, -⟩ := step_effect h
  · exact .inr hreset
  · exact .inl (hres.resolve_left hne)

/-- Settles O54: of the steps that are no reset, only a host write of `FIELDS` changes it. -/
theorem onlyHostWritesFields : Obligations.OnlyHostWritesFields := by
  intro s t h hne
  obtain hreset | ⟨-, -, hfields⟩ := step_effect h
  · exact .inr hreset
  · exact .inl (hfields.resolve_left hne)

end Sys2Proof.Machine

/-! ## Accesses while `RST_N` is 0, and illegal accesses (20_memory.md R30, R31; 70_reset_and_hazards.md R97) -/

namespace Sys2Proof.Machine

variable {s t : State}

theorem hostAccess_inReset (hr : s.rstN = false) (a : Access) : hostAccess a s = .next (accessInReset a s) :=
  if_neg (Bool.eq_false_iff.mp hr)

theorem hostAccess_illegal {a : Access} (hr : s.rstN = true) (ha : legalAccess a = false) :
    hostAccess a s = .fault (.illegalAccess (accessOffset a)) :=
  (hostAccess_live hr a).trans (if_neg (Bool.eq_false_iff.mp ha))

/-- Out of reset only a legal access answers. -/
theorem legalAccess_of_next {a : Access} (hr : s.rstN = true) (h : hostAccess a s = .next t) :
    legalAccess a = true := by
  by_contra ha
  exact nomatch h.symm.trans (hostAccess_illegal hr (Bool.eq_false_iff.mpr ha))

/-- Settles O50: in reset the width and the offset of an access are not looked at. -/
theorem illegalAccessesInResetAreInert : Obligations.IllegalAccessesInResetAreInert := by
  intro s off b h v hr
  have inert : ∀ a : Access, hostAccess a s = .next (accessInReset a s) := hostAccess_inReset hr
  exact ⟨inert _, inert _, fun _ => ⟨inert _, inert _⟩, fun _ => ⟨inert _, inert _⟩⟩

end Sys2Proof.Machine

/-! ## Bytes and words of `BUF` on the bus (20_memory.md R30 to R32; 70_reset_and_hazards.md R101, R102) -/

namespace Sys2Proof.Machine

variable {s : State} {off : Offset}

theorem bufRead_undefined {m : Memory} {i : Nat} (h : m.byte? i = none) :
    bufRead m i = .error (.undefinedBufRead i) := by
  rw [bufRead, h]

theorem holds_cons {m : Memory} {i : Nat} {b : Byte} {bs : List Byte} :
    Holds m i (b :: bs) ↔ bufRead m i = .ok b ∧ Holds m (i + 1) bs := by
  have hone : Holds m i [b] ↔ bufRead m i = .ok b := by
    refine ⟨fun h => h 0 b rfl, fun h k c hk => ?_⟩
    obtain ⟨rfl, rfl⟩ : k = 0 ∧ b = c := by simpa [List.getElem?_singleton] using hk
    exact h
  exact (holds_append (xs := [b])).trans (and_congr_left' hone)

theorem bufReadWord_of_holds {m : Memory} {i : Nat} {b0 b1 b2 b3 : Byte} (h : Holds m i [b0, b1, b2, b3]) :
    bufReadWord m i = .ok (packWord b3 b2 b1 b0) := by
  simp only [holds_cons, Nat.add_assoc, Nat.reduceAdd] at h
  obtain ⟨h0, h1, h2, h3, -⟩ := h
  simp [bufReadWord, h0, h1, h2, h3]

/-- The bytes of a word are read in rising order, so the first undefined one is the lowest. -/
theorem bufReadWord_undefined {m : Memory} {i : Nat} {bs : List Byte} (hlen : bs.length < 4) (h : Holds m i bs)
    (hundef : m.byte? (i + bs.length) = none) :
    bufReadWord m i = .error (.undefinedBufRead (i + bs.length)) := by
  have hstop := bufRead_undefined hundef
  simp only [bufReadWord]
  match bs with
  | [] => simp [show bufRead m i = _ from hstop]
  | [b0] =>
    obtain ⟨h0, -⟩ := holds_cons.mp h
    simp [h0, show bufRead m (i + 1) = _ from hstop]
  | [b0, b1] =>
    simp only [holds_cons] at h
    obtain ⟨h0, h1, -⟩ := h
    simp [h0, h1, show bufRead m (i + 2) = _ from hstop]
  | [b0, b1, b2] =>
    simp only [holds_cons, Nat.add_assoc, Nat.reduceAdd] at h
    obtain ⟨h0, h1, h2, -⟩ := h
    simp [h0, h1, h2, show bufRead m (i + 3) = _ from hstop]
  | _ :: _ :: _ :: _ :: _ => simp at hlen; omega

/-! ### What the four accesses of `BUF` are -/

theorem hostAccess_readByte (hr : s.rstN = true) (hoff : 0x100 ≤ off.toNat) :
    hostAccess (.r8 off) s = read8 off.toNat s :=
  (hostAccess_live hr _).trans (if_pos (decide_eq_true hoff))

theorem hostAccess_writeByte (hr : s.rstN = true) (hoff : 0x100 ≤ off.toNat) (v : Byte) :
    hostAccess (.w8 off v) s = unlessBusy off.toNat s (bufWrite (off.toNat - 0x100) v s) :=
  (hostAccess_live hr _).trans (if_pos (decide_eq_true hoff))

theorem hostAccess_readWord (hr : s.rstN = true) (hoff : 0x100 ≤ off.toNat) (hal : off.toNat % 4 = 0) :
    hostAccess (.r32 off) s = reading (bufReadWord s.buf (off.toNat - 0x100)) fun w =>
      if s.busy then .next (drawWord s) else .next (answer (.word w) s) := by
  have hlive : hostAccess (.r32 off) s = read32 off.toNat s :=
    (hostAccess_live hr _).trans (if_pos (decide_eq_true hal))
  rw [hlive, read32, if_neg (by omega)]

/-- The bytes of a word, the lowest first (R32). -/
def wordBytes (v : Word) : List Byte := [byteAt v 0, byteAt v 1, byteAt v 2, byteAt v 3]

theorem hostAccess_writeWord (hr : s.rstN = true) (hoff : 0x100 ≤ off.toNat) (hal : off.toNat % 4 = 0) (v : Word) :
    hostAccess (.w32 off v) s = unlessBusy off.toNat s (bufWrites (off.toNat - 0x100) (wordBytes v) s) := by
  have hlive : hostAccess (.w32 off v) s = write32 off.toNat v s :=
    (hostAccess_live hr _).trans (if_pos (decide_eq_true hal))
  rw [hlive, write32, if_neg (by omega), wordBytes]

/-! ### Reads over undefined bytes, whether a command is pending or not -/

theorem hostAccess_readByte_undefined (hr : s.rstN = true) (hoff : 0x100 ≤ off.toNat)
    (hundef : s.buf.byte? (off.toNat - 0x100) = none) :
    hostAccess (.r8 off) s = .fault (.undefinedBufRead (off.toNat - 0x100)) := by
  rw [hostAccess_readByte hr hoff, read8, bufRead_undefined hundef, reading_error]

theorem hostAccess_readWord_undefined {bs : List Byte} (hr : s.rstN = true) (hoff : 0x100 ≤ off.toNat)
    (hal : off.toNat % 4 = 0) (hlen : bs.length < 4) (h : Holds s.buf (off.toNat - 0x100) bs)
    (hundef : s.buf.byte? (off.toNat - 0x100 + bs.length) = none) :
    hostAccess (.r32 off) s = .fault (.undefinedBufRead (off.toNat - 0x100 + bs.length)) := by
  rw [hostAccess_readWord hr hoff hal, bufReadWord_undefined hlen h hundef, reading_error]

/-- Settles O43: the accesses that are not legal, and the legal reads that stop at an undefined byte. -/
theorem illegalAccessesFault : Obligations.IllegalAccessesFault := by
  intro s off hr
  have illegal : ∀ a : Access, legalAccess a = false → hostAccess a s = .fault (.illegalAccess (accessOffset a)) :=
    fun _ => hostAccess_illegal hr
  refine ⟨fun v => ⟨illegal _ rfl, illegal _ rfl⟩, fun v hlow => ?_, fun v hmis => ?_,
    hostAccess_readByte_undefined hr, fun bs => hostAccess_readWord_undefined hr⟩
  · have hno : decide (0x100 ≤ off.toNat) = false := decide_eq_false (by omega)
    exact ⟨illegal _ hno, illegal _ hno⟩
  · have hno : decide (off.toNat % 4 = 0) = false := decide_eq_false hmis
    exact ⟨illegal _ hno, illegal _ hno⟩

/-- Settles O44: each legal access of `BUF` with no command pending reads or writes the bytes at its index. -/
theorem bufferAccessIsLittleEndian : Obligations.BufferAccessIsLittleEndian := by
  intro s off hr hb hoff i
  refine ⟨fun b hread => ?_, fun v => ⟨bufWrite i v s, ?_, ?_, ?_, rfl⟩,
    fun b0 b1 b2 b3 hal hbytes => ⟨packWord b3 b2 b1 b0, ?_, ?_⟩,
    fun v hal => ⟨bufWrites i (wordBytes v) s, ?_, ?_, ?_, bufWrites_eq _ _ s⟩⟩
  · rw [hostAccess_readByte hr hoff, read8, hread, reading_ok]
    exact if_neg (Bool.eq_false_iff.mp hb)
  · rw [hostAccess_writeByte hr hoff, unlessBusy_idle hb]
  · exact bufRead_write_same s.buf i v
  · exact fun j hj => bufRead_write_other s.buf v hj
  · rw [hostAccess_readWord hr hoff hal, bufReadWord_of_holds hbytes, reading_ok]
    exact if_neg (Bool.eq_false_iff.mp hb)
  · exact ⟨byteAt_packWord_zero b3 b2 b1 b0, byteAt_packWord_one b3 b2 b1 b0, byteAt_packWord_two b3 b2 b1 b0,
      byteAt_packWord_three b3 b2 b1 b0⟩
  · rw [hostAccess_writeWord hr hoff hal, unlessBusy_idle hb]
  · exact holds_bufWrites i (wordBytes v) s
  · exact fun j hj => bufRead_bufWrites_out hj

theorem hostAccess_readRegister_free (hr : s.rstN = true) (hb : s.busy = true) (hoff : off.toNat < 0x100)
    (hal : off.toNat % 4 = 0) (hres : resultHazard (regAt off.toNat) = true) :
    hostAccess (.r32 off) s = .next (drawWord s) := by
  simp [hostAccess_live hr, accessLive, legalAccess, hal, read32, hoff, hb, hres]

/-- Settles O47: the registers by their row of the hazard table, `BUF` by the reads of its bytes. -/
theorem resultReadsAreFree : Obligations.ResultReadsAreFree := by
  intro s hr hb drawn
  have exactRead : ∀ off : Offset, off.toNat < 0x100 → off.toNat % 4 = 0 → resultHazard (regAt off.toNat) = false →
      hostAccess (.r32 off) s = .next (answer (.word (readRegister (regAt off.toNat) s)) s) :=
    fun off hoff hal hres => hostAccess_readRegister hr hoff hal (.inr hres)
  refine ⟨?_, fun off b hoff hread => ?_, fun off bs hoff hal hlen hbytes => ?_,
    fun off => hostAccess_readByte_undefined hr, fun off bs => hostAccess_readWord_undefined hr,
    exactRead 0x008 (by decide) (by decide) (by decide), exactRead 0x000 (by decide) (by decide) (by decide),
    exactRead 0x00C (by decide) (by decide) (by decide), exactRead 0x004 (by decide) (by decide) (by decide)⟩
  · rintro off (rfl | rfl | rfl | rfl)
    all_goals exact hostAccess_readRegister_free hr hb (by decide) (by decide) (by decide)
  · rw [hostAccess_readByte hr hoff, read8, hread, reading_ok]
    exact if_pos hb
  · obtain ⟨b0, b1, b2, b3, rfl⟩ := List.length_eq_four.mp hlen
    rw [hostAccess_readWord hr hoff hal, bufReadWord_of_holds hbytes, reading_ok]
    exact if_pos hb

end Sys2Proof.Machine

/-! ## Reads change nothing, and data writes are idempotent (20_memory.md R35) -/

namespace Sys2Proof.Machine

variable {s t : State}

theorem write_write_same (m : Memory) (i : Nat) (v w : Byte) : (m.write i v).write i w = m.write i w := by
  induction m with
  | nil => simp [Memory.write]
  | cons c m ih =>
    obtain ⟨a, b⟩ := c
    obtain hlt | rfl | hgt := lt_trichotomy i a
    · simp [Memory.write, hlt]
    · simp [Memory.write]
    · simp [Memory.write, hgt.not_gt, hgt.ne', ih]

/-- Writes of two indices can be exchanged, in any list of cells. -/
theorem write_comm (m : Memory) {i j : Nat} (h : i < j) (v w : Byte) :
    (m.write i v).write j w = (m.write j w).write i v := by
  induction m with
  | nil => simp [Memory.write, h, h.not_gt, h.ne']
  | cons c m ih =>
    obtain ⟨a, b⟩ := c
    obtain hlt | rfl | hgt := lt_trichotomy i a
    · simp only [Memory.write, hlt, h.not_gt, h.ne', if_true, if_false]
      split_ifs <;> simp [Memory.write, h, hlt]
    · simp [Memory.write, h.not_gt, h.ne']
    · simp [Memory.write, hgt.not_gt, hgt.ne', (hgt.trans h).not_gt, (hgt.trans h).ne', ih]

/-- A byte written below several others can be written after them. -/
theorem bufWrites_bufWrite_below {i k : Nat} (h : k < i) (v : Byte) (vs : List Byte) (s : State) :
    bufWrites i vs (bufWrite k v s) = bufWrite k v (bufWrites i vs s) := by
  induction vs generalizing i s with
  | nil => rfl
  | cons w vs ih =>
    have hcomm : bufWrite i w (bufWrite k v s) = bufWrite k v (bufWrite i w s) := by
      simp only [bufWrite, write_comm s.buf h]
    rw [bufWrites, hcomm, ih (by omega), bufWrites]

theorem bufWrites_idempotent (i : Nat) (vs : List Byte) (s : State) :
    bufWrites i vs (bufWrites i vs s) = bufWrites i vs s := by
  induction vs generalizing i s with
  | nil => rfl
  | cons v vs ih =>
    have hsame : bufWrite i v (bufWrite i v s) = bufWrite i v s := by
      simp only [bufWrite, write_write_same]
    rw [bufWrites, bufWrites, ← bufWrites_bufWrite_below (by omega), ih, hsame]

theorem unlessBusy_next {off : Nat} {u : State} (h : unlessBusy off s u = .next t) : s.busy = false ∧ t = u := by
  unfold unlessBusy at h
  split_ifs at h with hb
  cases h
  exact ⟨by simpa using hb, rfl⟩

/-- An access that stores by an idempotent operation `f`, which leaves the block out of reset and idle, gives the same
state when made twice. -/
theorem hostAccess_idempotent {a : Access} {f : State → State} {off : Nat}
    (hacc : ∀ u : State, u.rstN = true → hostAccess a u = unlessBusy off u (f u)) (hff : f (f s) = f s)
    (hrst : (f s).rstN = s.rstN) (hbusy : (f s).busy = s.busy) (hr : s.rstN = true)
    (h : hostAccess a s = .next t) : hostAccess a t = .next t := by
  obtain ⟨hb, rfl⟩ := unlessBusy_next ((hacc s hr).symm.trans h)
  rw [hacc (f s) (hrst.trans hr), unlessBusy_idle (hbusy.trans hb), hff]

theorem hostAccess_bufWrites_idempotent {a : Access} {off i : Nat} {vs : List Byte}
    (hacc : ∀ u : State, u.rstN = true → hostAccess a u = unlessBusy off u (bufWrites i vs u))
    (hr : s.rstN = true) (h : hostAccess a s = .next t) : hostAccess a t = .next t :=
  hostAccess_idempotent hacc (bufWrites_idempotent i vs s) (by rw [bufWrites_eq]) (by rw [bufWrites_eq]) hr h

theorem writeCmd_drop (h : s.busy = true) (w : Word) : writeCmd w s = dropCommand s :=
  if_pos h

/-- Settles O45: a read answers alone, each data write stores by an idempotent operation, and of two `CMD` writes the
second sets `OVR`. -/
theorem readsPureAndDataWritesIdempotent : Obligations.ReadsPureAndDataWritesIdempotent := by
  refine ⟨fun s t off a ha h => ?_, fun s t off v b a hr ha h => ?_, fun s t u w hr hb hovr ht hu heq => ?_⟩
  · obtain ⟨d, n, rfl⟩ := read_changes (ha.imp (⟨off, ·⟩) (Or.imp (⟨off, ·⟩) (⟨off, ·⟩))) h
    rfl
  · obtain ⟨rfl, rfl | rfl | hoff⟩ | ⟨rfl, hoff⟩ := ha
    · exact hostAccess_idempotent (f := fun u => { u with fields := v })
        (fun u hu => hostAccess_writeRegister hu (by decide) (by decide) v) rfl rfl rfl hr h
    · exact hostAccess_idempotent (f := fun u => { u with len := v.extractLsb' 0 9 })
        (fun u hu => hostAccess_writeRegister hu (by decide) (by decide) v) rfl rfl rfl hr h
    · have hal : off.toNat % 4 = 0 := of_decide_eq_true (legalAccess_of_next hr h)
      exact hostAccess_bufWrites_idempotent (fun u hu => hostAccess_writeWord hu hoff hal v) hr h
    · exact hostAccess_bufWrites_idempotent (vs := [b]) (fun u hu => hostAccess_writeByte hu hoff b) hr h
  · rw [hostAccess_writeCmd hr, writeCmd_accept hb] at ht
    cases ht
    rw [hostAccess_writeCmd (s := accept w s) hr, writeCmd_drop rfl] at hu
    cases hu
    exact nomatch (congrArg State.ovr heq).trans hovr

end Sys2Proof.Machine

/-! ## What a step does, by the move it makes (20_memory.md R37; 60_exceptions.md R80; 70_reset_and_hazards.md R106) -/

namespace Sys2Proof.Machine

variable {s : State}

theorem runWord_of_decode {w : Word} {i : Instr} (h : decodeWord w = .instr i) (s : State) :
    runWord w s = exec i s := by
  rw [runWord, h]

theorem codecTurn_pending {w : Word} (hp : s.pend = some w) (hr : s.rstN = true) : codecTurn s = runWord w s := by
  simp only [codecTurn, hp, hr, if_true]

theorem hostTurn_access {a : Access} {rest : List HostOp} (h : s.host = .access a :: rest) :
    hostTurn s = hostAccess a { s with host := rest } := by
  simp only [hostTurn, h]

theorem hostTurn_wait {rest : List HostOp} (h : s.host = .wait :: rest) :
    hostTurn s = .next (pollStatus s rest) := by
  simp only [hostTurn, h]

theorem nextMove_codec_of_pending (hs : s.sched = []) (hr : s.rstN = true) (hp : s.pend ≠ none) :
    nextMove s = .codec := by
  have hready : codecReady s = true := by
    rw [codecReady, hr, Option.isSome_iff_ne_none.mpr hp, Bool.true_and]
  simp only [nextMove, hs, defaultMove, hready, if_true]

/-- Settles O31: a step is the turn of whoever moves next, on the state with that move taken off. -/
theorem stepRunsPendingCommand : Obligations.StepRunsPendingCommand := by
  refine ⟨fun s w i hm hr hp hw => ?_, fun s a rest hm hh => ?_, fun s rest hm hh => ?_, fun s level hm => ?_,
    fun _ => nextMove_codec_of_pending⟩
  · calc step s = codecTurn (movedOn s) := by rw [step_eq, hm, takeMove]
      _ = runWord w (movedOn s) := codecTurn_pending hp hr
      _ = exec i (movedOn s) := runWord_of_decode hw _
  · rw [step_eq, hm]
    exact hostTurn_access hh
  · rw [step_eq, hm]
    exact hostTurn_wait hh
  · rw [step_eq, hm, takeMove]

end Sys2Proof.Machine

/-! ## The command word: decoder, encoder, opcode map and assembler (30_encoding.md R55 to R59) -/

namespace Sys2Proof

variable {w : Word} {i : Instr}

theorem formatN_eq_instr {j : Instr} : formatN w j = .instr i ↔ w.extractLsb' 8 24 = 0#24 ∧ j = i := by
  unfold formatN
  split_ifs with hz <;> simp [hz]

theorem formatR_eq_instr {f : Nat → Nat → Instr} :
    formatR w f = .instr i ↔ byteAt w 3 = 0#8 ∧ f (byteAt w 1).toNat (byteAt w 2).toNat = i := by
  unfold formatR
  split_ifs with hz <;> simp [hz]

theorem formatN_of_bits (j : Instr) (h : w.extractLsb' 8 24 ≠ 0#24) : formatN w j = .illegal .formatNBits := if_neg h

theorem formatR_of_bits (f : Nat → Nat → Instr) (h : byteAt w 3 ≠ 0#8) : formatR w f = .illegal .formatRBits := if_neg h

theorem formatN_ne_unassigned (j : Instr) : formatN w j ≠ .illegal .unassignedOpc := by
  unfold formatN
  split_ifs <;> nofun

theorem formatR_ne_unassigned (f : Nat → Nat → Instr) : formatR w f ≠ .illegal .unassignedOpc := by
  unfold formatR
  split_ifs <;> nofun

/-- The values of `OPC` R56 lists for format N. -/
def formatNOpcs : List Byte := [0x01#8, 0x02#8, 0x03#8, 0x10#8, 0x11#8, 0x12#8, 0x13#8, 0x14#8]

/-- The values of `OPC` R56 lists for format R. -/
def formatROpcs : List Byte := [0x20#8, 0x21#8]

/-- `f a b` is the command of format R with the given `OPC` and operands `a` and `b` (R55). -/
structure FormatR (f : Nat → Nat → Instr) (opc : Byte) : Prop where
  wellFormed_iff : ∀ a b, (f a b).wellFormed = true ↔ a < 256 ∧ b < 256
  encode_eq : ∀ a b, encode (f a b) = packWord 0#8 (BitVec.ofNat 8 b) (BitVec.ofNat 8 a) opc

theorem formatR_fcsGen : FormatR .fcsGen 0x20 := ⟨by simp [Instr.wellFormed, operandOk], fun _ _ => rfl⟩

theorem formatR_fcsChk : FormatR .fcsChk 0x21 := ⟨by simp [Instr.wellFormed, operandOk], fun _ _ => rfl⟩

/-- A word of format R is the word of the command with bytes 1 and 2 as operands. -/
theorem FormatR.encode_bytes {f : Nat → Nat → Instr} (h : FormatR f (byteAt w 0)) (hz : byteAt w 3 = 0#8) :
    (f (byteAt w 1).toNat (byteAt w 2).toNat).wellFormed = true ∧
    encode (f (byteAt w 1).toNat (byteAt w 2).toNat) = w := by
  refine ⟨(h.wellFormed_iff _ _).mpr ⟨(byteAt w 1).isLt, (byteAt w 2).isLt⟩, ?_⟩
  calc encode (f (byteAt w 1).toNat (byteAt w 2).toNat)
      = packWord (byteAt w 3) (byteAt w 2) (byteAt w 1) (byteAt w 0) := by
        rw [h.encode_eq, BitVec.ofNat_toNat, BitVec.ofNat_toNat, BitVec.setWidth_eq, BitVec.setWidth_eq, hz]
    _ = w := packWord_byteAt w

/-- The decoder by format: the ten rows of R56 behave in two ways only. -/
inductive DecodeFormat (w : Word) : Prop where
  | formatN (j : Instr) (hopc : byteAt w 0 ∈ formatNOpcs) (hwf : j.wellFormed = true)
      (henc : encode j = packWord 0 0 0 (byteAt w 0)) (hdec : decodeWord w = formatN w j)
  | formatR (f : Nat → Nat → Instr) (hopc : byteAt w 0 ∈ formatROpcs) (hf : FormatR f (byteAt w 0))
      (hdec : decodeWord w = formatR w f)
  | unassigned (hopc : byteAt w 0 ∉ formatNOpcs ++ formatROpcs) (hdec : decodeWord w = .illegal .unassignedOpc)

theorem decodeFormat (w : Word) : DecodeFormat w := by
  obtain ⟨h, hd⟩ | ⟨h, hd⟩ | ⟨h, hd⟩ | ⟨h, hd⟩ | ⟨h, hd⟩ | ⟨h, hd⟩ | ⟨h, hd⟩ | ⟨h, hd⟩ | ⟨h, hd⟩ | ⟨h, hd⟩ | ⟨h, hd⟩ :=
    decodeWord_cases w
  iterate 8 · exact .formatN _ (h ▸ by decide) rfl (h ▸ rfl) hd
  · exact .formatR _ (h ▸ by decide) (h ▸ formatR_fcsGen) hd
  · exact .formatR _ (h ▸ by decide) (h ▸ formatR_fcsChk) hd
  · exact .unassigned h hd

theorem decodeWord_encode (h : i.wellFormed = true) : decodeWord (encode i) = .instr i := by
  have operands (f : Nat → Nat → Instr) (opc : Byte) (hf : FormatR f opc) (a b : Nat)
      (hwf : (f a b).wellFormed = true) : formatR (encode (f a b)) f = .instr (f a b) := by
    obtain ⟨ha, hb⟩ := (hf.wellFormed_iff a b).mp hwf
    rw [hf.encode_eq, formatR_eq_instr]
    simp [Nat.mod_eq_of_lt ha, Nat.mod_eq_of_lt hb]
  cases i with
  | fcsGen a b => simpa [decodeWord, encode] using operands _ _ formatR_fcsGen a b h
  | fcsChk a b => simpa [decodeWord, encode] using operands _ _ formatR_fcsChk a b h
  | _ => rfl

theorem encode_of_decodeWord (h : decodeWord w = .instr i) : i.wellFormed = true ∧ encode i = w := by
  cases decodeFormat w with
  | formatN j _ hwf henc hdec =>
    obtain ⟨hz, rfl⟩ := formatN_eq_instr.mp (hdec.symm.trans h)
    exact ⟨hwf, henc.trans (word_of_low_byte hz).symm⟩
  | formatR f _ hf hdec =>
    obtain ⟨hz, rfl⟩ := formatR_eq_instr.mp (hdec.symm.trans h)
    exact hf.encode_bytes hz
  | unassigned _ hdec => exact nomatch hdec.symm.trans h

/-- Settles O2: the decoder's two formats are read back from the word the encoder packs. -/
theorem decodeInvertsEncode : Obligations.DecodeInvertsEncode :=
  ⟨fun _ => decodeWord_encode, fun _ _ => encode_of_decodeWord⟩

/-- Settles O1: the words of R59 and 98_reader.md, decoded. -/
theorem sampleWordsDecode : Obligations.SampleWordsDecode :=
  ⟨by decide, by decide, by decide, by decide, by decide, by decide⟩

/-! ### The opcode map (R56, R57) -/

theorem byteAt_and (v w : Word) (k : Nat) : byteAt (v &&& w) k = byteAt v k &&& byteAt w k :=
  BitVec.extractLsb'_and

/-- The mask of a format-R row keeps `OPC` and bits 31:24. -/
theorem and_formatRMask (w : Word) : w &&& 0xFF0000FF = packWord (byteAt w 3) 0 0 (byteAt w 0) := by
  have hmask : (0xFF0000FF : Word) = packWord 0xFF 0 0 0xFF := by decide
  have hall : ∀ b : Byte, b &&& 0xFF#8 = b := fun b => BitVec.and_allOnes
  apply word_ext_bytes <;> simp [hmask, byteAt_and, hall]

theorem selects_iff {r : OpcodeRow} : r.selects w = true ↔ w &&& r.mask = r.matchVal := decide_eq_true_iff

theorem selects_formatN {r : OpcodeRow} (hmask : r.mask = 0xFFFFFFFF) : r.selects w = true ↔ w = r.matchVal := by
  rw [selects_iff, hmask, show w &&& 0xFFFFFFFF = w from BitVec.and_allOnes]

theorem selects_formatR {r : OpcodeRow} {opc : Byte} (hmask : r.mask = 0xFF0000FF)
    (hmatch : r.matchVal = packWord 0 0 0 opc) : r.selects w = true ↔ byteAt w 3 = 0 ∧ byteAt w 0 = opc := by
  rw [selects_iff, hmask, hmatch, and_formatRMask]
  constructor
  · intro h
    exact ⟨by simpa using congrArg (byteAt · 3) h, by simpa using congrArg (byteAt · 0) h⟩
  · rintro ⟨h3, h0⟩
    rw [h3, h0]

/-- A row of R56 stands for one command of format N, or for the commands of one `OPC` of format R. -/
theorem opcodeMap_row {r : OpcodeRow} (hr : r ∈ opcodeMap) :
    (r.mask = 0xFFFFFFFF ∧ ∃ j : Instr, j.wellFormed = true ∧ encode j = r.matchVal ∧ mnemonicOf j = r.mnemonic) ∨
    (r.mask = 0xFF0000FF ∧ ∃ f opc, FormatR f opc ∧ r.matchVal = packWord 0 0 0 opc ∧
      ∀ a b, mnemonicOf (f a b) = r.mnemonic) := by
  simp only [opcodeMap, List.mem_cons, List.not_mem_nil, or_false] at hr
  obtain rfl | rfl | rfl | rfl | rfl | rfl | rfl | rfl | rfl | rfl := hr
  · exact .inl ⟨rfl, .classify, rfl, rfl, rfl⟩
  · exact .inl ⟨rfl, .measure, rfl, rfl, rfl⟩
  · exact .inl ⟨rfl, .decode, rfl, rfl, rfl⟩
  · exact .inl ⟨rfl, .encToken, rfl, rfl, rfl⟩
  · exact .inl ⟨rfl, .encSc, rfl, rfl, rfl⟩
  · exact .inl ⟨rfl, .encFix0, rfl, rfl, rfl⟩
  · exact .inl ⟨rfl, .encFix8, rfl, rfl, rfl⟩
  · exact .inl ⟨rfl, .encVar, rfl, rfl, rfl⟩
  · exact .inr ⟨rfl, _, _, formatR_fcsGen, rfl, fun _ _ => rfl⟩
  · exact .inr ⟨rfl, _, _, formatR_fcsChk, rfl, fun _ _ => rfl⟩

/-- A row's words decode to commands of its mnemonic. -/
theorem decodeWord_of_selects {r : OpcodeRow} (hr : r ∈ opcodeMap) (hsel : r.selects w = true) :
    ∃ i, decodeWord w = .instr i ∧ mnemonicOf i = r.mnemonic := by
  obtain ⟨hmask, j, hwf, henc, hmn⟩ | ⟨hmask, f, opc, hf, hmatch, hmn⟩ := opcodeMap_row hr
  · obtain rfl := henc.trans ((selects_formatN hmask).mp hsel).symm
    exact ⟨j, decodeWord_encode hwf, hmn⟩
  · obtain ⟨hz, rfl⟩ := (selects_formatR hmask hmatch).mp hsel
    obtain ⟨hwf, henc⟩ := hf.encode_bytes hz
    exact ⟨_, henc ▸ decodeWord_encode hwf, hmn _ _⟩

/-- Every command's word selects the row of its mnemonic. -/
theorem exists_row_selects_encode (i : Instr) :
    ∃ r ∈ opcodeMap, r.selects (encode i) = true ∧ r.mnemonic = mnemonicOf i := by
  cases i with
  | fcsGen a b =>
    exact ⟨⟨.FCS_GEN, 0x20, 0xFF0000FF⟩, by decide, (selects_formatR (opc := 0x20) rfl rfl).mpr (by simp [encode]), rfl⟩
  | fcsChk a b =>
    exact ⟨⟨.FCS_CHK, 0x21, 0xFF0000FF⟩, by decide, (selects_formatR (opc := 0x21) rfl rfl).mpr (by simp [encode]), rfl⟩
  | _ => decide

theorem operands_of_decodeWord {a b : Nat} (h : decodeWord w = .instr i) (hi : i = .fcsGen a b ∨ i = .fcsChk a b) :
    a = (byteAt w 1).toNat ∧ b = (byteAt w 2).toNat := by
  obtain ⟨hwf, rfl⟩ := encode_of_decodeWord h
  have hop : a < 256 ∧ b < 256 := by obtain rfl | rfl := hi <;> simpa [Instr.wellFormed, operandOk] using hwf
  obtain rfl | rfl := hi <;> simp [encode, Nat.mod_eq_of_lt hop.1, Nat.mod_eq_of_lt hop.2]

theorem row_eq_of_mnemonic : ∀ r1 ∈ opcodeMap, ∀ r2 ∈ opcodeMap, r1.mnemonic = r2.mnemonic → r1 = r2 := by decide

/-- Settles O3: two rows that select a word have the mnemonic of the command it decodes to. -/
theorem opcodeMapSelectsOneRow : Obligations.OpcodeMapSelectsOneRow := by
  refine ⟨fun w r1 r2 h1 h2 hsel1 hsel2 => ?_, fun w r hr hsel => ?_, fun w i hdec => ?_⟩
  · obtain ⟨i, hi, hmn1⟩ := decodeWord_of_selects h1 hsel1
    obtain ⟨j, hj, hmn2⟩ := decodeWord_of_selects h2 hsel2
    obtain rfl : i = j := Decoded.instr.inj (hi.symm.trans hj)
    exact row_eq_of_mnemonic r1 h1 r2 h2 (hmn1.symm.trans hmn2)
  · obtain ⟨i, hi, hmn⟩ := decodeWord_of_selects hr hsel
    exact ⟨i, hi, hmn, fun a b => operands_of_decodeWord hi⟩
  · obtain ⟨-, rfl⟩ := encode_of_decodeWord hdec
    exact exists_row_selects_encode i

theorem decodeWord_illegal_iff : (∃ why, decodeWord w = .illegal why) ↔ ∀ r ∈ opcodeMap, r.selects w = false := by
  constructor
  · rintro ⟨why, hill⟩ r hr
    rw [Bool.eq_false_iff]
    intro hsel
    obtain ⟨i, hi, -⟩ := decodeWord_of_selects hr hsel
    exact nomatch hill.symm.trans hi
  · intro hnone
    cases hdec : decodeWord w with
    | illegal why => exact ⟨why, rfl⟩
    | instr i =>
      obtain ⟨-, rfl⟩ := encode_of_decodeWord hdec
      obtain ⟨r, hr, hsel, -⟩ := exists_row_selects_encode i
      exact nomatch hsel.symm.trans (hnone r hr)

theorem decodeWord_unassigned_iff :
    decodeWord w = .illegal .unassignedOpc ↔ byteAt w 0 ∉ formatNOpcs ++ formatROpcs := by
  cases decodeFormat w with
  | formatN j hopc _ _ hdec => simp [hopc, hdec, formatN_ne_unassigned]
  | formatR f hopc _ hdec => simp [hopc, hdec, formatR_ne_unassigned]
  | unassigned hopc hdec => simp only [hopc, hdec, not_false_eq_true]

theorem formatOpcs_disjoint : ∀ b ∈ formatNOpcs, b ∉ formatROpcs := by decide

theorem decodeWord_formatNBits (hopc : byteAt w 0 ∈ formatNOpcs) (hbits : w.extractLsb' 8 24 ≠ 0#24) :
    decodeWord w = .illegal .formatNBits := by
  cases decodeFormat w with
  | formatN j _ _ _ hdec => exact hdec.trans (formatN_of_bits j hbits)
  | formatR _ hR _ _ => exact absurd hR (formatOpcs_disjoint _ hopc)
  | unassigned hnot _ => exact absurd (List.mem_append_left _ hopc) hnot

theorem decodeWord_formatRBits (hopc : byteAt w 0 ∈ formatROpcs) (hbits : byteAt w 3 ≠ 0#8) :
    decodeWord w = .illegal .formatRBits := by
  cases decodeFormat w with
  | formatN _ hN _ _ _ => exact absurd hopc (formatOpcs_disjoint _ hN)
  | formatR f _ _ hdec => exact hdec.trans (formatR_of_bits f hbits)
  | unassigned hnot _ => exact absurd (List.mem_append_right _ hopc) hnot

/-! ### The assembler (R59) -/

/-- What the assembler gives is the word of the well-formed command with that mnemonic and those operands. -/
theorem encode_of_assemble {mn : Mnemonic} {ops : List Nat} (h : assemble mn ops = some w) :
    ∃ i : Instr, i.wellFormed = true ∧ mnemonicOf i = mn ∧ operandsOf i = ops ∧ encode i = w := by
  unfold assemble at h
  split at h
  case h_9 a b =>
    obtain ⟨hwf, hw⟩ := Option.ite_none_right_eq_some.mp h
    exact ⟨.fcsGen a b, hwf, rfl, rfl, Option.some.inj hw⟩
  case h_10 a b =>
    obtain ⟨hwf, hw⟩ := Option.ite_none_right_eq_some.mp h
    exact ⟨.fcsChk a b, hwf, rfl, rfl, Option.some.inj hw⟩
  case h_11 => cases h
  all_goals exact ⟨_, rfl, rfl, rfl, Option.some.inj h⟩

theorem eq_fcsGen_of_mnemonic (h : mnemonicOf i = .FCS_GEN) : ∃ a b, operandsOf i = [a, b] ∧ i = .fcsGen a b := by
  cases i with
  | fcsGen a b => exact ⟨a, b, rfl, rfl⟩
  | _ => cases h

theorem eq_fcsChk_of_mnemonic (h : mnemonicOf i = .FCS_CHK) : ∃ a b, operandsOf i = [a, b] ∧ i = .fcsChk a b := by
  cases i with
  | fcsChk a b => exact ⟨a, b, rfl, rfl⟩
  | _ => cases h

/-- Settles O5: an assembled word is a well-formed command's, so it decodes to that command. -/
theorem assembledWordsDecode : Obligations.AssembledWordsDecode := by
  refine ⟨fun mn ops w h => ?_, fun a b hab => ?_, by decide⟩
  · obtain ⟨i, hwf, rfl, rfl, rfl⟩ := encode_of_assemble h
    exact ⟨i, decodeWord_encode hwf, rfl, eq_fcsGen_of_mnemonic, eq_fcsChk_of_mnemonic⟩
  · have hbad : ¬ (a < 256 ∧ b < 256) := by omega
    exact ⟨if_neg (mt (formatR_fcsGen.wellFormed_iff a b).mp hbad),
      if_neg (mt (formatR_fcsChk.wellFormed_iff a b).mp hbad)⟩

end Sys2Proof

/-! ## Length byte and telegram geometry (30_encoding.md R51 to R54) -/

namespace Sys2Proof.Machine

theorem leOffsetOf_cases (p : Params) : leOffsetOf p = 0 ∨ leOffsetOf p = 3 := by
  unfold leOffsetOf
  cases p.leOffset
  · exact .inl rfl
  · exact .inr rfl

theorem varPayload_eq_some_iff {off n : Nat} {le ler : Byte} :
    varPayload off le ler = some n ↔ le = ler ∧ le.toNat = n + off ∧ 1 ≤ n ∧ n ≤ 246 := by
  simp only [varPayload, payloadMin, payloadMax]
  split_ifs with hdiff hrange
  · simp [hdiff]
  · simp only [false_iff]
    omega
  · simp only [Option.some.injEq]
    constructor
    · rintro rfl
      exact ⟨not_not.mp hdiff, by omega⟩
    · rintro ⟨-, hle, -⟩
      omega

theorem toNat_leByte {off n : Nat} (h : n + off < 256) : (leByte off n).toNat = n + off :=
  (BitVec.toNat_ofNat _ _).trans (Nat.mod_eq_of_lt h)

/-- Settles O6: n + `LE_OFFSET` is at most 249, so the length byte holds it whole. -/
theorem lengthByteCountsPayload : Obligations.LengthByteCountsPayload := by
  intro p
  have hoff := leOffsetOf_cases p
  refine ⟨hoff, fun n h1 h246 => ?_, fun le ler n => varPayload_eq_some_iff⟩
  have hle : (leByte (leOffsetOf p) n).toNat = n + leOffsetOf p := toNat_leByte (by omega)
  exact ⟨hle, varPayload_eq_some_iff.mpr ⟨rfl, hle, h1, h246⟩⟩

/-- A variant with an FCS: the payload follows DA, SA and FC, and its frame ends with the FCS byte and ED (R54). -/
theorem geometry_of_legalN {v : Variant} {n : Nat} (hn : legalN v n = true) (ht : v ≠ .token) (hs : v ≠ .sc) :
    payloadOffset v = fcsStart v + 3 ∧ fcsIndex v n = payloadOffset v + n ∧ edIndex v n + 1 = explen v n := by
  cases v with
  | none => cases hn
  | token => exact absurd rfl ht
  | sc => exact absurd rfl hs
  | fix0 =>
    obtain rfl : n = 0 := by simpa [legalN] using hn
    decide
  | fix8 =>
    obtain rfl : n = 8 := by simpa [legalN] using hn
    decide
  | var =>
    simp only [payloadOffset, fcsStart, fcsIndex, fcsCount, edIndex, explen, true_and]
    omega

/-- Settles O7: the tables of R52 and R54, and the longest frame from the bound on the payload. -/
theorem frameGeometry : Obligations.FrameGeometry := by
  refine ⟨fun n => ⟨rfl, rfl, rfl, rfl, rfl⟩, ⟨rfl, rfl⟩, ⟨rfl, rfl⟩, fun n => ?_, fun v n hn ht hs => ?_,
    fun v n hn => explen_le (legalN_le hn)⟩
  · simp only [fcsIndex, edIndex, fcsStart, fcsCount]
    omega
  · obtain ⟨hpo, hfi, hend⟩ := geometry_of_legalN hn ht hs
    exact ⟨hpo, hfi, rfl, rfl, hend⟩

end Sys2Proof.Machine

/-! ## Placed, illegal and awaited command words (30_encoding.md R57, R60; 60_exceptions.md R80, R84) -/

namespace Sys2Proof.Machine

variable {s t : State} {w : Word}

theorem runWord_of_illegal {why : IllegalWord} (h : decodeWord w = .illegal why) (s : State) :
    runWord w s = .next (onlyStatus .eIllegal .none false s) := by
  rw [runWord, h]
  rfl

/-- The codec agent's step, when it is next, runs the pending word (R80, R84). -/
theorem step_codec (hm : nextMove s = .codec) (hp : s.pend = some w) (hr : s.rstN = true) :
    step s = runWord w (movedOn s) := by
  rw [step_eq, hm]
  exact codecTurn_pending hp hr

/-- Settles O4: the words no row selects are those the decoder gives a reason for, and running one is the completion. -/
theorem illegalWordsComplete : Obligations.IllegalWordsComplete := by
  intro w
  refine ⟨decodeWord_illegal_iff, decodeWord_unassigned_iff, decodeWord_formatNBits, decodeWord_formatRBits,
    fun s hnone hp hr hm => ?_⟩
  obtain ⟨why, hill⟩ := decodeWord_illegal_iff.mpr hnone
  rw [step_codec hm hp hr, runWord_of_illegal hill]

theorem withFetchWord_toNat (s : State) (w : Word) : s.withFetchWord 32 w.toNat = placeCommand w s := by
  rw [State.withFetchWord, Nat.mod_eq_of_lt w.isLt, BitVec.ofNat_toNat, BitVec.setWidth_eq]

/-- Settles O32: the placed word is pending with the codec agent to move, and decodes to its command. -/
theorem placedCommandRunsNext : Obligations.PlacedCommandRunsNext := by
  intro i s hwf
  calc step (s.withFetchWord 32 (encode i).toNat)
      = step (placeCommand (encode i) s) := by rw [withFetchWord_toNat]
    _ = runWord (encode i) (movedOn (placeCommand (encode i) s)) := step_codec rfl rfl rfl
    _ = exec i (movedOn (placeCommand (encode i) s)) := runWord_of_decode (decodeWord_encode hwf) _

theorem movedOn_of_unscheduled (hs : s.sched = []) : movedOn s = s := by
  rw [movedOn, hs, List.tail_nil, ← hs]

theorem nextMove_host_of_idle (hs : s.sched = []) (hp : s.pend = none) : nextMove s = .host := by
  simp [nextMove, hs, defaultMove, codecReady, hp]

/-- Out of reset a poll that finds `BUSY` = 0 ends `WAIT` (R60). -/
theorem pollStatus_idle (hr : s.rstN = true) (hb : s.busy = false) (rest : List HostOp) :
    pollStatus s rest = { s with host := rest, rdata := some (.word (statusWord s)) } := by
  obtain ⟨-, hbusy, -⟩ := statusWord_flags s
  rw [pollStatus, statusRead, if_pos hr, hbusy.trans hb]
  rfl

theorem run_two {u : State} (h1 : step s = .next t) (h2 : step t = .next u) :
    Host.Core.run Sys2Proof.core 2 s = .next u := by
  have hstep : Sys2Proof.core.step = step := rfl
  simp only [Host.Core.run, hstep, h1, h2]

/-- Settles O58: the codec agent moves while the word is pending, then the host polls a block that is no longer busy. -/
theorem waitEnds : Obligations.WaitEnds := by
  intro s t w rest hs hr hp hh hrun
  have hfirst : step s = .next t := by
    rw [step_codec (nextMove_codec_of_pending hs hr (by simp [hp])) hp hr, movedOn_of_unscheduled hs, hrun]
  obtain ⟨c, v, p, u, rfl, hu⟩ := runWord_next_shape hrun
  have hsched : (finish c v p u).sched = [] := by rw [finish_sched, hu, hs]
  have hhost : (finish c v p u).host = .wait :: rest := by rw [finish_host, hu, hh]
  have hrst : (finish c v p u).rstN = true := by rw [finish_rstN, hu, hr]
  have hsecond : step (finish c v p u) = .next (pollStatus (finish c v p u) rest) := by
    rw [step_eq, nextMove_host_of_idle hsched rfl, movedOn_of_unscheduled hsched]
    exact hostTurn_wait hhost
  rw [pollStatus_idle hrst rfl] at hsecond
  exact run_two hfirst hsecond

end Sys2Proof.Machine

/-! ## The telegrams `DECODE` accepts (30_encoding.md R46 to R50; 44_decode.md R76, R77) -/

namespace Sys2Proof.Machine

variable {s : State} {m : Memory} {off len n : Nat} {da sa fc x : Byte}

theorem sumMod256_cons (b : Byte) (bs : List Byte) : sumMod256 (b :: bs) = b + sumMod256 bs := by
  simp [sumMod256, BitVec.ofNat_add]

/-- Adding bytes in 8 bits one by one gives their arithmetic sum modulo 256 (R61). -/
theorem foldl_add_eq_sumMod256 (acc : Byte) (bs : List Byte) : bs.foldl (· + ·) acc = acc + sumMod256 bs := by
  induction bs generalizing acc with
  | nil => simp [sumMod256]
  | cons b bs ih => rw [List.foldl_cons, ih, sumMod256_cons, BitVec.add_assoc]

theorem fcs_of_holds {lo : Nat} {bs : List Byte} (h : Holds m lo bs) : fcs m lo bs.length = .ok (sumMod256 bs) := by
  rw [fcs, fcsFrom_of_holds 0#8 h, foldl_add_eq_sumMod256, BitVec.zero_add]

/-- A frame with an FCS passes the checks of R75 when the covered bytes, their sum and ED stand in their places. -/
theorem decodeFramed_of_holds {v : Variant} {du : List Byte} (hlen : len = edIndex v du.length + 1)
    (hx : x = sumMod256 ([da, sa, fc] ++ du)) (h : Holds m (fcsStart v) ([da, sa, fc] ++ du ++ [x, edByte])) :
    decodeFramed v du.length len m = .ok (.ok v da sa fc du.length (some (x, x))) := by
  have hcount : ([da, sa, fc] ++ du).length = fcsCount du.length := by simp [fcsCount]
  obtain ⟨hcovered, htrailer⟩ := holds_append.mp h
  have hfcs : fcs m (fcsStart v) (fcsCount du.length) = .ok x := by rw [← hcount, hx]; exact fcs_of_holds hcovered
  have hrv : bufRead m (fcsIndex v du.length) = .ok x := htrailer.read (k := 0) rfl (by rw [fcsIndex, hcount]; rfl)
  have hed : bufRead m (edIndex v du.length) = .ok edByte :=
    htrailer.read (k := 1) rfl (by rw [edIndex, fcsIndex, hcount])
  have hda : bufRead m (fcsStart v) = .ok da := hcovered.read (k := 0) rfl rfl
  have hsa : bufRead m (fcsStart v + 1) = .ok sa := hcovered.read (k := 1) rfl rfl
  have hfc : bufRead m (fcsStart v + 2) = .ok fc := hcovered.read (k := 2) rfl rfl
  simp [decodeFramed, hlen, hed, hfcs, hrv, hda, hsa, hfc]

/-! ### What byte 0 selects (R53, R76) -/

@[simp] theorem sdVariant_sdToken : sdVariant sdToken = .token := rfl
@[simp] theorem sdVariant_scByte : sdVariant scByte = .sc := rfl
@[simp] theorem sdVariant_sdFix0 : sdVariant sdFix0 = .fix0 := rfl
@[simp] theorem sdVariant_sdFix8 : sdVariant sdFix8 = .fix8 := rfl
@[simp] theorem sdVariant_sdVar : sdVariant sdVar = .var := rfl

theorem decodeFrame_token (h : Holds m 0 [sdToken, da, sa]) :
    decodeFrame off 3 m = .ok (.ok .token da sa 0 0 none) := by
  have h0 : bufRead m 0 = .ok sdToken := h 0 _ rfl
  have h1 : bufRead m 1 = .ok da := h.read (k := 1) rfl rfl
  have h2 : bufRead m 2 = .ok sa := h.read (k := 2) rfl rfl
  simp [decodeFrame, h0, h1, h2]

theorem decodeFrame_sc (h : bufRead m 0 = .ok scByte) : decodeFrame off 1 m = .ok (.ok .sc 0 0 0 0 none) := by
  simp [decodeFrame, h]

theorem decodeFrame_fix0 (hlen : len ≠ 0) (h : bufRead m 0 = .ok sdFix0) :
    decodeFrame off len m = decodeFramed .fix0 0 len m := by
  simp [decodeFrame, hlen, h]

theorem decodeFrame_fix8 (hlen : len ≠ 0) (h : bufRead m 0 = .ok sdFix8) :
    decodeFrame off len m = decodeFramed .fix8 8 len m := by
  simp [decodeFrame, hlen, h]

theorem decodeFrame_var {le ler : Byte} (hlen : 3 ≤ len) (h : Holds m 0 [sdVar, le, ler])
    (hn : varPayload off le ler = some n) : decodeFrame off len m = decodeFramed .var n len m := by
  have h0 : bufRead m 0 = .ok sdVar := h 0 _ rfl
  have h1 : bufRead m 1 = .ok le := h.read (k := 1) rfl rfl
  have h2 : bufRead m 2 = .ok ler := h.read (k := 2) rfl rfl
  have hpos : len ≠ 0 := by omega
  simp [decodeFrame, hpos, Nat.not_lt.mpr hlen, h0, h1, h2, hn]

/-- What `DECODE` leaves when the decode function accepts the frame (R77). -/
theorem exec_decode_of_ok {v : Variant} {l : BitVec 9} {pair : Option (Byte × Byte)} (hl : s.len = l)
    (h : decodeFrame (leOffsetOf s.cfg) s.len.toNat s.buf = .ok (.ok v da sa fc n pair)) :
    exec .decode s = .next { onlyStatus .ok v false s with
      res := packWord (BitVec.ofNat 8 n) fc sa da, flen := l,
      fcsCalc := pair.elim 0 (·.1), fcsRecv := pair.elim 0 (·.2) } := by
  have hlen : s.len.toNat ≤ 256 := (decodeFrame_ok_len h).trans (by decide)
  subst hl
  exact execDecode_next.mpr (.inr ⟨hlen, _, h, rfl⟩)

/-- Settles O20: each layout passes the checks of its variant, so the decode function answers its fields. -/
theorem decodeAcceptsTelegrams : Obligations.DecodeAcceptsTelegrams := by
  refine ⟨rfl, fun s da sa fc => ⟨fun hl h => ?_, fun hl h => ?_, fun x hl hx h => ?_, fun du x hl hdu hx h => ?_,
    fun du le x h1 h246 hle hl hx h => ?_⟩⟩
  · exact exec_decode_of_ok (l := 3) (BitVec.eq_of_toNat_eq hl) (hl ▸ decodeFrame_token h)
  · exact exec_decode_of_ok (l := 1) (BitVec.eq_of_toNat_eq hl) (hl ▸ decodeFrame_sc (h 0 _ rfl))
  · obtain ⟨hsd, hrest⟩ := holds_cons.mp h
    have hdec := decodeFramed_of_holds (v := .fix0) (du := []) hl hx hrest
    exact exec_decode_of_ok (l := 6) (BitVec.eq_of_toNat_eq hl) ((decodeFrame_fix0 (by omega) hsd).trans hdec)
  · obtain ⟨hsd, hrest⟩ := holds_cons.mp h
    have hframe : s.len.toNat = edIndex .fix8 du.length + 1 := by rw [hl, hdu]; rfl
    have hdec := decodeFramed_of_holds hframe hx hrest
    rw [hdu] at hdec
    exact exec_decode_of_ok (l := 14) (BitVec.eq_of_toNat_eq hl) ((decodeFrame_fix8 (by omega) hsd).trans hdec)
  · obtain ⟨hhead, hrest⟩ := (holds_append (xs := [sdVar, le, le]) (ys := [da, sa, fc] ++ du ++ [x, edByte])).mp h
    have hframe : s.len.toNat = edIndex .var du.length + 1 := by
      simp only [edIndex, fcsIndex, fcsStart, fcsCount]
      omega
    have hn : varPayload (leOffsetOf s.cfg) le le = some du.length := varPayload_eq_some_iff.mpr ⟨rfl, hle, h1, h246⟩
    exact exec_decode_of_ok rfl ((decodeFrame_var (by omega) hhead hn).trans (decodeFramed_of_holds hframe hx hrest))

end Sys2Proof.Machine

/-! ## The FCS function and its laws (41_fcs.md R61, R62) -/

namespace Sys2Proof.Machine

variable {m m' : Memory} {k k' n n' i : Nat} {xs ys bs bs' : List Byte} {b : Byte}

/-- The loop stops at the first undefined byte it covers. -/
theorem fcsFrom_undefined (acc : Byte) (h : Holds m k bs) (hlt : bs.length < n)
    (hundef : m.byte? (k + bs.length) = none) :
    fcsFrom m k n acc = .error (.undefinedBufRead (k + bs.length)) := by
  induction bs generalizing k n acc with
  | nil =>
    obtain ⟨n, rfl⟩ := Nat.exists_eq_add_of_lt hlt
    simp only [List.length_nil, Nat.add_zero] at hundef
    simp [fcsFrom, bufRead_undefined hundef]
  | cons b bs ih =>
    obtain ⟨n, rfl⟩ := Nat.exists_eq_add_of_lt hlt
    obtain ⟨hb, hbs⟩ := holds_cons.mp h
    have hnext : k + (b :: bs).length = k + 1 + bs.length := by rw [List.length_cons]; omega
    rw [hnext] at hundef ⊢
    simp only [fcsFrom, hb]
    exact ih _ hbs (by rw [List.length_cons]; omega) hundef

theorem fcs_undefined (h : Holds m k bs) (hlt : bs.length < n) (hundef : m.byte? (k + bs.length) = none) :
    fcs m k n = .error (.undefinedBufRead (k + bs.length)) :=
  fcsFrom_undefined 0#8 h hlt hundef

/-- Settles O8: the loop adds the defined bytes it covers, and stops at the first that is not defined. -/
theorem fcsIsSumMod256 : Obligations.FcsIsSumMod256 :=
  ⟨fun _ _ _ => fcs_of_holds, fun _ _ _ _ => fcs_undefined, ⟨rfl, rfl⟩, ⟨rfl, rfl⟩, rfl, fun _ => rfl⟩

/-- A write outside the covered range leaves the FCS (R62 law 3). -/
theorem fcs_write_outside (m : Memory) (v : Byte) (h : i < k ∨ k + n ≤ i) : fcs (m.write i v) k n = fcs m k n :=
  fcsFrom_congr 0#8 fun _ hlo hhi => bufRead_write_other m v (by omega)

theorem toNat_sumMod256 (bs : List Byte) : (sumMod256 bs).toNat = (bs.map BitVec.toNat).sum % 256 :=
  BitVec.toNat_ofNat _ _

theorem sumMod256_perm (h : bs.Perm bs') : sumMod256 bs = sumMod256 bs' :=
  congrArg (BitVec.ofNat 8) (h.map BitVec.toNat).sum_eq

@[simp] theorem sumMod256_append (xs ys : List Byte) : sumMod256 (xs ++ ys) = sumMod256 xs + sumMod256 ys := by
  simp [sumMod256, BitVec.ofNat_add]

/-- Defined bytes with the same sum have the same FCS, wherever they stand. -/
theorem fcs_eq_of_sum_eq (h : Holds m k bs) (h' : Holds m' k' bs') (hn : bs.length = n) (hn' : bs'.length = n')
    (hsum : sumMod256 bs = sumMod256 bs') : fcs m k n = fcs m' k' n' := by
  rw [← hn, ← hn', fcs_of_holds h, fcs_of_holds h', hsum]

/-- One of the bytes that stand in `BUF` replaced by another. -/
theorem Holds.replace (h : Holds m k (xs ++ b :: ys)) (b' : Byte) :
    Holds (m.write (k + xs.length) b') k (xs ++ b' :: ys) := by
  obtain ⟨hxs, hrest⟩ := holds_append.mp h
  obtain ⟨-, hys⟩ := holds_cons.mp hrest
  have hxs' : Holds (m.write (k + xs.length) b') k xs :=
    hxs.congr fun _ _ hhi => bufRead_write_other m b' (by omega)
  have hys' : Holds (m.write (k + xs.length) b') (k + xs.length + 1) ys :=
    hys.congr fun _ hlo _ => bufRead_write_other m b' (by omega)
  exact holds_append.mpr ⟨hxs', holds_cons.mpr ⟨bufRead_write_same m _ b', hys'⟩⟩

/-- Replacing one byte changes the sum by the difference (R62 law 4). -/
theorem sumMod256_replace (xs ys : List Byte) (b b' : Byte) :
    sumMod256 (xs ++ b' :: ys) = sumMod256 (xs ++ b :: ys) + (b' - b) := by
  simp only [sumMod256_append, sumMod256_cons]
  ring

theorem sumMod256_balanced (xs ys zs : List Byte) (b c d : Byte) :
    sumMod256 (xs ++ (b + d) :: (ys ++ (c - d) :: zs)) = sumMod256 (xs ++ b :: (ys ++ c :: zs)) := by
  simp only [sumMod256_append, sumMod256_cons]
  ring

theorem sumMod256_swap (xs ys zs : List Byte) (b c : Byte) :
    sumMod256 (xs ++ c :: (ys ++ b :: zs)) = sumMod256 (xs ++ b :: (ys ++ c :: zs)) := by
  simp only [sumMod256_append, sumMod256_cons]
  ring

theorem sumMod256_zero_cons (xs ys : List Byte) : sumMod256 (xs ++ 0 :: ys) = sumMod256 (xs ++ ys) := by
  simp [sumMod256_cons]

/-- Settles O9: each law is one of the sum of the covered bytes, but for law 3, which is one of the reads. -/
theorem fcsLaws : Obligations.FcsLaws := by
  refine ⟨fun m s bs h => ⟨_, fcs_of_holds h, toNat_sumMod256 bs⟩,
    fun m m' s s' bs bs' h h' hperm => fcs_eq_of_sum_eq h h' rfl rfl (sumMod256_perm hperm),
    fun m s n i v => fcs_write_outside m v, fun m s xs ys b b' h hne => ?_,
    fun m m' s s' xs ys zs b c d h => ⟨?_, ?_⟩⟩
  · have hlen : (xs ++ b' :: ys).length = (xs ++ b :: ys).length := by simp
    refine ⟨_, _, fcs_of_holds h, hlen ▸ fcs_of_holds (h.replace b'), sumMod256_replace xs ys b b', ?_⟩
    rw [sumMod256_replace xs ys b b', Ne, add_eq_left]
    exact sub_ne_zero.mpr hne
  · rintro (h' | h')
    · exact fcs_eq_of_sum_eq h' h (by simp) rfl (sumMod256_balanced xs ys zs b c d)
    · exact fcs_eq_of_sum_eq h' h (by simp) rfl (sumMod256_swap xs ys zs b c)
  · rintro rfl h'
    exact fcs_eq_of_sum_eq h' h rfl rfl (sumMod256_zero_cons xs _).symm

end Sys2Proof.Machine

/-! ## The word of a command of format R (30_encoding.md R55) -/

namespace Sys2Proof

theorem toNat_packWord (b3 b2 b1 b0 : Byte) : (packWord b3 b2 b1 b0).toNat =
    b0.toNat + 256 * b1.toNat + 65536 * b2.toNat + 16777216 * b3.toNat := by
  simp only [packWord, BitVec.toNat_append]
  rw [← Nat.shiftLeft_add_eq_or_of_lt b0.isLt, ← Nat.shiftLeft_add_eq_or_of_lt b1.isLt,
    ← Nat.shiftLeft_add_eq_or_of_lt b2.isLt]
  simp only [Nat.shiftLeft_eq]
  omega

theorem FormatR.encode_eq_ofNat {f : Nat → Nat → Instr} {opc : Byte} (h : FormatR f opc) {a b : Nat} (ha : a < 256)
    (hb : b < 256) : encode (f a b) = BitVec.ofNat 32 (opc.toNat + 256 * a + 65536 * b) := by
  have hopc := opc.isLt
  apply BitVec.eq_of_toNat_eq
  simp only [h.encode_eq, toNat_packWord, BitVec.toNat_ofNat]
  omega

end Sys2Proof

/-! ## `FCS.GEN` and `FCS.CHK` (41_fcs.md R63, R64) -/

namespace Sys2Proof.Machine

variable {s t u : State} {a b : Nat} {f : Fault} {v r : Byte}

theorem execFcsGen_fault (hab : a + b ≤ 255) (h : fcs s.buf a b = .error f) : execFcsGen a b s = .fault f :=
  (if_neg (Nat.not_lt.mpr hab)).trans (reading_fault.mpr (.inl h))

theorem execFcsChk_fault (hab : a + b ≤ 255)
    (h : fcs s.buf a b = .error f ∨ ∃ v, fcs s.buf a b = .ok v ∧ bufRead s.buf (a + b) = .error f) :
    execFcsChk a b s = .fault f := by
  refine (if_neg (Nat.not_lt.mpr hab)).trans (reading_fault.mpr (h.imp_right ?_))
  rintro ⟨v, hv, hr⟩
  exact ⟨v, hv, reading_fault.mpr (.inl hr)⟩

/-- Settles O10: the FCS of the range is the sum of its bytes, and the one byte written lies after it. -/
theorem fcsGenStoresSum : Obligations.FcsGenStoresSum := by
  refine ⟨fun a b ha hb => formatR_fcsGen.encode_eq_ofNat ha hb, fun a b s =>
    ⟨fun hab => execFcsGen_next.mpr (.inl ⟨hab, rfl⟩), ?_, ?_⟩⟩
  · rintro bs hab rfl h
    exact ⟨_, execFcsGen_next.mpr (.inr ⟨hab, _, fcs_of_holds h, rfl⟩), bufRead_write_same _ _ _,
      fun j hj => bufRead_write_other _ _ hj, rfl⟩
  · exact fun bs hab hlt h hundef => execFcsGen_fault hab (fcs_undefined h hlt hundef)

/-- Settles O11: the range is summed first, then the byte after it is read and compared. -/
theorem fcsChkComparesSum : Obligations.FcsChkComparesSum := by
  refine ⟨fun a b ha hb => formatR_fcsChk.encode_eq_ofNat ha hb, fun a b s =>
    ⟨fun hab => execFcsChk_next.mpr (.inl ⟨hab, rfl⟩), ?_, ?_⟩⟩
  · rintro bs r hab rfl h
    obtain ⟨hbs, hr⟩ := holds_append.mp h
    refine execFcsChk_next.mpr (.inr ⟨hab, _, r, fcs_of_holds hbs, (holds_cons.mp hr).1, ?_⟩)
    rw [finish_eq, ite_self]
    rfl
  · intro bs hab hle h hundef
    obtain hlt | rfl := hle.lt_or_eq
    · exact execFcsChk_fault hab (.inl (fcs_undefined h hlt hundef))
    · exact execFcsChk_fault hab (.inr ⟨_, fcs_of_holds h, bufRead_undefined hundef⟩)

/-- Settles O12: the byte `FCS.GEN` wrote is outside the range it summed, so `FCS.CHK` finds the same sum. -/
theorem fcsChkAcceptsWhatFcsGenWrote : Obligations.FcsChkAcceptsWhatFcsGenWrote := by
  intro a b s t u hgen hok hbuf
  obtain ⟨-, rfl⟩ | ⟨hab, v, hv, rfl⟩ := execFcsGen_next.mp hgen
  · cases hok
  have hu : u.buf = s.buf.write (a + b) v := hbuf
  have hsum : fcs u.buf a b = .ok v := by rw [hu, fcs_write_outside _ _ (.inr le_rfl), hv]
  have hread : bufRead u.buf (a + b) = .ok v := by rw [hu, bufRead_write_same]
  exact ⟨_, execFcsChk_next.mpr (.inr ⟨hab, v, v, hsum, hread, rfl⟩), if_pos rfl, rfl, rfl⟩

end Sys2Proof.Machine

/-! ## What the commands leave unchanged (41_fcs.md R63, R64; 43_encode.md R69) -/

namespace Sys2Proof.Machine

variable {s t : State} {a b n : Nat} {i : Instr} {v : Variant} {hd : List Byte}

/-! ### The commands that store nothing -/

theorem execClassify_writes (h : execClassify s = .next t) : ∃ c v, t = finish c v false s := by
  obtain ⟨-, ht⟩ | ⟨-, r, -, ht⟩ := execClassify_next.mp h
  · exact ⟨_, _, ht⟩
  · exact ⟨_, _, ht⟩

theorem execMeasure_writes (h : execMeasure s = .next t) : ∃ c v p fl, t = finish c v p { s with flen := fl } := by
  obtain ⟨-, ht⟩ | ⟨-, r, -, ht⟩ := execMeasure_next.mp h
  · exact ⟨_, _, _, s.flen, ht⟩
  · exact ⟨_, _, _, _, ht⟩

theorem execDecode_writes (h : execDecode s = .next t) :
    ∃ c v x y w fl, t = finish c v false (setFcsr x y { s with res := w, flen := fl }) := by
  obtain ⟨-, ht⟩ | ⟨-, r, -, ht⟩ := execDecode_next.mp h
  · exact ⟨_, _, s.fcsCalc, s.fcsRecv, s.res, s.flen, ht⟩
  · cases r <;> exact ⟨_, _, _, _, _, _, ht⟩

theorem execFcsChk_writes (h : execFcsChk a b s = .next t) :
    ∃ c x y, t = finish c .none false (setFcsr x y s) := by
  obtain ⟨-, ht⟩ | ⟨-, v, r, -, -, ht⟩ := execFcsChk_next.mp h
  · exact ⟨_, s.fcsCalc, s.fcsRecv, ht⟩
  · exact ⟨_, _, _, ht⟩

/-- Settles O24: each of the four writes registers alone, and `LEN` is none of them. -/
theorem readOnlyCommandsFrame : Obligations.ReadOnlyCommandsFrame := by
  rintro i s t h (rfl | rfl | rfl | ⟨a, b, rfl⟩)
  · obtain ⟨c, v, rfl⟩ := execClassify_writes h
    exact ⟨fun _ => rfl, rfl, fun _ => rfl, fun _ _ => rfl, fun _ => ⟨rfl, rfl⟩⟩
  · obtain ⟨c, v, p, fl, rfl⟩ := execMeasure_writes h
    exact ⟨fun _ => rfl, rfl, fun _ => rfl, fun hne => absurd rfl hne, fun _ => ⟨rfl, rfl⟩⟩
  · obtain ⟨c, v, x, y, w, fl, rfl⟩ := execDecode_writes h
    exact ⟨fun _ => rfl, rfl, fun hne => absurd rfl hne, fun _ hne => absurd rfl hne, nofun⟩
  · obtain ⟨c, x, y, rfl⟩ := execFcsChk_writes h
    exact ⟨fun _ => rfl, rfl, fun _ => rfl, fun _ _ => rfl, nofun⟩

/-! ### The commands that store -/

theorem execFcsGen_frame (h : execFcsGen a b s = .next t) :
    (∀ j, j ≠ a + b → bufRead t.buf j = bufRead s.buf j) ∧ t.len = s.len ∧ t.res = s.res ∧ t.flen = s.flen := by
  obtain ⟨-, rfl⟩ | ⟨-, v, -, rfl⟩ := execFcsGen_next.mp h
  · exact ⟨fun _ _ => rfl, rfl, rfl, rfl⟩
  · exact ⟨fun _ hj => bufRead_write_other _ _ hj, rfl, rfl, rfl⟩

/-- A frame built in place stores its header, its FCS byte and ED. -/
theorem bufRead_encodeFramed (h : encodeFramed v n hd s = .next t) {j : Nat} (hhd : hd.length ≤ j)
    (hfcs : j ≠ fcsIndex v n) (hed : j ≠ edIndex v n) : bufRead t.buf j = bufRead s.buf j := by
  obtain ⟨x, -, rfl⟩ := encodeFramed_next.mp h
  have htrailer : j < fcsIndex v n ∨ fcsIndex v n + [x, edByte].length ≤ j := by
    simp only [edIndex, List.length_cons, List.length_nil] at hed ⊢
    omega
  calc bufRead (bufWrites (fcsIndex v n) [x, edByte] (bufWrites 0 hd s)).buf j
      = bufRead (bufWrites 0 hd s).buf j := bufRead_bufWrites_out htrailer
    _ = bufRead s.buf j := bufRead_bufWrites_out (.inr (by omega))

theorem bufRead_encToken (h : execEncToken s = .next t) {j : Nat} (hj : explen .token 0 ≤ j) :
    bufRead t.buf j = bufRead s.buf j := by
  obtain ⟨-, rfl⟩ | ⟨-, rfl⟩ := execEncToken_next.mp h
  · rfl
  · exact bufRead_bufWrites_out (.inr hj)

theorem bufRead_encSc (h : execEncSc s = .next t) {j : Nat} (hj : explen .sc 0 ≤ j) :
    bufRead t.buf j = bufRead s.buf j := by
  obtain ⟨-, rfl⟩ | ⟨-, rfl⟩ := execEncSc_next.mp h
  · rfl
  · exact bufRead_bufWrites_out (.inr hj)

theorem bufRead_encFix0 (h : execEncFix0 s = .next t) {j : Nat} (hj : explen .fix0 0 ≤ j) :
    bufRead t.buf j = bufRead s.buf j := by
  obtain ⟨hhd, hfcs, hed⟩ : 4 ≤ j ∧ j ≠ 4 ∧ j ≠ 5 := by simp only [explen] at hj; omega
  obtain ⟨-, rfl⟩ | ⟨-, hframe⟩ := execEncFix0_next.mp h
  · rfl
  · exact bufRead_encodeFramed hframe hhd hfcs hed

theorem bufRead_encFix8 (h : execEncFix8 s = .next t) {j : Nat} (hj : 4 ≤ j) (hfcs : j ≠ fcsIndex .fix8 8)
    (hed : j ≠ edIndex .fix8 8) : bufRead t.buf j = bufRead s.buf j := by
  obtain ⟨-, rfl⟩ | ⟨-, hframe⟩ := execEncFix8_next.mp h
  · rfl
  · exact bufRead_encodeFramed hframe hj hfcs hed

theorem bufRead_encVar (h : execEncVar s = .next t) {j : Nat} (hj : 6 ≤ j) (hfcs : j ≠ fcsIndex .var (fieldsN s))
    (hed : j ≠ edIndex .var (fieldsN s)) : bufRead t.buf j = bufRead s.buf j := by
  obtain ⟨-, rfl⟩ | ⟨-, hframe⟩ := execEncVar_next.mp h
  · rfl
  · exact bufRead_encodeFramed hframe hj hfcs hed

/-- `FCS.GEN` or an encoder that completes with an error has changed `STATUS` and `PEND` alone. -/
theorem Completion.eq_finish_of_error (h : Completion s i t) (hi : (∃ a b, i = .fcsGen a b) ∨ IsEncoder i)
    (herr : t.code ≠ .ok) : t = finish t.code .none false s := by
  cases h with
  | rejected i c hc => rfl
  | encoded i v n x m hn hm => exact absurd rfl herr
  | generated a b x hab => exact absurd rfl herr
  | _ => simp [IsEncoder] at hi

theorem IsEncoder.ne_decode (h : IsEncoder i) : i ≠ .decode := by
  rintro rfl
  simp [IsEncoder] at h

/-- Settles O25: what each command stores when it completes with `OK`, and that an error is a mere completion. -/
theorem storingCommandsFrame : Obligations.StoringCommandsFrame := by
  intro i s t h
  have hcompl := exec_completion h
  refine ⟨?_, ?_, ?_, ?_, ?_, ?_, fun hi => hcompl.res_of_not_decode (IsEncoder.ne_decode hi), fun hi herr => ?_⟩
  · rintro a b rfl
    exact execFcsGen_frame h
  · rintro rfl j
    exact bufRead_encToken h
  · rintro rfl j
    exact bufRead_encSc h
  · rintro rfl j
    exact bufRead_encFix0 h
  · rintro rfl j
    exact bufRead_encFix8 h
  · rintro rfl j
    exact bufRead_encVar h
  · rw [hcompl.eq_finish_of_error hi herr]
    exact ⟨fun _ => rfl, rfl, rfl, rfl, rfl⟩

end Sys2Proof.Machine

/-! ## `CLASSIFY` and `MEASURE` (42_classify.md R65 to R68) -/

namespace Sys2Proof.Machine

variable {s : State} {m : Memory} {off len n fl : Nat} {b le ler : Byte} {v : Variant} {f : Fault}

theorem sdVariant_eq_none (ht : b ≠ sdToken) (hs : b ≠ scByte) (h0 : b ≠ sdFix0) (h8 : b ≠ sdFix8)
    (hv : b ≠ sdVar) : sdVariant b = .none := by
  rw [sdVariant, if_neg ht, if_neg hs, if_neg h0, if_neg h8, if_neg hv]

/-! ### Byte 0 decides the class (R65) -/

theorem classifyFrame_undefined (hlen : 1 ≤ len) (h : m.byte? 0 = none) :
    classifyFrame len m = .error (.undefinedBufRead 0) := by
  rw [classifyFrame, if_neg (Nat.ne_of_gt hlen), bufRead_undefined h, error_bind]

theorem classifyFrame_of_variant (hlen : 1 ≤ len) (h : bufRead m 0 = .ok b) (hv : sdVariant b = v) (hne : v ≠ .none)
    (hsc : v = .sc → len = 1) : classifyFrame len m = .ok (.ok, v) := by
  rw [classifyFrame, if_neg (Nat.ne_of_gt hlen), h, ok_bind, hv]
  cases v with
  | none => exact absurd rfl hne
  | sc => exact if_pos (hsc rfl)
  | _ => rfl

theorem classifyFrame_malformed (hlen : 1 ≤ len) (h : bufRead m 0 = .ok b)
    (hbad : sdVariant b = .none ∨ sdVariant b = .sc ∧ len ≠ 1) : classifyFrame len m = .ok (.eMalformed, .none) := by
  rw [classifyFrame, if_neg (Nat.ne_of_gt hlen), h, ok_bind]
  obtain hnone | ⟨hsc, hone⟩ := hbad
  · rw [hnone]
  · rw [hsc]
    exact if_neg hone

theorem exec_classify_ok (hle : s.len.toNat ≤ 256) (h : classifyFrame s.len.toNat s.buf = .ok (.ok, v)) :
    exec .classify s = .next (onlyStatus .ok v false s) :=
  execClassify_next.mpr (.inr ⟨hle, _, h, rfl⟩)

theorem exec_classify_malformed (hle : s.len.toNat ≤ 256)
    (h : classifyFrame s.len.toNat s.buf = .ok (.eMalformed, .none)) :
    exec .classify s = .next (onlyStatus .eMalformed .none false s) :=
  execClassify_next.mpr (.inr ⟨hle, _, h, rfl⟩)

theorem exec_classify_fault (hle : s.len.toNat ≤ 256) (h : classifyFrame s.len.toNat s.buf = .error f) :
    exec .classify s = .fault f :=
  (if_neg (Nat.not_lt.mpr hle)).trans (reading_fault.mpr (.inl h))

/-- Settles O13: byte 0 selects the variant, and only `SC` asks more of the length. -/
theorem classifyReadsFirstByte : Obligations.ClassifyReadsFirstByte := by
  refine ⟨rfl, fun s => ⟨fun hgt => execClassify_next.mpr (.inl ⟨hgt, rfl⟩), fun hzero => ?_,
    fun b hpos hle hb => ?_, fun hpos hle hundef => exec_classify_fault hle (classifyFrame_undefined hpos hundef)⟩⟩
  · exact exec_classify_malformed (by omega) (if_pos hzero)
  · have known {v : Variant} (hv : sdVariant b = v) (hne : v ≠ .none) (hsc : v = .sc → s.len.toNat = 1) :
        exec .classify s = .next (onlyStatus .ok v false s) :=
      exec_classify_ok hle (classifyFrame_of_variant hpos hb hv hne hsc)
    split_ifs with ht hs hone h0 h8 hv
    · exact known (ht ▸ sdVariant_sdToken) nofun nofun
    · exact known (hs ▸ sdVariant_scByte) nofun fun _ => hone
    · exact exec_classify_malformed hle (classifyFrame_malformed hpos hb (.inr ⟨hs ▸ sdVariant_scByte, hone⟩))
    · exact known (h0 ▸ sdVariant_sdFix0) nofun nofun
    · exact known (h8 ▸ sdVariant_sdFix8) nofun nofun
    · exact known (hv ▸ sdVariant_sdVar) nofun nofun
    · exact exec_classify_malformed hle (classifyFrame_malformed hpos hb (.inl (sdVariant_eq_none ht hs h0 h8 hv)))

/-! ### The first three bytes decide the frame length (R67) -/

theorem measureFrame_undefined (hlen : 1 ≤ len) (h : m.byte? 0 = none) :
    measureFrame off len m = .error (.undefinedBufRead 0) := by
  rw [measureFrame, if_neg (Nat.ne_of_gt hlen), bufRead_undefined h, error_bind]

/-- The length of every variant but `VAR` is fixed: `explen` of R52, whatever its second argument. -/
theorem measureFrame_of_variant (n : Nat) (hlen : 1 ≤ len) (h : bufRead m 0 = .ok b) (hv : sdVariant b = v)
    (hne : v ≠ .none) (hvar : v ≠ .var) : measureFrame off len m = .ok (.ok, v, explen v n) := by
  rw [measureFrame, if_neg (Nat.ne_of_gt hlen), h, ok_bind, hv]
  cases v with
  | none => exact absurd rfl hne
  | var => exact absurd rfl hvar
  | _ => rfl

theorem measureFrame_malformed (hlen : 1 ≤ len) (h : bufRead m 0 = .ok b) (hv : sdVariant b = .none) :
    measureFrame off len m = .ok (.eMalformed, .none, 0) := by
  rw [measureFrame, if_neg (Nat.ne_of_gt hlen), h, ok_bind, hv]

theorem measureFrame_var_short (hlen : 1 ≤ len) (hlt : len < 3) (h : bufRead m 0 = .ok sdVar) :
    measureFrame off len m = .ok (.ok, .var, 0) := by
  rw [measureFrame, if_neg (Nat.ne_of_gt hlen), h, ok_bind, sdVariant_sdVar]
  exact if_pos hlt

/-- What LE and LEr say of a `VAR` frame: its length, or that it is malformed. -/
def varMeasure (off : Nat) (le ler : Byte) : Code × Variant × Nat :=
  (varPayload off le ler).elim (.eMalformed, .none, 0) fun n => (.ok, .var, explen .var n)

theorem measureFrame_var (hlen : 3 ≤ len) (h : bufRead m 0 = .ok sdVar) :
    measureFrame off len m =
      bufRead m 1 >>= fun le => bufRead m 2 >>= fun ler => .ok (varMeasure off le ler) := by
  rw [measureFrame, if_neg (by omega), h, ok_bind, sdVariant_sdVar]
  refine (if_neg (Nat.not_lt.mpr hlen)).trans (bind_congr fun le => bind_congr fun ler => ?_)
  rw [varMeasure]
  cases varPayload off le ler <;> rfl

theorem measureFrame_of_holds (hlen : 3 ≤ len) (h : Holds m 0 [sdVar, le, ler]) :
    measureFrame off len m = .ok (varMeasure off le ler) := by
  have h1 : bufRead m 1 = .ok le := h.read (k := 1) rfl rfl
  have h2 : bufRead m 2 = .ok ler := h.read (k := 2) rfl rfl
  rw [measureFrame_var hlen (h 0 _ rfl), h1, ok_bind, h2, ok_bind]

theorem measureFrame_var_known (hlen : 3 ≤ len) (h : Holds m 0 [sdVar, le, ler])
    (hn : varPayload off le ler = some n) : measureFrame off len m = .ok (.ok, .var, n + 8) := by
  rw [measureFrame_of_holds hlen h, varMeasure, hn]
  rfl

theorem measureFrame_var_malformed (hlen : 3 ≤ len) (h : Holds m 0 [sdVar, le, ler])
    (hn : ∀ n, varPayload off le ler ≠ some n) : measureFrame off len m = .ok (.eMalformed, .none, 0) := by
  rw [measureFrame_of_holds hlen h, varMeasure, Option.eq_none_iff_forall_ne_some.mpr hn]
  rfl

/-! ### The completion of `MEASURE` (R68) -/

theorem measureCpl_ok : measureCpl .ok fl len = decide (fl ≠ 0 ∧ fl ≤ len) := by simp [measureCpl]

theorem exec_measure_ok (hle : s.len.toNat ≤ 256)
    (h : measureFrame (leOffsetOf s.cfg) s.len.toNat s.buf = .ok (.ok, v, fl)) :
    exec .measure s =
      .next { onlyStatus .ok v (decide (fl ≠ 0 ∧ fl ≤ s.len.toNat)) s with flen := BitVec.ofNat 9 fl } := by
  refine execMeasure_next.mpr (.inr ⟨hle, _, h, ?_⟩)
  rw [measureCpl_ok]
  rfl

theorem exec_measure_malformed (hle : s.len.toNat ≤ 256)
    (h : measureFrame (leOffsetOf s.cfg) s.len.toNat s.buf = .ok (.eMalformed, .none, 0)) :
    exec .measure s = .next { onlyStatus .eMalformed .none false s with flen := 0 } :=
  execMeasure_next.mpr (.inr ⟨hle, _, h, rfl⟩)

theorem exec_measure_fault (hle : s.len.toNat ≤ 256)
    (h : measureFrame (leOffsetOf s.cfg) s.len.toNat s.buf = .error f) : exec .measure s = .fault f :=
  (if_neg (Nat.not_lt.mpr hle)).trans (reading_fault.mpr (.inl h))

/-- Settles O14: byte 0 fixes the length, except that a `VAR` frame's stands in its two length bytes. -/
theorem measureFindsFrameLength : Obligations.MeasureFindsFrameLength := by
  refine ⟨rfl, fun s => ⟨fun hgt => execMeasure_next.mpr (.inl ⟨hgt, rfl⟩), fun hzero => ?_,
    fun b hpos hle hb hvar => ?_, fun hpos hlt hb => ?_,
    fun le ler hlen hle h => ⟨fun hdiff => ?_, fun n heq hn => ⟨fun hbad => ?_, fun h1 h246 => ?_⟩⟩,
    fun hpos hle hundef => exec_measure_fault hle (measureFrame_undefined hpos hundef),
    fun hlen hle hb hundef => ?_, fun le hlen hle h hundef => ?_⟩⟩
  · exact exec_measure_ok (by omega) (if_pos hzero)
  · have hfixed {v : Variant} (hv : sdVariant b = v) (hne : v ≠ .none) (hvar : v ≠ .var) :=
      exec_measure_ok hle (measureFrame_of_variant 0 hpos hb hv hne hvar)
    split_ifs with ht hs h0 h8
    · exact hfixed (ht ▸ sdVariant_sdToken) nofun nofun
    · exact hfixed (hs ▸ sdVariant_scByte) nofun nofun
    · exact hfixed (h0 ▸ sdVariant_sdFix0) nofun nofun
    · exact hfixed (h8 ▸ sdVariant_sdFix8) nofun nofun
    · exact exec_measure_malformed hle (measureFrame_malformed hpos hb (sdVariant_eq_none ht hs h0 h8 hvar))
  · exact exec_measure_ok (by omega) (measureFrame_var_short hpos hlt hb)
  · have hno (k : Nat) : varPayload (leOffsetOf s.cfg) le ler ≠ some k := fun hk =>
      hdiff (varPayload_eq_some_iff.mp hk).1
    exact exec_measure_malformed hle (measureFrame_var_malformed hlen h hno)
  · have hno (k : Nat) : varPayload (leOffsetOf s.cfg) le ler ≠ some k := fun hk => by
      obtain ⟨-, hle', h1, h246⟩ := varPayload_eq_some_iff.mp hk
      omega
    exact exec_measure_malformed hle (measureFrame_var_malformed hlen h hno)
  · have hsome : varPayload (leOffsetOf s.cfg) le ler = some n.toNat :=
      varPayload_eq_some_iff.mpr ⟨heq, by omega, by omega, by omega⟩
    exact exec_measure_ok hle (measureFrame_var_known hlen h hsome)
  · refine exec_measure_fault hle ?_
    rw [measureFrame_var hlen hb, bufRead_undefined hundef, error_bind]
  · have h1 : bufRead s.buf 1 = .ok le := h.read (k := 1) rfl rfl
    refine exec_measure_fault hle ?_
    rw [measureFrame_var hlen (h 0 _ rfl), h1, ok_bind, bufRead_undefined hundef, error_bind]

end Sys2Proof.Machine

/-! ## The frames the encoders build (43_encode.md R69 to R74) -/

namespace Sys2Proof.Machine

variable {s u : State} {v : Variant} {n i : Nat} {da sa fc x : Byte} {vs pre du frame : List Byte}

/-! ### The payload length an encoder checks (R69 item 2) -/

theorem fieldsN_beq (s : State) (b : Byte) : (fieldsN s == b.toNat) = decide (byteAt s.fields 3 = b) :=
  decide_eq_decide.mpr BitVec.toNat_inj

theorem legalN_token (s : State) : legalN .token (fieldsN s) = decide (byteAt s.fields 3 = 0) := fieldsN_beq s 0
theorem legalN_sc (s : State) : legalN .sc (fieldsN s) = decide (byteAt s.fields 3 = 0) := fieldsN_beq s 0
theorem legalN_fix0 (s : State) : legalN .fix0 (fieldsN s) = decide (byteAt s.fields 3 = 0) := fieldsN_beq s 0
theorem legalN_fix8 (s : State) : legalN .fix8 (fieldsN s) = decide (byteAt s.fields 3 = 8) := fieldsN_beq s 8

theorem exec_encToken_legal (h : byteAt s.fields 3 = 0) :
    exec .encToken s = .next (finishEncoder .token 3 0 (bufWrites 0 [sdToken, fieldsDa s, fieldsSa s] s)) :=
  if_pos ((legalN_token s).trans (decide_eq_true h))

theorem exec_encSc_legal (h : byteAt s.fields 3 = 0) :
    exec .encSc s = .next (finishEncoder .sc 1 0 (bufWrites 0 [scByte] s)) :=
  if_pos ((legalN_sc s).trans (decide_eq_true h))

theorem exec_encFix0_legal (h : byteAt s.fields 3 = 0) :
    exec .encFix0 s = encodeFramed .fix0 0 (headerOf .encFix0 s) s :=
  if_pos ((legalN_fix0 s).trans (decide_eq_true h))

theorem exec_encFix8_legal (h : byteAt s.fields 3 = 8) :
    exec .encFix8 s = encodeFramed .fix8 8 (headerOf .encFix8 s) s :=
  if_pos ((legalN_fix8 s).trans (decide_eq_true h))

theorem exec_encVar_legal (h1 : 1 ≤ fieldsN s) (h246 : fieldsN s ≤ 246) :
    exec .encVar s = encodeFramed .var (fieldsN s) (headerOf .encVar s) s :=
  if_pos (decide_eq_true ⟨h1, h246⟩)

/-! ### The bytes around the payload (R69 item 3) -/

/-- Bytes written before bytes that stand in `BUF` make one run with them. -/
theorem holds_bufWrites_append (h : Holds s.buf (i + vs.length) du) : Holds (bufWrites i vs s).buf i (vs ++ du) :=
  holds_append.mpr ⟨holds_bufWrites i vs s, h.congr fun _ hlo _ => bufRead_bufWrites_out (.inr hlo)⟩

/-- Bytes written after bytes that stand in `BUF` make one run with them. -/
theorem Holds.append_bufWrites (h : Holds s.buf 0 frame) (hi : i = frame.length) :
    Holds (bufWrites i vs s).buf 0 (frame ++ vs) := by
  subst hi
  have hvs : Holds (bufWrites frame.length vs s).buf (0 + frame.length) vs :=
    (Nat.zero_add _).symm ▸ holds_bufWrites _ vs s
  exact holds_append.mpr ⟨h.congr fun _ _ hhi => bufRead_bufWrites_out (.inl (by omega)), hvs⟩

theorem byte?_bufWrites_after {j : Nat} (h : i + vs.length ≤ j) : (bufWrites i vs s).buf.byte? j = s.buf.byte? j := by
  induction vs generalizing i s with
  | nil => rfl
  | cons b vs ih =>
    rw [List.length_cons] at h
    exact (ih (by omega)).trans (byte?_write_other s.buf b (by omega))

/-! ### What a built frame leaves (R69 items 3 to 6) -/

/-- The result of an encoder that succeeds: `frame` stands in `BUF` from index 0, no byte from index `len` on has
changed, `LEN` and `FLEN` are `len`, both bytes of `FCSR` are `x`, and beside `STATUS` nothing else has changed. -/
def BuildsFrame (v : Variant) (len : Nat) (frame : List Byte) (x : Byte) (s : State) (r : Result) : Prop :=
  ∃ t, r = .next t ∧ Holds t.buf 0 frame ∧ (∀ i, len ≤ i → bufRead t.buf i = bufRead s.buf i) ∧
    t = { onlyStatus .ok v false s with
          buf := t.buf, len := BitVec.ofNat 9 len, flen := BitVec.ofNat 9 len, fcsCalc := x, fcsRecv := x }

/-- An encoder's completion after writes to `BUF` alone. -/
theorem finishEncoder_builds (hu : u = { s with buf := u.buf }) (hframe : Holds u.buf 0 frame)
    (hrest : ∀ i, n ≤ i → bufRead u.buf i = bufRead s.buf i) :
    BuildsFrame v n frame x s (.next (finishEncoder v n x u)) := by
  refine ⟨_, rfl, hframe, hrest, ?_⟩
  rw [hu]
  rfl

/-- A frame without an FCS is the bytes written. -/
theorem finishEncoder_bufWrites_builds (hn : frame.length = n) :
    BuildsFrame v n frame x s (.next (finishEncoder v n x (bufWrites 0 frame s))) :=
  finishEncoder_builds (bufWrites_eq 0 frame s) (holds_bufWrites 0 frame s) fun _ hi =>
    bufRead_bufWrites_out (.inr (by omega))

/-- The header and the payload after it, once the header is written. -/
theorem holds_header_payload (hpre : pre.length = fcsStart v) (hdu : Holds s.buf (fcsStart v + 3) du) :
    Holds (bufWrites 0 (pre ++ [da, sa, fc]) s).buf 0 (pre ++ [da, sa, fc] ++ du) := by
  have hhd : 0 + (pre ++ [da, sa, fc]).length = fcsStart v + 3 := by simp [hpre]
  exact holds_bufWrites_append (hhd ▸ hdu)

/-- The bytes the FCS covers, once the header is written (R54). -/
theorem holds_covered (hpre : pre.length = fcsStart v) (hdu : Holds s.buf (fcsStart v + 3) du) :
    Holds (bufWrites 0 (pre ++ [da, sa, fc]) s).buf (fcsStart v) ([da, sa, fc] ++ du) := by
  have hbody := holds_header_payload (da := da) (sa := sa) (fc := fc) hpre hdu
  rw [List.append_assoc, holds_append, hpre, Nat.zero_add] at hbody
  obtain ⟨-, hcovered⟩ := hbody
  exact hcovered

/-- A frame with an FCS: the FCS covers DA, SA, FC and the payload, which the header's bytes do not reach. -/
theorem encodeFramed_builds (hpre : pre.length = fcsStart v) (hn : du.length = n)
    (hlen : edIndex v n + 1 = explen v n) (hx : x = sumMod256 ([da, sa, fc] ++ du))
    (hdu : Holds s.buf (fcsStart v + 3) du) :
    BuildsFrame v (explen v n) (pre ++ [da, sa, fc] ++ du ++ [x, edByte]) x s
      (encodeFramed v n (pre ++ [da, sa, fc]) s) := by
  have hhd : (pre ++ [da, sa, fc]).length = fcsStart v + 3 := by simp [hpre]
  have hcount : ([da, sa, fc] ++ du).length = fcsCount n := by simp [fcsCount, hn]
  have hfcs : fcs (bufWrites 0 (pre ++ [da, sa, fc]) s).buf (fcsStart v) (fcsCount n) = .ok x := by
    rw [← hcount, hx]
    exact fcs_of_holds (holds_covered hpre hdu)
  have hnext := encodeFramed_next.mpr ⟨x, hfcs, rfl⟩
  rw [hnext]
  refine finishEncoder_builds ?_ ((holds_header_payload hpre hdu).append_bufWrites ?_)
    fun i hi => bufRead_encodeFramed hnext ?_ ?_ ?_
  · rw [bufWrites_eq (fcsIndex v n), bufWrites_eq 0]
  · rw [List.length_append, hhd, hn, fcsIndex, fcsCount]
    omega
  all_goals simp only [edIndex, fcsIndex, fcsCount] at hlen ⊢; omega

/-- The FCS loop stops at the first undefined payload byte (R69 item 6). -/
theorem encodeFramed_undefined (hpre : pre.length = fcsStart v) (hlt : du.length < n)
    (hdu : Holds s.buf (fcsStart v + 3) du) (hundef : s.buf.byte? (fcsStart v + 3 + du.length) = none) :
    encodeFramed v n (pre ++ [da, sa, fc]) s = .fault (.undefinedBufRead (fcsStart v + 3 + du.length)) := by
  have hhd : (pre ++ [da, sa, fc]).length = fcsStart v + 3 := by simp [hpre]
  have hstop : fcsStart v + ([da, sa, fc] ++ du).length = fcsStart v + 3 + du.length := by
    rw [List.length_append, ← Nat.add_assoc]
    rfl
  have hnone : (bufWrites 0 (pre ++ [da, sa, fc]) s).buf.byte? (fcsStart v + ([da, sa, fc] ++ du).length) = none := by
    rw [hstop, byte?_bufWrites_after (by omega), hundef]
  have hshort : ([da, sa, fc] ++ du).length < fcsCount n := by simpa [fcsCount] using hlt
  exact reading_fault.mpr (.inl (hstop ▸ fcs_undefined (holds_covered hpre hdu) hshort hnone))

/-! ### The five encoders (R70 to R74) -/

/-- Settles O17: a frame with an FCS whose payload is empty. -/
theorem encFix0BuildsFrame : Obligations.EncFix0BuildsFrame := by
  refine ⟨rfl, fun s => ⟨fun hN => ?_, fun hN => ?_⟩⟩
  · exact execEncFix0_next.mpr (.inl ⟨(legalN_fix0 s).trans (decide_eq_false hN), rfl⟩)
  · rw [exec_encFix0_legal hN]
    exact encodeFramed_builds (pre := [sdFix0]) (du := []) rfl rfl rfl rfl (by simp [Holds])

/-- Settles O18: a frame with an FCS around 8 bytes. -/
theorem encFix8BuildsFrame : Obligations.EncFix8BuildsFrame := by
  refine ⟨rfl, fun s => ⟨fun hN => ?_, fun du hN hdu h => ?_, fun du hN hlt h hundef => ?_⟩⟩
  · exact execEncFix8_next.mpr (.inl ⟨(legalN_fix8 s).trans (decide_eq_false hN), rfl⟩)
  · rw [exec_encFix8_legal hN]
    exact encodeFramed_builds (pre := [sdFix8]) rfl hdu rfl rfl h
  · rw [exec_encFix8_legal hN]
    exact encodeFramed_undefined (pre := [sdFix8]) rfl hlt h hundef

/-- Settles O19: a frame with an FCS around n bytes, headed by the length byte twice. -/
theorem encVarBuildsFrame : Obligations.EncVarBuildsFrame := by
  refine ⟨rfl, fun s => ⟨fun hN => ?_, fun du h1 h246 hdu h => ?_, fun du h1 h246 hlt h hundef => ?_⟩⟩
  · have hbad : ¬ (1 ≤ fieldsN s ∧ fieldsN s ≤ 246) := by unfold fieldsN; omega
    exact execEncVar_next.mpr (.inl ⟨decide_eq_false hbad, rfl⟩)
  · rw [exec_encVar_legal h1 h246]
    obtain ⟨-, -, hlen⟩ := geometry_of_legalN (v := .var) (decide_eq_true ⟨h1, h246⟩) nofun nofun
    exact encodeFramed_builds (pre := [sdVar, _, _]) rfl hdu hlen rfl h
  · rw [exec_encVar_legal h1 h246]
    exact encodeFramed_undefined (pre := [sdVar, _, _]) rfl hlt h hundef

/-- Settles O15: three bytes written, no FCS. -/
theorem encTokenBuildsToken : Obligations.EncTokenBuildsToken := by
  refine ⟨rfl, fun s => ⟨fun hN => ?_, fun hN => ?_⟩⟩
  · exact execEncToken_next.mpr (.inl ⟨(legalN_token s).trans (decide_eq_false hN), rfl⟩)
  · rw [exec_encToken_legal hN]
    exact finishEncoder_bufWrites_builds rfl

/-- Settles O16: one byte written, no FCS. -/
theorem encScBuildsShortAck : Obligations.EncScBuildsShortAck := by
  refine ⟨rfl, fun s => ⟨fun hN => ?_, fun hN => ?_⟩⟩
  · exact execEncSc_next.mpr (.inl ⟨(legalN_sc s).trans (decide_eq_false hN), rfl⟩)
  · rw [exec_encSc_legal hN]
    exact finishEncoder_bufWrites_builds rfl

end Sys2Proof.Machine

/-! ## The telegrams with an FCS (30_encoding.md R48 to R54; 44_decode.md R76) -/

namespace Sys2Proof.Machine

variable {p : Params} {m : Memory} {off len n lo : Nat} {v : Variant} {da sa fc b x le ler : Byte}
  {du bs body head : List Byte}

/-- The variants with an FCS and the payload lengths each admits (R69 item 2). -/
inductive FcsFrame : Variant → Nat → Prop where
  | fix0 : FcsFrame .fix0 0
  | fix8 : FcsFrame .fix8 8
  | var {n : Nat} (h1 : 1 ≤ n) (h246 : n ≤ 246) : FcsFrame .var n

/-- The bytes of a frame with an FCS before DA: the start delimiter, and the two length bytes of `VAR`. -/
def startBytes (p : Params) : Variant → Nat → List Byte
  | .fix0, _ => [sdFix0]
  | .fix8, _ => [sdFix8]
  | .var, n => [sdVar, leByte (leOffsetOf p) n, leByte (leOffsetOf p) n]
  | _, _ => []

@[simp] theorem holds_nil : Holds m lo [] := nofun

theorem FcsFrame.legalN (h : FcsFrame v n) : legalN v n = true := by
  cases h with
  | var h1 h246 => exact decide_eq_true ⟨h1, h246⟩
  | _ => rfl

theorem FcsFrame.payload_le (h : FcsFrame v n) : n ≤ 246 := legalN_le h.legalN

theorem FcsFrame.geometry (h : FcsFrame v n) : payloadOffset v = fcsStart v + 3 ∧ edIndex v n + 1 = explen v n := by
  obtain ⟨hpo, -, hend⟩ := geometry_of_legalN h.legalN (by rintro rfl; cases h) (by rintro rfl; cases h)
  exact ⟨hpo, hend⟩

theorem FcsFrame.payloadOffset_eq (h : FcsFrame v n) : payloadOffset v = fcsStart v + 3 := h.geometry.1

theorem FcsFrame.edIndex_succ (h : FcsFrame v n) : edIndex v n + 1 = explen v n := h.geometry.2

theorem FcsFrame.length_startBytes (h : FcsFrame v n) : (startBytes p v n).length = fcsStart v := by
  cases h <;> rfl

/-- A length byte with the value R51 asks for is the one an encoder writes. -/
theorem eq_leByte (h : le.toNat = n + off) : le = leByte off n := by
  rw [leByte, ← h, BitVec.ofNat_toNat, BitVec.setWidth_eq]

/-- Once the bytes before DA stand in `BUF`, the checks that are left are those on the rest of the frame. -/
theorem decodeFrame_of_startBytes (hf : FcsFrame v n) (hpos : 1 ≤ len) (hvar : v = .var → 3 ≤ len)
    (h : Holds m 0 (startBytes p v n)) : decodeFrame (leOffsetOf p) len m = decodeFramed v n len m := by
  cases hf with
  | fix0 => exact decodeFrame_fix0 (by omega) (h 0 _ rfl)
  | fix8 => exact decodeFrame_fix8 (by omega) (h 0 _ rfl)
  | var h1 h246 =>
    obtain ⟨-, hpayload, -⟩ := lengthByteCountsPayload p
    obtain ⟨-, hn⟩ := hpayload n h1 h246
    exact decodeFrame_var (hvar rfl) h hn

/-- What the checks on a frame with an FCS read when its covered bytes, FCS byte and end delimiter are defined. -/
theorem reads_of_framed {r ed : Byte} (hbody : body.length = fcsCount n)
    (h : Holds m (fcsStart v) (body ++ [r, ed])) :
    fcs m (fcsStart v) (fcsCount n) = .ok (sumMod256 body) ∧ bufRead m (fcsIndex v n) = .ok r ∧
    bufRead m (edIndex v n) = .ok ed := by
  obtain ⟨hcovered, htrailer⟩ := holds_append.mp h
  rw [hbody] at htrailer
  exact ⟨hbody ▸ fcs_of_holds hcovered, htrailer.read (k := 0) rfl rfl, htrailer.read (k := 1) rfl rfl⟩

/-- A frame with an FCS that passes the checks: its length is right, the three bytes from DA on are the fields, and the
sum of the covered bytes and ED follow the payload. The converse of `decodeFramed_of_holds`. -/
theorem holds_of_decodeFramed {v' : Variant} {n' : Nat} {pair : Option (Byte × Byte)}
    (h : decodeFramed v n len m = .ok (.ok v' da sa fc n' pair)) :
    v' = v ∧ n' = n ∧ len = edIndex v n + 1 ∧
    ∃ du : List Byte, du.length = n ∧
      Holds m (fcsStart v) ([da, sa, fc] ++ du ++ [sumMod256 ([da, sa, fc] ++ du), edByte]) := by
  obtain hr | ⟨hlen, hed, cv, rv, hcv, hrv, ⟨-, hr⟩ | ⟨rfl, da', sa', fc', hda, hsa, hfc, hr⟩⟩ := decodeFramed_cases h
  · cases hr
  · cases hr
  cases hr
  obtain ⟨bs, hbs, hcovered⟩ := holds_of_fcsFrom hcv
  obtain ⟨b0, b1, b2, du, rfl⟩ : ∃ b0 b1 b2 du, bs = [b0, b1, b2] ++ du := by
    match bs, hbs with
    | b0 :: b1 :: b2 :: du, _ => exact ⟨b0, b1, b2, du, rfl⟩
  have hb0 : b0 = da := Except.ok.inj ((hcovered.read (k := 0) rfl rfl).symm.trans hda)
  have hb1 : b1 = sa := Except.ok.inj ((hcovered.read (k := 1) rfl rfl).symm.trans hsa)
  have hb2 : b2 = fc := Except.ok.inj ((hcovered.read (k := 2) rfl rfl).symm.trans hfc)
  subst hb0 hb1 hb2
  have hx : cv = sumMod256 ([b0, b1, b2] ++ du) := Except.ok.inj (hcv.symm.trans (hbs ▸ fcs_of_holds hcovered))
  refine ⟨rfl, rfl, hlen, du, by simpa [fcsCount] using hbs, holds_append.mpr ⟨hcovered, ?_⟩⟩
  rw [← hx, hbs]
  exact holds_cons.mpr ⟨hrv, holds_cons.mpr ⟨hed, holds_nil⟩⟩

end Sys2Proof.Machine

/-! ## The checks of `DECODE` in their order, and the bytes it reads (44_decode.md R75 to R77) -/

namespace Sys2Proof.Machine

variable {s t : State} {p : Params} {m : Memory} {off len n i : Nat} {v : Variant} {b ed r cv rv le ler : Byte}
  {bs body head : List Byte} {d : DecodeResult} {f : Fault}

/-! ### The completions of `DECODE`, by what the decode function answers -/

theorem exec_decode_of_frame (hle : s.len.toNat ≤ 256)
    (h : decodeFrame (leOffsetOf s.cfg) s.len.toNat s.buf = .ok d) : exec .decode s = .next (finishDecode d s) :=
  execDecode_next.mpr (.inr ⟨hle, d, h, rfl⟩)

theorem exec_decode_fault_iff : exec .decode s = .fault f ↔
    s.len.toNat ≤ 256 ∧ decodeFrame (leOffsetOf s.cfg) s.len.toNat s.buf = .error f := by
  change execDecode s = .fault f ↔ _
  unfold execDecode
  split_ifs with h
  · simp [show 256 < s.len.toNat from h]
  · simp [reading_fault, Nat.not_lt.mp h]

theorem decodeFrame_checksum_ne (h : decodeFrame off len m = .ok (.checksum cv rv)) : cv ≠ rv := by
  have framed {v : Variant} {n : Nat} (h : decodeFramed v n len m = .ok (.checksum cv rv)) : cv ≠ rv := by
    obtain hr | ⟨-, -, _, _, -, -, ⟨hne, hr⟩ | ⟨-, _, _, _, -, -, -, hr⟩⟩ := decodeFramed_cases h
    · cases hr
    · cases hr
      exact hne
    · cases hr
  obtain hr | ⟨-, -, _, _, -, -, hr⟩ | ⟨-, -, hr⟩ | ⟨-, h⟩ | ⟨-, h⟩ | ⟨-, -, _, _, _, -, -, -, h⟩ := decodeFrame_cases h
  · cases hr
  · cases hr
  · cases hr
  · exact framed h
  · exact framed h
  · exact framed h

/-- Settles O26: each answer of the decode function has one completion, and only `L` > 256 gives `E_ILLEGAL`. -/
theorem rejectedTelegramExposesNothing : Obligations.RejectedTelegramExposesNothing := by
  intro s t h
  obtain ⟨-, rfl⟩ | ⟨-, d, hd, rfl⟩ := execDecode_next.mp h
  · exact ⟨nofun, nofun, fun _ => rfl⟩
  cases d with
  | malformed => exact ⟨fun _ => ⟨rfl, rfl, rfl, rfl⟩, nofun, nofun⟩
  | framing => exact ⟨fun _ => ⟨rfl, rfl, rfl, rfl⟩, nofun, nofun⟩
  | checksum cv rv => exact ⟨nofun, fun _ => ⟨rfl, rfl, decodeFrame_checksum_ne hd⟩, nofun⟩
  | ok v da sa fc n pair => exact ⟨nofun, nofun, nofun⟩

/-! ### Delimiter and structure: steps 1 and 2 of R75 -/

theorem decodeFrame_no_delimiter (hpos : 1 ≤ len) (h : bufRead m 0 = .ok b) (hv : sdVariant b = .none) :
    decodeFrame off len m = .ok .malformed := by
  rw [decodeFrame, if_neg (Nat.ne_of_gt hpos), h, ok_bind, hv]

theorem decodeFrame_token_length (hpos : 1 ≤ len) (hlen : len ≠ 3) (h : bufRead m 0 = .ok sdToken) :
    decodeFrame off len m = .ok .malformed := by
  rw [decodeFrame, if_neg (Nat.ne_of_gt hpos), h, ok_bind, sdVariant_sdToken]
  exact if_pos hlen

theorem decodeFrame_sc_length (hlen : 1 < len) (h : bufRead m 0 = .ok scByte) :
    decodeFrame off len m = .ok .malformed := by
  rw [decodeFrame, if_neg (by omega), h, ok_bind, sdVariant_scByte]
  exact if_pos hlen.ne'

theorem decodeFrame_var_short (hpos : 1 ≤ len) (hlen : len < 3) (h : bufRead m 0 = .ok sdVar) :
    decodeFrame off len m = .ok .malformed := by
  rw [decodeFrame, if_neg (Nat.ne_of_gt hpos), h, ok_bind, sdVariant_sdVar]
  exact if_pos hlen

/-- A token of the right length: DA and SA are read. -/
theorem decodeFrame_token_reads (h : bufRead m 0 = .ok sdToken) : decodeFrame off 3 m =
    bufRead m 1 >>= fun da => bufRead m 2 >>= fun sa => .ok (.ok .token da sa 0 0 none) := by
  rw [decodeFrame, if_neg (by decide), h, ok_bind, sdVariant_sdToken]
  rfl

/-- What LE and LEr say of a `VAR` frame: that it is malformed, or which checks are left. -/
def decodeVar (off len : Nat) (m : Memory) (le ler : Byte) : Except Fault DecodeResult :=
  (varPayload off le ler).elim (.ok .malformed) fun n => decodeFramed .var n len m

/-- A `VAR` frame of three bytes or more: LE and LEr are read. -/
theorem decodeFrame_var_reads (hlen : 3 ≤ len) (h : bufRead m 0 = .ok sdVar) : decodeFrame off len m =
    bufRead m 1 >>= fun le => bufRead m 2 >>= fun ler => decodeVar off len m le ler := by
  rw [decodeFrame, if_neg (by omega), h, ok_bind, sdVariant_sdVar]
  refine (if_neg (Nat.not_lt.mpr hlen)).trans (bind_congr fun le => bind_congr fun ler => ?_)
  rw [decodeVar]
  cases varPayload off le ler <;> rfl

theorem decodeFrame_var_malformed (hlen : 3 ≤ len) (h : Holds m 0 [sdVar, le, ler])
    (hn : ∀ n, varPayload off le ler ≠ some n) : decodeFrame off len m = .ok .malformed := by
  have h1 : bufRead m 1 = .ok le := h.read (k := 1) rfl rfl
  have h2 : bufRead m 2 = .ok ler := h.read (k := 2) rfl rfl
  rw [decodeFrame_var_reads hlen (h 0 _ rfl), h1, ok_bind, h2, ok_bind, decodeVar,
    Option.eq_none_iff_forall_ne_some.mpr hn]
  rfl

/-! ### Length, end delimiter and FCS: steps 3 to 5 of R75 -/

theorem decodeFramed_length (h : len ≠ edIndex v n + 1) : decodeFramed v n len m = .ok .framing := if_pos h

theorem decodeFramed_delimiter (hlen : len = edIndex v n + 1) (h : bufRead m (edIndex v n) = .ok ed)
    (hne : ed ≠ edByte) : decodeFramed v n len m = .ok .framing := by
  rw [decodeFramed, if_neg (not_not.mpr hlen), h]
  exact if_pos hne

theorem decodeFramed_checksum (hlen : len = edIndex v n + 1) (hed : bufRead m (edIndex v n) = .ok edByte)
    (hcv : fcs m (fcsStart v) (fcsCount n) = .ok cv) (hrv : bufRead m (fcsIndex v n) = .ok rv) (hne : cv ≠ rv) :
    decodeFramed v n len m = .ok (.checksum cv rv) := by
  simp [decodeFramed, hlen, hed, hcv, hrv, hne]

theorem decodeFramed_delimiter_undefined (hlen : len = edIndex v n + 1) (h : m.byte? (edIndex v n) = none) :
    decodeFramed v n len m = .error (.undefinedBufRead (edIndex v n)) := by
  rw [decodeFramed, if_neg (not_not.mpr hlen), bufRead_undefined h, error_bind]

/-- Behind a right end delimiter the covered bytes are read in rising order, then the FCS byte. -/
theorem decodeFramed_body_undefined (hlen : len = edIndex v n + 1) (hed : bufRead m (edIndex v n) = .ok edByte)
    (hbody : body.length ≤ fcsCount n) (h : Holds m (fcsStart v) body)
    (hundef : m.byte? (fcsStart v + body.length) = none) :
    decodeFramed v n len m = .error (.undefinedBufRead (fcsStart v + body.length)) := by
  rw [decodeFramed, if_neg (not_not.mpr hlen), hed, ok_bind, if_neg (not_not.mpr rfl)]
  obtain hlt | heq := hbody.lt_or_eq
  · rw [fcs_undefined h hlt hundef, error_bind]
  · rw [← heq, fcs_of_holds h, ok_bind, fcsIndex, ← heq, bufRead_undefined hundef, error_bind]

/-- The start of a frame with an FCS, as the bytes of each variant. -/
theorem fcsFrame_of_head (h : (v = .fix0 ∧ head = [0xDC] ∧ n = 0) ∨ (v = .fix8 ∧ head = [0xA2] ∧ n = 8) ∨
    (v = .var ∧ 1 ≤ n ∧ n ≤ 246 ∧ ∃ le : Byte, head = [0x68, le, le] ∧ le.toNat = n + leOffsetOf p)) :
    FcsFrame v n ∧ head = startBytes p v n := by
  obtain ⟨rfl, rfl, rfl⟩ | ⟨rfl, rfl, rfl⟩ | ⟨rfl, h1, h246, le, rfl, hle⟩ := h
  · exact ⟨.fix0, rfl⟩
  · exact ⟨.fix8, rfl⟩
  · obtain rfl := eq_leByte hle
    exact ⟨.var h1 h246, rfl⟩

/-- Settles O21: each clause makes the decode function answer at its check. -/
theorem decodeReportsFirstFailure : Obligations.DecodeReportsFirstFailure := by
  refine fun s => ⟨fun hgt => execDecode_next.mpr (.inl ⟨hgt, rfl⟩), fun hzero => ?_, fun b hpos hle hb hnone => ?_,
    fun hpos hle hlen hb => ?_, fun hlt hle hb => ?_, fun hpos hlt hb => ?_, fun le ler h3 hle h hbad => ?_,
    fun v head n hpos hle hhead hv => ?_⟩
  · exact exec_decode_of_frame (d := .malformed) (by omega) (if_pos hzero)
  · simp only [List.mem_cons, List.not_mem_nil, or_false, not_or] at hnone
    obtain ⟨ht, hs, h0, h8, hvar⟩ := hnone
    exact exec_decode_of_frame hle (decodeFrame_no_delimiter hpos hb (sdVariant_eq_none ht hs h0 h8 hvar))
  · exact exec_decode_of_frame hle (decodeFrame_token_length hpos hlen hb)
  · exact exec_decode_of_frame hle (decodeFrame_sc_length hlt hb)
  · exact exec_decode_of_frame (by omega) (decodeFrame_var_short hpos hlt hb)
  · refine exec_decode_of_frame hle (decodeFrame_var_malformed h3 h fun k hk => ?_)
    obtain ⟨rfl, hk', h1, h246⟩ := varPayload_eq_some_iff.mp hk
    obtain hne | hlow | hhigh := hbad
    · exact hne rfl
    · omega
    · omega
  · have hvar : v = .var → 3 ≤ s.len.toNat := by
      rintro rfl
      obtain ⟨hv, -⟩ | ⟨hv, -⟩ | ⟨-, h3, -⟩ := hv
      · cases hv
      · cases hv
      · exact h3
    obtain ⟨hf, rfl⟩ := fcsFrame_of_head (p := s.cfg) (hv.imp_right (.imp_right fun ⟨hv, _, hn⟩ => ⟨hv, hn⟩))
    have hdec := decodeFrame_of_startBytes hf hpos hvar hhead
    rw [hf.length_startBytes, ← hf.edIndex_succ, Nat.add_sub_cancel]
    refine ⟨fun hlen => ?_, fun ed hlen hed hne => ?_, fun body r hlen hbody h hne => ?_⟩
    · exact exec_decode_of_frame hle (hdec.trans (decodeFramed_length hlen))
    · exact exec_decode_of_frame hle (hdec.trans (decodeFramed_delimiter hlen hed hne))
    · obtain ⟨hcv, hrv, hed⟩ := reads_of_framed hbody h
      exact exec_decode_of_frame hle (hdec.trans (decodeFramed_checksum hlen hed hcv hrv hne))

/-! ### What a fault can be (R85, R96) -/

/-- Reads that stop only at an undefined byte with an index below `len`. -/
def FaultsBelow {α : Type} (m : Memory) (len : Nat) (r : Except Fault α) : Prop :=
  ∀ f, r = .error f → ∃ i, f = .undefinedBufRead i ∧ i < len ∧ m.byte? i = none

theorem FaultsBelow.ok {α : Type} (a : α) : FaultsBelow m len (.ok a) := nofun

theorem FaultsBelow.bind {α β : Type} {r : Except Fault α} {k : α → Except Fault β} (hr : FaultsBelow m len r)
    (hk : ∀ a, FaultsBelow m len (k a)) : FaultsBelow m len (r >>= k) := by
  cases r with
  | ok a => exact hk a
  | error f =>
    rintro _ ⟨⟩
    exact hr f rfl

theorem FaultsBelow.ite {α : Type} {c : Prop} [Decidable c] {r r' : Except Fault α} (hr : c → FaultsBelow m len r)
    (hr' : ¬ c → FaultsBelow m len r') : FaultsBelow m len (if c then r else r') := by
  split_ifs with h
  · exact hr h
  · exact hr' h

theorem FaultsBelow.bufRead (hi : i < len) : FaultsBelow m len (bufRead m i) := by
  intro f hf
  refine ⟨i, bufRead_error hf, hi, ?_⟩
  rw [Machine.bufRead] at hf
  split at hf
  · cases hf
  · assumption

theorem FaultsBelow.fcsFrom {k : Nat} (acc : Byte) (h : k + n ≤ len) : FaultsBelow m len (fcsFrom m k n acc) := by
  induction n generalizing k acc with
  | zero => exact .ok acc
  | succ n ih =>
    rw [Machine.fcsFrom]
    cases hb : Machine.bufRead m k with
    | ok b => exact ih _ (by omega)
    | error f =>
      rintro _ ⟨⟩
      exact FaultsBelow.bufRead (by omega) f hb

/-- The checks on a frame with an FCS read only below its length. -/
theorem decodeFramed_faultsBelow : FaultsBelow m len (decodeFramed v n len m) := by
  refine .ite (fun _ => .ok _) fun hlen => ?_
  obtain ⟨hstart, hfi, hed⟩ : fcsStart v + fcsCount n < len ∧ fcsIndex v n < len ∧ edIndex v n < len := by
    simp only [edIndex, fcsIndex] at hlen ⊢
    omega
  have hfields : fcsStart v + 2 < len := by
    rw [fcsCount] at hstart
    omega
  refine .bind (.bufRead hed) fun ed => .ite (fun _ => .ok _) fun _ => ?_
  refine .bind (.fcsFrom 0#8 hstart.le) fun cv => .bind (.bufRead hfi) fun rv => .ite (fun _ => .ok _) fun _ => ?_
  refine .bind (.bufRead (by omega)) fun da => .bind (.bufRead (by omega)) fun sa => ?_
  exact .bind (.bufRead hfields) fun fc => .ok _

theorem decodeFrame_faultsBelow : FaultsBelow m len (decodeFrame off len m) := by
  refine .ite (fun _ => .ok _) fun hpos => .bind (.bufRead (by omega)) fun b => ?_
  cases sdVariant b with
  | none => exact .ok _
  | token =>
    refine .ite (fun _ => .ok _) fun hlen => ?_
    exact .bind (.bufRead (by omega)) fun da => .bind (.bufRead (by omega)) fun sa => .ok _
  | sc => exact .ite (fun _ => .ok _) fun _ => .ok _
  | fix0 => exact decodeFramed_faultsBelow
  | fix8 => exact decodeFramed_faultsBelow
  | var =>
    refine .ite (fun _ => .ok _) fun hlen => ?_
    refine .bind (.bufRead (by omega)) fun le => .bind (.bufRead (by omega)) fun ler => ?_
    cases varPayload off le ler with
    | none => exact .ok _
    | some n => exact decodeFramed_faultsBelow

/-- Two reads, one after the other, stop at the first that is undefined. -/
theorem two_reads_undefined {k : Byte → Byte → Except Fault DecodeResult} (hlen : bs.length < 2) (h : Holds m i bs)
    (hundef : m.byte? (i + bs.length) = none) :
    (bufRead m i >>= fun a => bufRead m (i + 1) >>= k a) = .error (.undefinedBufRead (i + bs.length)) := by
  have hstop := bufRead_undefined hundef
  match bs, hlen with
  | [], _ =>
    rw [show bufRead m i = _ from hstop, error_bind]
  | [b], _ =>
    rw [(holds_cons.mp h).1, ok_bind, show bufRead m (i + 1) = _ from hstop, error_bind]

theorem decodeFrame_undefined (hpos : 1 ≤ len) (h : m.byte? 0 = none) :
    decodeFrame off len m = .error (.undefinedBufRead 0) := by
  rw [decodeFrame, if_neg (Nat.ne_of_gt hpos), bufRead_undefined h, error_bind]

/-- Settles O22: the reads in the order of the decode function, none of them at or above its length. -/
theorem decodeFaultsOnUndefinedByte : Obligations.DecodeFaultsOnUndefinedByte := by
  refine fun s => ⟨fun hpos hle hundef => ?_, fun bs hbs h hundef hb => ?_,
    fun v head n hlen hhead hv => ?_, fun f hf => ?_⟩
  · exact exec_decode_fault_iff.mpr ⟨hle, decodeFrame_undefined hpos hundef⟩
  · obtain ⟨hlen, hb⟩ | ⟨h3, hle, hb⟩ := hb
    · refine exec_decode_fault_iff.mpr ⟨by omega, ?_⟩
      rw [hlen, decodeFrame_token_reads hb, two_reads_undefined hbs h hundef]
    · refine exec_decode_fault_iff.mpr ⟨hle, ?_⟩
      rw [decodeFrame_var_reads h3 hb, two_reads_undefined hbs h hundef]
  · obtain ⟨hf, rfl⟩ := fcsFrame_of_head (p := s.cfg) hv
    have hle : s.len.toNat ≤ 256 := hlen.trans_le ((explen_le hf.payload_le).trans (by decide))
    have hvar : v = .var → 3 ≤ s.len.toNat := by
      rintro rfl
      simp only [hlen, explen]
      omega
    rw [← hf.edIndex_succ] at hlen
    have hdec := decodeFrame_of_startBytes hf (by omega) hvar hhead
    rw [hf.length_startBytes]
    refine ⟨fun hundef => ?_, fun body hed hbody h hundef => ?_⟩
    · exact exec_decode_fault_iff.mpr ⟨hle, hdec.trans (decodeFramed_delimiter_undefined hlen hundef)⟩
    · exact exec_decode_fault_iff.mpr ⟨hle, hdec.trans (decodeFramed_body_undefined hlen hed hbody h hundef)⟩
  · exact decodeFrame_faultsBelow f (exec_decode_fault_iff.mp hf).2

end Sys2Proof.Machine

/-! ## Encoders and decoder together (44_decode.md R78) -/

namespace Sys2Proof.Machine

variable {s t u : State} {p : Params} {w : Word} {i : Instr} {m m' : Memory} {len n : Nat} {v : Variant}
  {da sa fc : Byte} {du frame hd : List Byte} {pair : Option (Byte × Byte)}

/-- The encoder of each variant (R70 to R74). -/
inductive Encodes : Instr → Variant → Prop where
  | token : Encodes .encToken .token
  | sc : Encodes .encSc .sc
  | fix0 : Encodes .encFix0 .fix0
  | fix8 : Encodes .encFix8 .fix8
  | var : Encodes .encVar .var

theorem encodes_of_mem (h : (i, v) ∈ [(Instr.encToken, Variant.token), (.encSc, .sc), (.encFix0, .fix0),
    (.encFix8, .fix8), (.encVar, .var)]) : Encodes i v := by
  simp only [List.mem_cons, Prod.mk.injEq, List.not_mem_nil, or_false] at h
  obtain ⟨rfl, rfl⟩ | ⟨rfl, rfl⟩ | ⟨rfl, rfl⟩ | ⟨rfl, rfl⟩ | ⟨rfl, rfl⟩ := h
  · exact .token
  · exact .sc
  · exact .fix0
  · exact .fix8
  · exact .var

/-- `frame` is the telegram of the variant with the fields of the word `w` (laid out as `FIELDS`, R16) and the payload
`du` (R46 to R50). -/
inductive Telegram (p : Params) (w : Word) : Variant → List Byte → List Byte → Prop where
  | token (hn : byteAt w 3 = 0) : Telegram p w .token [] [sdToken, byteAt w 0, byteAt w 1]
  | sc (hn : byteAt w 3 = 0) : Telegram p w .sc [] [scByte]
  | framed {v : Variant} {du : List Byte} (hn : (byteAt w 3).toNat = du.length) (hf : FcsFrame v du.length) :
      Telegram p w v du (startBytes p v du.length ++ ([byteAt w 0, byteAt w 1, byteAt w 2] ++ du ++
        [sumMod256 ([byteAt w 0, byteAt w 1, byteAt w 2] ++ du), edByte]))

theorem Telegram.length_eq (h : Telegram p w v du frame) : frame.length = explen v du.length := by
  cases h with
  | framed hn hf =>
    rw [← hf.edIndex_succ]
    simp only [List.length_append, hf.length_startBytes, List.length_cons, List.length_nil, edIndex, fcsIndex, fcsCount]
    omega
  | _ => rfl

theorem Telegram.explen_le (h : Telegram p w v du frame) : explen v du.length ≤ 254 := by
  cases h with
  | framed hn hf => exact Machine.explen_le hf.payload_le
  | _ => decide

/-- A telegram in `BUF` has its payload where R54 says. -/
theorem Telegram.payload (h : Telegram p w v du frame) (hm : Holds m 0 frame) : Holds m (payloadOffset v) du := by
  cases h with
  | framed hn hf =>
    rw [holds_append, hf.length_startBytes, Nat.zero_add, holds_append, holds_append] at hm
    obtain ⟨-, ⟨-, hdu⟩, -⟩ := hm
    rw [hf.payloadOffset_eq]
    exact hdu
  | _ => exact holds_nil

/-! ### Decoding a telegram -/

/-- What `RES` reports of the fields `w` of a telegram (R77). -/
def reportedFields (v : Variant) (w : Word) : Word :=
  if v = .token then packWord 0 0 (byteAt w 1) (byteAt w 0) else if v = .sc then 0 else w

theorem reportedFields_of_fcsFrame (h : FcsFrame v n) (w : Word) : reportedFields v w = w := by
  cases h <;> rfl

theorem packWord_of_count (h : (byteAt w 3).toNat = n) :
    packWord (BitVec.ofNat 8 n) (byteAt w 2) (byteAt w 1) (byteAt w 0) = w := by
  rw [← h, BitVec.ofNat_toNat, BitVec.setWidth_eq, packWord_byteAt]

/-- The decode function accepts every telegram and answers its variant and its fields. -/
theorem decodeFrame_of_telegram (h : Telegram p w v du frame) (hm : Holds m 0 frame) :
    ∃ da sa fc n pair, decodeFrame (leOffsetOf p) (explen v du.length) m = .ok (.ok v da sa fc n pair) ∧
      packWord (BitVec.ofNat 8 n) fc sa da = reportedFields v w := by
  cases h with
  | token hn => exact ⟨_, _, _, _, _, decodeFrame_token hm, rfl⟩
  | sc hn => exact ⟨_, _, _, _, _, decodeFrame_sc (hm 0 _ rfl), rfl⟩
  | framed hn hf =>
    have hlen := hf.edIndex_succ
    rw [holds_append, hf.length_startBytes, Nat.zero_add] at hm
    obtain ⟨hstart, hrest⟩ := hm
    have hvar : v = .var → 3 ≤ explen v du.length := by
      rintro rfl
      simp [explen]
    refine ⟨_, _, _, _, _, (decodeFrame_of_startBytes hf (by omega) hvar hstart).trans
      (decodeFramed_of_holds hlen.symm rfl hrest), ?_⟩
    rw [packWord_of_count hn, reportedFields_of_fcsFrame hf]

/-- What the decode function accepts is a telegram with the fields it answers. -/
theorem telegram_of_decodeFrame (h : decodeFrame (leOffsetOf p) len m = .ok (.ok v da sa fc n pair)) :
    ∃ du frame, Telegram p (packWord (BitVec.ofNat 8 n) fc sa da) v du frame ∧ Holds m 0 frame ∧
      len = explen v du.length := by
  have framed {v' : Variant} {n' : Nat} (hf : FcsFrame v' n') (hstart : Holds m 0 (startBytes p v' n'))
      (h : decodeFramed v' n' len m = .ok (.ok v da sa fc n pair)) :
      ∃ du frame, Telegram p (packWord (BitVec.ofNat 8 n) fc sa da) v du frame ∧ Holds m 0 frame ∧
        len = explen v du.length := by
    obtain ⟨rfl, rfl, hlen, du, rfl, hrest⟩ := holds_of_decodeFramed h
    have hcount : du.length < 256 := by have := hf.payload_le; omega
    refine ⟨du, _, .framed (by simpa using hcount) hf, ?_, hlen.trans hf.edIndex_succ⟩
    rw [byteAt_packWord_zero, byteAt_packWord_one, byteAt_packWord_two, holds_append, hf.length_startBytes,
      Nat.zero_add]
    exact ⟨hstart, hrest⟩
  obtain hr | ⟨hlen, h0, da', sa', h1, h2, hr⟩ | ⟨hlen, h0, hr⟩ | ⟨h0, h⟩ | ⟨h0, h⟩ |
    ⟨-, h0, le, ler, k, h1, h2, hk, h⟩ := decodeFrame_cases h
  · cases hr
  · cases hr
    have hframe : Holds m 0 [sdToken, da, sa] := by simp [holds_cons, h0, h1, h2]
    exact ⟨[], _, .token (by simp), by simpa using hframe, hlen⟩
  · cases hr
    exact ⟨[], _, .sc (by simp), holds_cons.mpr ⟨h0, holds_nil⟩, hlen⟩
  · exact framed .fix0 (holds_cons.mpr ⟨h0, holds_nil⟩) h
  · exact framed .fix8 (holds_cons.mpr ⟨h0, holds_nil⟩) h
  · obtain ⟨rfl, hle, hk1, hk246⟩ := varPayload_eq_some_iff.mp hk
    obtain rfl := eq_leByte hle
    exact framed (.var hk1 hk246) (by simp [startBytes, holds_cons, h0, h1, h2]) h

/-! ### Building a telegram -/

/-- The encoder of a variant with an FCS builds its frame in place when `FIELDS.N` is a payload length of it. -/
theorem Encodes.exec_framed (h : Encodes i v) (hf : FcsFrame v (fieldsN s)) :
    exec i s = encodeFramed v (fieldsN s)
      (startBytes s.cfg v (fieldsN s) ++ [fieldsDa s, fieldsSa s, fieldsFc s]) s := by
  generalize hn : fieldsN s = n at hf
  cases hf with
  | fix0 => cases h; exact exec_encFix0_legal (BitVec.eq_of_toNat_eq hn)
  | fix8 => cases h; exact exec_encFix8_legal (BitVec.eq_of_toNat_eq hn)
  | var h1 h246 => cases h; subst hn; exact exec_encVar_legal h1 h246

/-- An encoder whose payload stands in `BUF` builds the telegram of `FIELDS` around it. -/
theorem Encodes.builds (h : Encodes i v) (ht : Telegram s.cfg s.fields v du frame)
    (hdu : Holds s.buf (payloadOffset v) du) : ∃ x, BuildsFrame v (explen v du.length) frame x s (exec i s) := by
  cases ht with
  | token hn =>
    cases h
    rw [exec_encToken_legal hn]
    exact ⟨0, finishEncoder_bufWrites_builds rfl⟩
  | sc hn =>
    cases h
    rw [exec_encSc_legal hn]
    exact ⟨0, finishEncoder_bufWrites_builds rfl⟩
  | framed hn hf =>
    have hcount : fieldsN s = du.length := hn
    rw [hf.payloadOffset_eq] at hdu
    rw [h.exec_framed (hcount ▸ hf), hcount, ← List.append_assoc, ← List.append_assoc]
    exact ⟨_, encodeFramed_builds hf.length_startBytes rfl hf.edIndex_succ rfl hdu⟩

/-- A frame built in place has its payload in `BUF`, for the FCS has read it. -/
theorem payload_of_encodeFramed (h : encodeFramed v n hd s = .next t) (hhd : hd.length = fcsStart v + 3) :
    ∃ du : List Byte, du.length = n ∧ Holds s.buf (fcsStart v + 3) du := by
  obtain ⟨x, hfcs, -⟩ := encodeFramed_next.mp h
  obtain ⟨bs, hbs, hcovered⟩ := holds_of_fcsFrom hfcs
  rw [fcsCount] at hbs
  rw [← List.take_append_drop 3 bs, holds_append, List.length_take, min_eq_left (by omega)] at hcovered
  obtain ⟨-, hdu⟩ := hcovered
  exact ⟨bs.drop 3, by simp [hbs], hdu.congr fun j hlo _ => (bufRead_bufWrites_out (.inr (by omega))).symm⟩

/-- Of the two ways an encoder completes (R69 item 2), the rejection is not `OK`. -/
theorem legalN_of_accepted {P : Prop} (hok : t.code = .ok)
    (h : legalN v n = false ∧ t = finish .eMalformed .none false s ∨ legalN v n = true ∧ P) : legalN v n = true := by
  obtain ⟨-, rfl⟩ | ⟨hn, -⟩ := h
  · cases hok
  · exact hn

theorem Encodes.legalN_of_ok (h : Encodes i v) (hexec : exec i s = .next t) (hok : t.code = .ok) :
    legalN v (fieldsN s) = true := by
  cases h with
  | token => exact legalN_of_accepted hok (execEncToken_next.mp hexec)
  | sc => exact legalN_of_accepted hok (execEncSc_next.mp hexec)
  | fix0 => exact legalN_of_accepted hok (execEncFix0_next.mp hexec)
  | fix8 => exact legalN_of_accepted hok (execEncFix8_next.mp hexec)
  | var => exact legalN_of_accepted hok (execEncVar_next.mp hexec)

/-- An encoder that gave `OK` found the payload of a telegram of `FIELDS` in `BUF`. -/
theorem Encodes.telegram_of_ok (h : Encodes i v) (hexec : exec i s = .next t) (hok : t.code = .ok) :
    ∃ du frame, Telegram s.cfg s.fields v du frame ∧ Holds s.buf (payloadOffset v) du := by
  have hlegal := h.legalN_of_ok hexec hok
  have framed (hf : FcsFrame v (fieldsN s)) :
      ∃ du frame, Telegram s.cfg s.fields v du frame ∧ Holds s.buf (payloadOffset v) du := by
    rw [h.exec_framed hf] at hexec
    obtain ⟨du, hdu, hholds⟩ := payload_of_encodeFramed hexec (by simp [hf.length_startBytes])
    exact ⟨du, _, .framed hdu.symm (hdu ▸ hf), hf.payloadOffset_eq ▸ hholds⟩
  cases h with
  | token => exact ⟨[], _, .token (of_decide_eq_true ((legalN_token s).symm.trans hlegal)), holds_nil⟩
  | sc => exact ⟨[], _, .sc (of_decide_eq_true ((legalN_sc s).symm.trans hlegal)), holds_nil⟩
  | fix0 => exact framed (beq_iff_eq.mp hlegal ▸ .fix0)
  | fix8 => exact framed (beq_iff_eq.mp hlegal ▸ .fix8)
  | var =>
    obtain ⟨h1, h246⟩ := of_decide_eq_true hlegal
    exact framed (.var h1 h246)

/-! ### The round trips -/

/-- Settles O29: the encoder leaves the telegram of its fields in `BUF`, and the decode function answers those fields. -/
theorem decodeReturnsEncodedFields : Obligations.DecodeReturnsEncodedFields := by
  intro i v s t u hmem hexec hok hbuf hlen hcfg
  have henc := encodes_of_mem hmem
  obtain ⟨du, frame, htel, hdu⟩ := henc.telegram_of_ok hexec hok
  obtain ⟨x, t', ht', hframe, -, hshape⟩ := henc.builds htel hdu
  obtain rfl : t = t' := Host.Outcome.next.inj (hexec.symm.trans ht')
  have hcfg' : u.cfg = s.cfg := hcfg.trans (exec_keeps_cfg hexec)
  have hlen' : u.len.toNat = explen v du.length := by
    rw [hlen, hshape]
    exact toNat_ofNat_frameLen htel.explen_le
  obtain ⟨da, sa, fc, n, pair, hdec, hres⟩ := decodeFrame_of_telegram htel (hbuf.symm ▸ hframe : Holds u.buf 0 frame)
  rw [← hcfg', ← hlen'] at hdec
  exact ⟨_, exec_decode_of_ok rfl hdec, rfl, rfl, hbuf, hres⟩

/-- `DECODE` that gives `OK` leaves in `RES` the fields of a telegram that stands in `BUF`, and `BUF` as it was. -/
theorem telegram_of_decode (h : exec .decode s = .next t) (hok : t.code = .ok) :
    t.buf = s.buf ∧ ∃ du frame, Telegram s.cfg t.res t.variant du frame ∧ Holds s.buf 0 frame ∧
      s.len.toNat = explen t.variant du.length := by
  obtain ⟨-, rfl⟩ | ⟨-, r, hr, rfl⟩ := execDecode_next.mp h
  · cases hok
  cases r with
  | ok v da sa fc n pair => exact ⟨rfl, telegram_of_decodeFrame hr⟩
  | _ => cases hok

/-- Two memories agree where the same bytes stand in both. -/
theorem Holds.bufRead_eq {lo j : Nat} (h : Holds m lo frame) (h' : Holds m' lo frame) (hlo : lo ≤ j)
    (hhi : j < lo + frame.length) : bufRead m j = bufRead m' j := by
  have hk : frame[j - lo]? = some frame[j - lo] := List.getElem?_eq_getElem (by omega)
  rw [h.read hk (by omega), h'.read hk (by omega)]

/-- Settles O30: the decoded telegram is the one the encoder builds from `RES` around the payload that stands in `BUF`. -/
theorem reencodingRewritesSameBytes : Obligations.ReencodingRewritesSameBytes := by
  rintro i _ s t u hmem hdec hok rfl hbuf hcfg hfields
  obtain ⟨hkept, du, frame, htel, hframe, hlen⟩ := telegram_of_decode hdec hok
  have hsame : u.buf = s.buf := hbuf.trans hkept
  rw [← exec_keeps_cfg hdec, ← hcfg, ← hfields] at htel
  obtain ⟨x, y, hy, hnew, hrest, hshape⟩ := (encodes_of_mem hmem).builds htel (hsame ▸ htel.payload hframe)
  refine ⟨y, hy, by rw [hshape]; rfl, ?_, fun j => ?_⟩
  · rw [hshape, ← hlen, BitVec.ofNat_toNat, BitVec.setWidth_eq]
  · by_cases hj : j < frame.length
    · exact hnew.bufRead_eq hframe (Nat.zero_le j) (by omega)
    · rw [hrest j (by rw [← htel.length_eq]; omega), hsame]

end Sys2Proof.Machine

/-! ## What a completion leaves of the command protocol (60_exceptions.md R94) -/

namespace Sys2Proof.Machine

/-- Settles O33: a completion leaves `BUSY` at 0 and the pin alone, so the write is accepted. -/
theorem completionLeavesBlockReady : Obligations.CompletionLeavesBlockReady := by
  intro p s t w h hr
  obtain ⟨c, v, cpl, u, rfl, hu⟩ := runWord_next_shape h
  have hlive : (finish c v cpl u).rstN = true := by rw [finish_rstN, hu, hr]
  rw [hostAccess_writeCmd hlive, writeCmd_accept rfl, accept]

end Sys2Proof.Machine

/-! ## An encoder reads `FIELDS`, the payload in `BUF` and `LE_OFFSET` alone (43_encode.md R69; 60_exceptions.md R84) -/

namespace Sys2Proof.Machine

variable {s s' t : State} {i : Instr} {v : Variant} {n : Nat} {hd : List Byte}

/-- An encoder completes as `t` on `s` and as `t'` on `s'` in the same way: rejected, or with the same frame stored. -/
def SameEncoding (s s' t t' : State) : Prop :=
  (t = finish .eMalformed .none false s ∧ t' = finish .eMalformed .none false s') ∨
  ∃ v n x m, t = finishEncoder v n x { s with buf := m } ∧ t' = finishEncoder v n x { s' with buf := m }

theorem bufWrites_eq_of_buf_eq (hbuf : s'.buf = s.buf) (k : Nat) (vs : List Byte) :
    bufWrites k vs s' = { s' with buf := (bufWrites k vs s).buf } := by
  rw [bufWrites_eq, bufWrites_buf_congr hbuf]

theorem sameEncoding_bufWrites (hbuf : s'.buf = s.buf) (v : Variant) (n : Nat) (x : Byte) (frame : List Byte) :
    SameEncoding s s' (finishEncoder v n x (bufWrites 0 frame s)) (finishEncoder v n x (bufWrites 0 frame s')) := by
  refine .inr ⟨v, n, x, (bufWrites 0 frame s).buf, ?_, ?_⟩
  · rw [← bufWrites_eq]
  · rw [bufWrites_eq_of_buf_eq hbuf]

theorem sameEncoding_encodeFramed (hbuf : s'.buf = s.buf) (h : encodeFramed v n hd s = .next t) :
    ∃ t', encodeFramed v n hd s' = .next t' ∧ SameEncoding s s' t t' := by
  obtain ⟨x, hx, rfl⟩ := encodeFramed_next.mp h
  have hhd := bufWrites_buf_congr hbuf 0 hd
  refine ⟨_, encodeFramed_next.mpr ⟨x, hhd ▸ hx, rfl⟩, .inr
    ⟨v, explen v n, x, (bufWrites (fcsIndex v n) [x, edByte] (bufWrites 0 hd s)).buf, ?_, ?_⟩⟩
  · rw [bufWrites_eq (fcsIndex v n), bufWrites_eq 0]
  · rw [bufWrites_eq_of_buf_eq hhd, bufWrites_eq_of_buf_eq hbuf]

/-- Where both encoders check the same payload length, the rejections correspond, and the frames are left to compare. -/
theorem sameEncoding_of_check {P : Prop} {P' : State → Prop}
    (h : (legalN v n = false ∧ t = finish .eMalformed .none false s) ∨ (legalN v n = true ∧ P))
    (hframe : P → ∃ t', P' t' ∧ SameEncoding s s' t t') :
    ∃ t', ((legalN v n = false ∧ t' = finish .eMalformed .none false s') ∨ (legalN v n = true ∧ P' t')) ∧
      SameEncoding s s' t t' := by
  obtain ⟨hn, ht⟩ | ⟨hn, hP⟩ := h
  · exact ⟨_, .inl ⟨hn, rfl⟩, .inl ⟨ht, rfl⟩⟩
  · obtain ⟨t', ht', hsame⟩ := hframe hP
    exact ⟨t', .inr ⟨hn, ht'⟩, hsame⟩

theorem headerOf_congr (hfields : s'.fields = s.fields) (hcfg : s'.cfg = s.cfg) (i : Instr) :
    headerOf i s' = headerOf i s := by
  cases i <;> simp [headerOf, fieldsDa, fieldsSa, fieldsFc, fieldsN, hfields, hcfg]

theorem IsEncoder.sameEncoding (hi : IsEncoder i) (h : exec i s = .next t) (hfields : s'.fields = s.fields)
    (hbuf : s'.buf = s.buf) (hcfg : s'.cfg = s.cfg) : ∃ t', exec i s' = .next t' ∧ SameEncoding s s' t t' := by
  have hn : fieldsN s' = fieldsN s := by rw [fieldsN, hfields, fieldsN]
  have hhd := headerOf_congr hfields hcfg
  obtain rfl | rfl | rfl | rfl | rfl := hi
  · simp only [exec, execEncToken_next, hn, hhd] at h ⊢
    refine sameEncoding_of_check h ?_
    rintro rfl
    exact ⟨_, rfl, sameEncoding_bufWrites hbuf _ _ _ _⟩
  · simp only [exec, execEncSc_next, hn, hhd] at h ⊢
    refine sameEncoding_of_check h ?_
    rintro rfl
    exact ⟨_, rfl, sameEncoding_bufWrites hbuf _ _ _ _⟩
  · simp only [exec, execEncFix0_next, hn, hhd] at h ⊢
    exact sameEncoding_of_check h (sameEncoding_encodeFramed hbuf)
  · simp only [exec, execEncFix8_next, hn, hhd] at h ⊢
    exact sameEncoding_of_check h (sameEncoding_encodeFramed hbuf)
  · simp only [exec, execEncVar_next, hn, hhd] at h ⊢
    exact sameEncoding_of_check h (sameEncoding_encodeFramed hbuf)

theorem IsEncoder.exec_len (hi : IsEncoder i) (l : BitVec 9) (h : exec i s = .next t) :
    exec i { s with len := l } = .next (if t.code = .ok then t else { t with len := l }) := by
  obtain ⟨t', ht', ⟨rfl, rfl⟩ | ⟨v, n, x, m, rfl, rfl⟩⟩ := hi.sameEncoding (s' := { s with len := l }) h rfl rfl rfl
  · exact ht'
  · exact ht'

theorem IsEncoder.exec_ovr (hi : IsEncoder i) (o : Bool) (h : exec i s = .next t) :
    exec i { s with ovr := o } = .next { t with ovr := o } := by
  obtain ⟨t', ht', ⟨rfl, rfl⟩ | ⟨v, n, x, m, rfl, rfl⟩⟩ := hi.sameEncoding (s' := { s with ovr := o }) h rfl rfl rfl
  · exact ht'
  · exact ht'

end Sys2Proof.Machine

/-! ## A dropped `CMD` write (60_exceptions.md R81) -/

namespace Sys2Proof.Machine

variable {s t : State} {i : Instr} {w : Word}

theorem finishDecode_ovr (r : DecodeResult) (o : Bool) (s : State) :
    finishDecode r { s with ovr := o } = { finishDecode r s with ovr := o } := by
  cases r <;> rfl

/-- No command reads `OVR`, and every command keeps it. -/
theorem exec_ovr (o : Bool) (h : exec i s = .next t) : exec i { s with ovr := o } = .next { t with ovr := o } := by
  cases i with
  | classify =>
    obtain ⟨hlen, rfl⟩ | ⟨hlen, r, hr, rfl⟩ := execClassify_next.mp h
    · exact execClassify_next.mpr (.inl ⟨hlen, rfl⟩)
    · exact execClassify_next.mpr (.inr ⟨hlen, r, hr, rfl⟩)
  | measure =>
    obtain ⟨hlen, rfl⟩ | ⟨hlen, r, hr, rfl⟩ := execMeasure_next.mp h
    · exact execMeasure_next.mpr (.inl ⟨hlen, rfl⟩)
    · exact execMeasure_next.mpr (.inr ⟨hlen, r, hr, rfl⟩)
  | decode =>
    obtain ⟨hlen, rfl⟩ | ⟨hlen, r, hr, rfl⟩ := execDecode_next.mp h
    · exact execDecode_next.mpr (.inl ⟨hlen, rfl⟩)
    · exact execDecode_next.mpr (.inr ⟨hlen, r, hr, (finishDecode_ovr r o s).symm⟩)
  | fcsGen a b =>
    obtain ⟨hab, rfl⟩ | ⟨hab, x, hx, rfl⟩ := execFcsGen_next.mp h
    · exact execFcsGen_next.mpr (.inl ⟨hab, rfl⟩)
    · exact execFcsGen_next.mpr (.inr ⟨hab, x, hx, rfl⟩)
  | fcsChk a b =>
    obtain ⟨hab, rfl⟩ | ⟨hab, x, y, hx, hy, rfl⟩ := execFcsChk_next.mp h
    · exact execFcsChk_next.mpr (.inl ⟨hab, rfl⟩)
    · exact execFcsChk_next.mpr (.inr ⟨hab, x, y, hx, hy, rfl⟩)
  | _ => exact IsEncoder.exec_ovr (by simp [IsEncoder]) o h

theorem runWord_ovr (o : Bool) (h : runWord w s = .next t) :
    runWord w { s with ovr := o } = .next { t with ovr := o } := by
  obtain ⟨i, hw, hi⟩ | ⟨⟨why, hill⟩, rfl⟩ := runWord_next h
  · rw [runWord_of_decode hw, exec_ovr o hi]
  · exact runWord_of_illegal hill _

/-- Settles O34: the write sets `OVR` alone, which no command reads or changes. -/
theorem commandDroppedWhileBusy : Obligations.CommandDroppedWhileBusy := by
  intro s w hr hb
  refine ⟨?_, fun p t => runWord_ovr true⟩
  rw [hostAccess_writeCmd hr, writeCmd_drop hb, dropCommand]

end Sys2Proof.Machine

/-! ## The common checks (60_exceptions.md R84) -/

namespace Sys2Proof.Machine

variable {s t : State} {i : Instr} {w : Word} {m : Memory} {off len : Nat}

/-- The command fails its check of R84 beyond the command word's: `L` > 256, or A + B > 255. -/
inductive FailsCheck (s : State) : Instr → Prop where
  | length {i : Instr} (hi : i = .classify ∨ i = .measure ∨ i = .decode) (h : 256 < s.len.toNat) : FailsCheck s i
  | operands {i : Instr} {a b : Nat} (hi : i = .fcsGen a b ∨ i = .fcsChk a b) (h : 255 < a + b) : FailsCheck s i

theorem exec_of_failsCheck (h : FailsCheck s i) : exec i s = .next (onlyStatus .eIllegal .none false s) := by
  cases h with
  | length hi h =>
    obtain rfl | rfl | rfl := hi
    · exact execClassify_next.mpr (.inl ⟨h, rfl⟩)
    · exact execMeasure_next.mpr (.inl ⟨h, rfl⟩)
    · exact execDecode_next.mpr (.inl ⟨h, rfl⟩)
  | operands hi h =>
    obtain rfl | rfl := hi
    · exact execFcsGen_next.mpr (.inl ⟨h, rfl⟩)
    · exact execFcsChk_next.mpr (.inl ⟨h, rfl⟩)

theorem classifyFrame_ne_illegal {r : Code × Variant} (h : classifyFrame len m = .ok r) : r.1 ≠ .eIllegal := by
  unfold classifyFrame at h
  split at h
  · cases h; nofun
  · obtain ⟨b0, -, h⟩ := except_bind_ok.mp h
    split at h
    case h_2 => split_ifs at h <;> cases h <;> nofun
    all_goals cases h; nofun

theorem measureFrame_ne_illegal {r : Code × Variant × Nat} (h : measureFrame off len m = .ok r) :
    r.1 ≠ .eIllegal := by
  unfold measureFrame at h
  split at h
  · cases h; nofun
  · obtain ⟨b0, -, h⟩ := except_bind_ok.mp h
    split at h
    case h_6 =>
      split at h
      · cases h; nofun
      · obtain ⟨le, -, h⟩ := except_bind_ok.mp h
        obtain ⟨ler, -, h⟩ := except_bind_ok.mp h
        split at h <;> cases h <;> nofun
    all_goals cases h; nofun

theorem finishDecode_ne_illegal (r : DecodeResult) (s : State) : (finishDecode r s).code ≠ .eIllegal := by
  cases r <;> nofun

theorem IsEncoder.ne_illegal (hi : IsEncoder i) (h : exec i s = .next t) : t.code ≠ .eIllegal := by
  obtain ⟨-, -, ⟨rfl, -⟩ | ⟨v, n, x, m, rfl, -⟩⟩ := hi.sameEncoding h rfl rfl rfl
  · nofun
  · nofun

/-- Only a failed check makes a legal command complete with `E_ILLEGAL`. -/
theorem failsCheck_of_illegal (h : exec i s = .next t) (hc : t.code = .eIllegal) : FailsCheck s i := by
  cases i with
  | classify =>
    obtain ⟨hlen, -⟩ | ⟨-, r, hr, rfl⟩ := execClassify_next.mp h
    · exact .length (by simp) hlen
    · exact absurd hc (classifyFrame_ne_illegal hr)
  | measure =>
    obtain ⟨hlen, -⟩ | ⟨-, r, hr, rfl⟩ := execMeasure_next.mp h
    · exact .length (by simp) hlen
    · exact absurd hc (measureFrame_ne_illegal hr)
  | decode =>
    obtain ⟨hlen, -⟩ | ⟨-, r, -, rfl⟩ := execDecode_next.mp h
    · exact .length (by simp) hlen
    · exact absurd hc (finishDecode_ne_illegal r s)
  | fcsGen a b =>
    obtain ⟨hab, -⟩ | ⟨-, x, -, rfl⟩ := execFcsGen_next.mp h
    · exact .operands (.inl rfl) hab
    · cases hc
  | fcsChk a b =>
    obtain ⟨hab, -⟩ | ⟨-, x, y, -, -, rfl⟩ := execFcsChk_next.mp h
    · exact .operands (.inr rfl) hab
    · rw [finish_code] at hc
      split_ifs at hc
  | _ => exact absurd hc (IsEncoder.ne_illegal (by simp [IsEncoder]) h)

theorem runWord_of_failsCheck (hw : decodeWord w = .instr i) (h : FailsCheck s i) :
    runWord w s = .next (onlyStatus .eIllegal .none false s) :=
  (runWord_of_decode hw s).trans (exec_of_failsCheck h)

/-- Settles O27: the checks give `E_ILLEGAL` and nothing else does; no encoder has a check of `LEN`. -/
theorem commonChecksGiveIllegal : Obligations.CommonChecksGiveIllegal := by
  intro w s
  refine ⟨fun ⟨_, hill⟩ => runWord_of_illegal hill s, fun hw hlen => ?_, fun a b hw hab => ?_, fun t h hc => ?_,
    fun i l t hi => IsEncoder.exec_len (by simpa [IsEncoder] using hi) l⟩
  · obtain hw | hw | hw := hw
    all_goals exact runWord_of_failsCheck hw (.length (by simp) hlen)
  · obtain hw | hw := hw
    all_goals exact runWord_of_failsCheck hw (.operands (by simp) hab)
  · obtain ⟨i, hw, hi⟩ | ⟨hill, rfl⟩ := runWord_next h
    · have hfails := failsCheck_of_illegal hi hc
      refine ⟨Host.Outcome.next.inj (hi.symm.trans (exec_of_failsCheck hfails)), .inr ?_⟩
      simp only [hw, Decoded.instr.injEq]
      cases hfails with
      | length hi hlen => exact .inl ⟨hi, hlen⟩
      | operands hi hab => exact .inr ⟨_, _, hi, hab⟩
    · exact ⟨rfl, .inl hill⟩

end Sys2Proof.Machine

/-! ## What a step can do to `PEND`, `DONE` and `OVR` (60_exceptions.md R80 to R82, R88, R93) -/

namespace Sys2Proof.Machine

variable {s t : State} {w : Word}

/-- What a move that is no move of the pin does to `PEND`, `DONE` and `OVR`, `a` being the host access it makes: a soft
reset, an accepted command, a write of `STATUS`, or a move that makes no word pending and clears neither flag. -/
def ProtocolEffect (a : Option Access) (s t : State) : Prop :=
  (∃ v, (a = some (.w32 0x000 v) ∧ v.getLsbD 1 = true) ∧ t.pend = none) ∨
  (∃ w, (a = some (.w32 0x004 w) ∧ s.busy = false) ∧ t.pend = some w ∧ t.ovr = s.ovr) ∨
  (∃ v, a = some (.w32 0x008 v) ∧ t.pend = s.pend ∧ t.done = (s.done && !v.getLsbD 17) ∧
    t.ovr = (s.ovr && !v.getLsbD 18)) ∨
  ((t.pend = s.pend ∨ t.pend = none) ∧ (s.done = true → t.done = true) ∧ (s.ovr = true → t.ovr = true))

theorem protocolEffect_kept (a : Option Access) (hp : t.pend = s.pend) (hd : t.done = s.done) (ho : t.ovr = s.ovr) :
    ProtocolEffect a s t :=
  .inr (.inr (.inr ⟨.inl hp, hd.trans, ho.trans⟩))

theorem RegisterWrite.protocolEffect {off : Offset} {v : Word} (h : RegisterWrite off v s t) :
    ProtocolEffect (some (.w32 off v)) s t := by
  obtain ⟨rfl, hv, rfl⟩ | ⟨-, -, rfl⟩ | ⟨-, -, rfl⟩ | ⟨rfl, hb, rfl⟩ | ⟨rfl, rfl⟩ | ⟨-, -, rfl⟩ | ⟨-, -, rfl⟩ := h
  · exact .inl ⟨v, ⟨rfl, hv⟩, rfl⟩
  · exact protocolEffect_kept _ rfl rfl rfl
  · exact .inr (.inr (.inr ⟨.inl rfl, id, fun _ => rfl⟩))
  · exact .inr (.inl ⟨v, ⟨rfl, hb⟩, rfl, rfl⟩)
  · exact .inr (.inr (.inl ⟨v, rfl, rfl, rfl, rfl⟩))
  · exact protocolEffect_kept _ rfl rfl rfl
  · exact protocolEffect_kept _ rfl rfl rfl

theorem hostAccess_protocolEffect {a : Access} (h : hostAccess a s = .next t) : ProtocolEffect (some a) s t := by
  obtain ⟨d, n, rfl⟩ | rfl | ⟨-, off, v, rfl, hw⟩ | ⟨-, -, i, vs, -, rfl⟩ := hostAccess_next h
  · exact protocolEffect_kept _ rfl rfl rfl
  · exact protocolEffect_kept _ rfl rfl rfl
  · exact hw.protocolEffect
  · rw [bufWrites_eq]
    exact protocolEffect_kept _ rfl rfl rfl

/-- Every completion empties `PEND`, sets `DONE` and keeps `OVR` (R82). -/
theorem runWord_protocol (h : runWord w s = .next t) : t.pend = none ∧ t.done = true ∧ t.ovr = s.ovr := by
  obtain ⟨c, v, p, u, rfl, hu⟩ := runWord_next_shape h
  exact ⟨rfl, rfl, by rw [finish_ovr, hu]⟩

theorem driveRst_pend (level : Bool) (s : State) :
    (driveRst level s).pend = s.pend ∨ (driveRst level s).pend = none := by
  unfold driveRst
  split_ifs
  · exact .inl rfl
  · exact .inr rfl

theorem step_protocolEffect (h : step s = .next t) :
    ((∃ level, nextMove s = .rst level) ∧ (t.pend = s.pend ∨ t.pend = none)) ∨ ProtocolEffect (nextAccess s) s t := by
  obtain rfl | ⟨-, -, w, -, hrun⟩ | ⟨-, rest, -, rfl⟩ | ⟨a, rest, ha, hacc⟩ | ⟨level, hm, rfl⟩ := step_next h
  · exact .inr (protocolEffect_kept _ rfl rfl rfl)
  · obtain ⟨hp, hd, ho⟩ := runWord_protocol hrun
    exact .inr (.inr (.inr (.inr ⟨.inr hp, fun _ => hd, ho.trans⟩)))
  · exact .inr (protocolEffect_kept _ rfl rfl rfl)
  · have heffect := hostAccess_protocolEffect hacc
    rw [ha]
    exact .inr heffect
  · exact .inl ⟨⟨level, hm⟩, driveRst_pend level (movedOn s)⟩

theorem step_codec_idle (hm : nextMove s = .codec) (hp : s.pend = none) : step s = .next (movedOn s) := by
  rw [step_eq, hm, takeMove, codecTurn, movedOn_pend, hp]

/-- Settles O35: of the effects a step can have on `PEND`, only acceptance makes a word pending. -/
theorem nothingRunsUnasked : Obligations.NothingRunsUnasked := by
  refine ⟨fun w s t h => ?_, fun s hp hm => step_codec_idle hm hp, fun s t w hidle h hp => ?_⟩
  · obtain ⟨hp, -⟩ := runWord_protocol h
    exact hp
  · have absent (hor : t.pend = s.pend ∨ t.pend = none) : nextAccess s = some (.w32 0x004 w) ∧ s.busy = false := by
      rw [hidle, or_self, hp] at hor
      cases hor
    obtain ⟨-, hor⟩ | ⟨v, -, hnone⟩ | ⟨v, haccept, hv, -⟩ | ⟨v, -, hsame, -⟩ | ⟨hor, -⟩ := step_protocolEffect h
    · exact absent hor
    · exact absent (.inr hnone)
    · obtain rfl : v = w := Option.some.inj (hv.symm.trans hp)
      exact haccept
    · exact absent (.inl hsame)
    · exact absent hor

/-- Settles O36: of the effects a step can have on `DONE` and `OVR`, those that clear one are the writes and resets
named. -/
theorem doneAndOvrClearedOnlyAsStated : Obligations.DoneAndOvrClearedOnlyAsStated := by
  intro s t h
  constructor
  · intro hs ht
    obtain ⟨hm, -⟩ | ⟨v, hsoft, -⟩ | ⟨w, haccept, -⟩ | ⟨v, ha, -, hd, -⟩ | ⟨-, hkept, -⟩ := step_protocolEffect h
    · exact .inr (.inr (.inr hm))
    · exact .inr (.inr (.inl ⟨v, hsoft⟩))
    · exact .inr (.inl ⟨w, haccept⟩)
    · exact .inl ⟨v, ha, by simpa [hs, ht] using hd⟩
    · exact nomatch ht.symm.trans (hkept hs)
  · intro hs ht
    obtain ⟨hm, -⟩ | ⟨v, hsoft, -⟩ | ⟨w, -, -, hsame⟩ | ⟨v, ha, -, -, ho⟩ | ⟨-, -, hkept⟩ := step_protocolEffect h
    · exact .inr (.inr hm)
    · exact .inr (.inl ⟨v, hsoft⟩)
    · exact nomatch ht.symm.trans (hsame.trans hs)
    · exact .inl ⟨v, ha, by simpa [hs, ht] using ho⟩
    · exact nomatch ht.symm.trans (hkept hs)

end Sys2Proof.Machine

/-! ## Writes while a command is pending (70_reset_and_hazards.md R101) -/

namespace Sys2Proof.Machine

variable {s : State}

theorem unlessBusy_busy (h : s.busy = true) (off : Nat) (t : State) :
    unlessBusy off s t = .fault (.hazardWrite off) :=
  if_pos h

/-- Settles O46: operand writes stop at the hazard; each control write is its row of the register map. -/
theorem operandWritesAreHazards : Obligations.OperandWritesAreHazards := by
  intro s v b off hr hb
  refine ⟨?_, ?_, fun hoff => ?_, fun hoff hal => ?_, fun hv => ?_, fun hv => ⟨softReset s, ?_, rfl, rfl⟩,
    hostAccess_writeStatus hr v, ?_⟩
  · exact (hostAccess_writeRegister hr (by decide) (by decide) v).trans (unlessBusy_busy hb _ _)
  · exact (hostAccess_writeRegister hr (by decide) (by decide) v).trans (unlessBusy_busy hb _ _)
  · rw [hostAccess_writeByte hr hoff, unlessBusy_busy hb]
  · rw [hostAccess_writeWord hr hoff hal, unlessBusy_busy hb]
  · rw [hostAccess_writeCtrl hr, writeCtrl_ie hv]
  · rw [hostAccess_writeCtrl hr, writeCtrl_softReset hv]
  · rw [hostAccess_writeCmd hr, writeCmd_drop hb, dropCommand]

end Sys2Proof.Machine

/-! ## The hard reset (70_reset_and_hazards.md R97) -/

namespace Sys2Proof.Machine

variable {s : State} {level : Bool}

/-- The pin puts the block in its reset state whenever it is or was low. -/
theorem driveRst_of_low (h : level = false ∨ s.rstN = false) : driveRst level s = { hardReset s with rstN := level } :=
  if_neg (by simpa only [Bool.and_eq_true, not_and_or, Bool.not_eq_true] using h)

theorem step_rst_of_low (hm : nextMove s = .rst level) (h : level = false ∨ s.rstN = false) :
    step s = .next { hardReset (movedOn s) with rstN := level } := by
  rw [step_eq, hm, takeMove, driveRst_of_low (s := movedOn s) h]

/-- Settles O49: a move of a pin that is or was low is the hard reset, and while it is low no access acts. -/
theorem hardResetHoldsTheBlock : Obligations.HardResetHoldsTheBlock := by
  refine ⟨fun s level => step_rst_of_low, fun s off b v hr => ?_, fun s t w hm hr h => ?_⟩
  · have inert : ∀ a : Access, hostAccess a s = .next (accessInReset a s) := hostAccess_inReset hr
    exact ⟨fun _ => ⟨inert _, inert _⟩, fun _ => ⟨inert _, inert _⟩⟩
  · obtain rfl := Host.Outcome.next.inj ((step_rst_of_low hm (.inr hr)).symm.trans h)
    refine ⟨rfl, rfl, rfl, ?_⟩
    rw [hostAccess_writeCmd rfl, writeCmd_accept rfl, accept]

end Sys2Proof.Machine

/-! ## The soft reset and the bytes it abandons (70_reset_and_hazards.md R98, R99) -/

namespace Sys2Proof.Machine

variable {s : State} {w : Word} {i : Instr} {v : Variant} {n lo count : Nat}

/-- Outside `BUF` a soft reset leaves what a hard reset leaves (R98). -/
theorem softReset_eq (hr : s.rstN = true) :
    softReset s = { State.reset with
      buf := (softReset s).buf, cfg := s.cfg, host := s.host, sched := s.sched, rdata := s.rdata, draws := s.draws } := by
  simp only [softReset, resetRegisters, State.reset, hr]

theorem abandoned_of_idle (hb : s.busy = false) : abandoned s = (0, 0) := by
  simp only [abandoned, hb]

theorem abandoned_of_decode (hb : s.busy = true) (hp : s.pend = some w) (hw : decodeWord w = .instr i) :
    abandoned s = couldWrite (fieldsN s) i := by
  simp only [abandoned, hb, hp, hw]

theorem abandoned_of_illegal {why : IllegalWord} (hb : s.busy = true) (hp : s.pend = some w)
    (hw : decodeWord w = .illegal why) : abandoned s = (0, 0) := by
  simp only [abandoned, hb, hp, hw]

/-- An encoder could write its frame, or nothing when `N` is not a legal payload length (`P`). -/
theorem couldWrite_encoder {P : Prop} [Decidable P] (h : Encodes i v) (hP : legalN v n = true ↔ P) :
    couldWrite n i = (0, if P then explen v n else 0) := by
  rw [apply_ite (Prod.mk 0), ← if_congr hP rfl rfl]
  cases h
  all_goals rfl

theorem bufRead_softReset (h : abandoned s = (lo, count)) (j : Nat) :
    bufRead (softReset s).buf j =
      if lo ≤ j ∧ j < lo + count then .error (.undefinedBufRead j) else bufRead s.buf j := by
  rw [softReset_buf, h, bufRead_undefine]

/-- Settles O51: the bytes that become undefined are those of the pending word's row of the table in R99. -/
theorem softResetKeepsBuffer : Obligations.SoftResetKeepsBuffer := by
  intro s v hr hv
  refine ⟨softReset s, ?_, rfl, softReset_eq hr,
    fun hb j => (bufRead_softReset (abandoned_of_idle hb) j).trans (if_neg (by omega)), ?_⟩
  · rw [hostAccess_writeCtrl hr, writeCtrl_softReset hv]
  intro w hb hp becomeUndefined n
  have pending {i : Instr} {lo count : Nat} (hw : decodeWord w = .instr i) (hc : couldWrite n i = (lo, count)) :
      becomeUndefined lo count :=
    bufRead_softReset ((abandoned_of_decode hb hp hw).trans hc)
  refine ⟨fun a b hw hab => pending hw (if_pos hab), fun a b hw hab => pending hw (if_neg (by omega)),
    fun hw => pending hw (couldWrite_encoder .token beq_iff_eq),
    fun hw => pending hw (couldWrite_encoder .sc beq_iff_eq),
    fun hw => pending hw (couldWrite_encoder .fix0 beq_iff_eq),
    fun hw => pending hw (couldWrite_encoder .fix8 beq_iff_eq),
    fun hw => pending hw (couldWrite_encoder .var decide_eq_true_iff), ?_⟩
  rintro (hw | hw | hw | ⟨a, b, hw⟩ | ⟨why, hw⟩)
  case inr.inr.inr.inr => exact bufRead_softReset (abandoned_of_illegal hb hp hw)
  all_goals exact pending hw rfl

end Sys2Proof.Machine
